-- ==== Sys2Proof/Word.lean ====
section
/-!
DEFINITION. The word types of the cryptpe CORE (spec/00_scope.md R10): bytes, 32-bit bus words
and command words, 64-bit counters. All hold what the spec treats as bits.
-/

namespace Sys2Proof

/-- One byte: the byte alphabet 0 to 255 (R10) and the unit of the buffer memories. -/
abbrev Byte := BitVec 8

/-- A 32-bit register, table word, bus datum or command word (R10, R90). -/
abbrev Word := BitVec 32

/-- A 64-bit register: EBITS (R26) and CTR (R30). -/
abbrev DWord := BitVec 64

end Sys2Proof
end

