-- ==== Sys2Proof/Syntax.lean ====
section
/-!
DEFINITION. The ten commands of the cryptpe CORE (spec/30_encoding.md R92), one constructor per row of
spec/opcode_table.json, and the one operand a command carries (R91, R94).
-/

namespace Sys2Proof

/-- The buffer selector BUF of MASK, every value its two bits can take (R94). -/
inductive BufSel where
  /-- BUF = 0: the payload memory PMEM. -/
  | pmem
  /-- BUF = 1: the serialized-tree memory TMEM. -/
  | tmem
  /-- BUF = 2: the encoded-output memory EMEM. -/
  | emem
  /-- BUF = 3: reserved, raises BadCommand(2). -/
  | reserved
  deriving DecidableEq, Repr

/-- A command. Only MASK has an operand. -/
inductive Instr where
  /-- CLR (R191): end the invocation, leave the FAULT state. -/
  | clr
  /-- COUNT (R111): payload to frequency table. -/
  | count
  /-- BUILD (R114): frequency table to tree. -/
  | build
  /-- DERIVE (R131): tree to codebook. -/
  | derive
  /-- ENCODE (R141): payload and codebook to bit stream. -/
  | encode
  /-- SERIALIZE (R151): tree to its bit form. -/
  | serialize
  /-- CINIT (R165): key and nonce to cipher state. -/
  | cinit
  /-- NEXTBLK (R166): the next keystream block. -/
  | nextblk
  /-- MASK (R181): XOR keystream over a buffer. -/
  | mask (buf : BufSel)
  /-- KEYGEN (R193): key and nonce from the randomness service. -/
  | keygen
  deriving DecidableEq, Repr

/-- The assembler name of a buffer (R94); the reserved selector has none. -/
def BufSel.asm : BufSel → String
  | .pmem => "PMEM"
  | .tmem => "TMEM"
  | .emem => "EMEM"
  | .reserved => "(none)"

/-- A command as the assembler writes it (R97). -/
def Instr.asm : Instr → String
  | .clr => "CLR"
  | .count => "COUNT"
  | .build => "BUILD"
  | .derive => "DERIVE"
  | .encode => "ENCODE"
  | .serialize => "SERIALIZE"
  | .cinit => "CINIT"
  | .nextblk => "NEXTBLK"
  | .mask b => "MASK " ++ b.asm
  | .keygen => "KEYGEN"

end Sys2Proof
end

