-- ==== Sys2Proof/WellFormed.lean ====
section
/-!
DEFINITION. Which commands a legal command word stands for: all but MASK with the reserved buffer
selector (spec/30_encoding.md R94, R95).
-/

namespace Sys2Proof

/-- Legal as a command: MASK names one of the three buffers. -/
def wellFormed : Instr → Bool
  | .mask b => b != .reserved
  | .clr | .count | .build | .derive | .encode | .serialize | .cinit | .nextblk | .keygen => true

/-- The same check as a proposition. -/
abbrev WellFormed (i : Instr) : Prop := wellFormed i = true

end Sys2Proof
end

