-- ==== Sys2Proof/Decode.lean ====
section
/-!
DEFINITION. Decoding a command word, total on every word and rejecting by name in the order of
spec/30_encoding.md R93, and the encoder of spec/30_encoding.md R91 and R92 after it.
-/

namespace Sys2Proof

/-- Why a word is no command (R93, R95). -/
inductive DecodeError where
  /-- A bit of the reserved field 31:10 is set. -/
  | reservedFieldSet
  /-- OPC is not 0x01 to 0x0A. -/
  | undefinedOpcode
  /-- BUF is not zero in a command other than MASK. -/
  | bufOutsideMask
  /-- MASK with BUF = 3. -/
  | reservedBuffer
  deriving DecidableEq, Repr

/-- What decoding a word gives. -/
inductive Decoded where
  | command (i : Instr)
  | rejected (e : DecodeError)
  deriving DecidableEq, Repr

/-- Field OPC, bits 7:0 (R91). -/
def opcField (w : Word) : Byte := w.extractLsb' 0 8

/-- Field BUF, bits 9:8 (R91). -/
def bufField (w : Word) : BitVec 2 := w.extractLsb' 8 2

/-- Field RSV, bits 31:10 (R91). -/
def rsvField (w : Word) : BitVec 22 := w.extractLsb' 10 22

/-- The buffer a BUF field names (R94). -/
def bufSelOf (b : BitVec 2) : BufSel :=
  match b.toNat with
  | 0 => .pmem
  | 1 => .tmem
  | 2 => .emem
  | _ => .reserved

/-- The opcode map of R92: the command an opcode selects, with MASK's operand. -/
def commandOf (opc : Byte) (buf : BufSel) : Option Instr :=
  match opc.toNat with
  | 0x01 => some .clr
  | 0x02 => some .count
  | 0x03 => some .build
  | 0x04 => some .derive
  | 0x05 => some .encode
  | 0x06 => some .serialize
  | 0x07 => some .cinit
  | 0x08 => some .nextblk
  | 0x09 => some (.mask buf)
  | 0x0A => some .keygen
  | _ => none

/-- Decodes a command word, with the checks in the order of R93 (outside the FAULT state). -/
def decode (w : Word) : Decoded :=
  if rsvField w ≠ 0 then .rejected .reservedFieldSet
  else
    match commandOf (opcField w) (bufSelOf (bufField w)) with
    | none => .rejected .undefinedOpcode
    | some i =>
      if opcField w ≠ 0x09 ∧ bufField w ≠ 0 then .rejected .bufOutsideMask
      else if opcField w = 0x09 ∧ bufField w = 3 then .rejected .reservedBuffer
      else .command i

/-- The value ERRINFO records for a rejected word (R93, R211). -/
def decodeErrorInfo : DecodeError → Word
  | .undefinedOpcode => 0
  | .reservedFieldSet => 1
  | .bufOutsideMask => 1
  | .reservedBuffer => 2

/-- The opcode of a command (R92). -/
def opcodeOf : Instr → Byte
  | .clr => 0x01
  | .count => 0x02
  | .build => 0x03
  | .derive => 0x04
  | .encode => 0x05
  | .serialize => 0x06
  | .cinit => 0x07
  | .nextblk => 0x08
  | .mask _ => 0x09
  | .keygen => 0x0A

/-- The BUF field of a buffer selector (R94). -/
def bufBits : BufSel → BitVec 2
  | .pmem => 0
  | .tmem => 1
  | .emem => 2
  | .reserved => 3

/-- The BUF field of a command: zero outside MASK (R91). -/
def bufFieldOf : Instr → BitVec 2
  | .mask b => bufBits b
  | .clr | .count | .build | .derive | .encode | .serialize | .cinit | .nextblk | .keygen => 0

/-- The command word of a command: RSV zero, then BUF, then OPC (R91, R92). -/
def encode (i : Instr) : Word :=
  (0 : BitVec 22) ++ bufFieldOf i ++ opcodeOf i

/-- The command my decoder reads from a row's bits (bit 0 the least significant), none where it
refuses. A command is one 32-bit word delivered as bus data, in no byte order of its own (R90). -/
def decodeTableWord (nbits w : Nat) : Option Instr :=
  match decode (BitVec.ofNat 32 (w % 2 ^ nbits)) with
  | .command i => some i
  | .rejected _ => none

end Sys2Proof
end

