-- ==== Sys2Proof/Machine/Bits.lean ====
section
/-!
DEFINITION. Bit sequences, packing and byte order: the notation of spec/00_scope.md R11 to R17 that the
commands are written in.
-/

namespace Sys2Proof.Machine

/-- The number of bytes that hold `n` bits (R11). -/
def ceil8 (n : Nat) : Nat := (n + 7) / 8

/-- The number of 64-byte keystream blocks that cover `n` bytes (R181). -/
def ceil64 (n : Nat) : Nat := (n + 63) / 64

/-- Rotation of a word to the left (R11). -/
def rotl32 (v : Word) (k : Nat) : Word := (v <<< k) ||| (v >>> (32 - k))

/-- The bits of a byte, bit 7 first (R13). -/
def bits8 (b : Byte) : List Bool :=
  [b.getLsbD 7, b.getLsbD 6, b.getLsbD 5, b.getLsbD 4,
   b.getLsbD 3, b.getLsbD 2, b.getLsbD 1, b.getLsbD 0]

/-- One bit as a byte. -/
def bitByte (b : Bool) : Byte := BitVec.ofNat 8 b.toNat

/-- The byte whose bit 7 is the first bit of a sequence, and so on down; a position the sequence does
not reach holds 0 (R14). -/
def byteOfBits (s : List Bool) : Byte :=
  (bitByte (s.getD 0 false) <<< 7) ||| (bitByte (s.getD 1 false) <<< 6) |||
  (bitByte (s.getD 2 false) <<< 5) ||| (bitByte (s.getD 3 false) <<< 4) |||
  (bitByte (s.getD 4 false) <<< 3) ||| (bitByte (s.getD 5 false) <<< 2) |||
  (bitByte (s.getD 6 false) <<< 1) ||| bitByte (s.getD 7 false)

/-- The first `n` bytes of a bit sequence, eight bits at a time. -/
def packBytes : Nat → List Bool → List Byte
  | 0, _ => []
  | n + 1, s => byteOfBits (s.take 8) :: packBytes n (s.drop 8)

/-- Packing a bit sequence into bytes, first bit in bit 7 of byte 0, zero padding at the end (R14). -/
def pack (s : List Bool) : List Byte := packBytes (ceil8 s.length) s

/-- The first `n` bits of a byte list in the same order (R14). -/
def unpack (bs : List Byte) (n : Nat) : List Bool := (bs.flatMap bits8).take n

/-- Four bytes as a word, the first least significant (R17, R64). -/
def le32 (b0 b1 b2 b3 : Byte) : Word := b3 ++ b2 ++ b1 ++ b0

/-- Byte `k` of a word, counted from the least significant (R17). -/
def wordByte (w : Word) (k : Nat) : Byte := w.extractLsb' (8 * k) 8

/-- The four bytes of a word, least significant first (R17). -/
def le32bytes (w : Word) : List Byte := [wordByte w 0, wordByte w 1, wordByte w 2, wordByte w 3]

/-- Eight bytes as a double word, the first least significant (R17). -/
def le64 (b0 b1 b2 b3 b4 b5 b6 b7 : Byte) : DWord := le32 b4 b5 b6 b7 ++ le32 b0 b1 b2 b3

/-- The eight bytes of a double word, least significant first (R17). -/
def le64bytes (d : DWord) : List Byte := le32bytes (d.extractLsb' 0 32) ++ le32bytes (d.extractLsb' 32 32)

end Sys2Proof.Machine
end

