-- ==== Sys2Proof/Machine/Table.lean ====
section
/-!
DEFINITION. A table of fixed size: the shape of FREQ, NODE, CB and of the small byte buffers
(spec/10_state.md R31 to R37). The entries are a list and the size is part of the type, so a table
of the wrong size cannot be built, and Lean's kernel compares two tables entry by entry.
-/

namespace Sys2Proof.Machine

/-- `n` entries of type `α`, entry 0 first. -/
structure Table (α : Type) (n : Nat) where
  cells : List α
  size : cells.length = n
  deriving DecidableEq, Repr

/-- Entry `i`. -/
def Table.get {α : Type} {n : Nat} (t : Table α n) (i : Fin n) : α :=
  t.cells[i.val]'(by rw [t.size]; exact i.isLt)

/-- The table whose entry `i` is `f i`. -/
def Table.ofFn {α : Type} {n : Nat} (f : Fin n → α) : Table α n :=
  ⟨List.ofFn f, List.length_ofFn⟩

/-- The table with `a` at entry `i` and every other entry as before. -/
def Table.set {α : Type} {n : Nat} (t : Table α n) (i : Fin n) (a : α) : Table α n :=
  ⟨t.cells.set i.val a, by rw [List.length_set, t.size]⟩

/-- The table whose every entry is `a`. -/
def Table.fill {α : Type} (n : Nat) (a : α) : Table α n :=
  ⟨List.replicate n a, List.length_replicate⟩

/-- Entry `i` of a table indexed by a number that the hardware has already bounded: the entry where
`i` is in range, `d` where it is not. -/
def Table.getD {α : Type} {n : Nat} (t : Table α n) (i : Nat) (d : α) : α :=
  t.cells.getD i d

/-- The table that holds `a` at entry `i`, where `i` is in range; the same table where it is not. -/
def Table.setNat {α : Type} {n : Nat} (t : Table α n) (i : Nat) (a : α) : Table α n :=
  ⟨t.cells.set i a, by rw [List.length_set, t.size]⟩

end Sys2Proof.Machine
end

