-- ==== Sys2Proof/Config.lean ====
section
/-!
DEFINITION. What one implementation fixes and what the spec leaves free.

* PMAX and EMAX are arguments of the model (spec/00_scope.md R9, spec/93_implementation_defined.md U8).
* The bytes of PMEM, EMEM and TMEM after power-on may be any value (U1, spec/70_reset_and_hazards.md R242).
* The answer of the randomness service may be any 40 bytes or a failure (U3, spec/46_system.md R193).

The constants below have no body, so nothing can be proved of their values.
-/

namespace Sys2Proof

/-- The two capacity parameters, in bytes (R9). -/
structure Params where
  /-- Capacity of the payload memory PMEM. -/
  pmax : Nat
  /-- Capacity of the encoded-output memory EMEM. -/
  emax : Nat
  deriving DecidableEq, Repr

/-- The bounds of R9: both multiples of 4, with 4 <= PMAX <= EMAX <= 2^30. -/
abbrev Params.Valid (p : Params) : Prop :=
  p.pmax % 4 = 0 ∧ p.emax % 4 = 0 ∧ 4 ≤ p.pmax ∧ p.pmax ≤ p.emax ∧ p.emax ≤ 2 ^ 30

/-- One answer of the randomness service to one draw: 40 bytes in order, or a failure (R193, R194). -/
inductive RngAnswer where
  | fail
  | bytes (r : Machine.Table Byte 40)
  deriving DecidableEq, Repr, Inhabited

/-- Free: selects PMAX among the values R9 admits. -/
opaque Config.pmaxChoice : Nat

/-- Free: selects EMAX among the values R9 admits for that PMAX. -/
opaque Config.emaxChoice : Nat

/-- Free value (U1): the byte a buffer address holds after the power-on or reset numbered by the first
argument, until something writes it. -/
opaque Config.powerOnByte : Nat → Nat → Byte

/-- Free value (U3): the randomness service's answer to the draw of this number, where the
environment has not been given one in `State.rng`. -/
opaque Config.rngDraw : Nat → RngAnswer

/-- The parameters of the machine that `State.reset` starts: any pair R9 admits, unknown which. -/
def Config.machine : Params :=
  let pmax := 4 * (Config.pmaxChoice % 2 ^ 28 + 1)
  { pmax := pmax
    emax := pmax + 4 * (Config.emaxChoice % ((2 ^ 30 - pmax) / 4 + 1)) }

end Sys2Proof
end

