-- ==== Sys2Proof/Machine/State.lean ====
section
/-!
DEFINITION. The state of the block (spec/10_state.md), its reset value (R44) and the reasons a step can
stop. INVENTORY.md lists every field with its rule; the last five fields are the model's own.
-/

namespace Sys2Proof.Machine

/-- A record of the NODE arena (R35). A record that BUILD does not use is all zero, which is
`internal 0 0 0`. -/
inductive Node where
  | leaf (byte : Byte) (weight : Word)
  | internal (weight : Word) (left right : BitVec 9)
  deriving DecidableEq, Repr

/-- The all-zero record (R35). -/
abbrev Node.zero : Node := .internal 0 0 0

/-- A record of the codebook CB (R37): none where VALID is 0, otherwise the code as a bit sequence,
first bit first, whose length is LEN. -/
abbrev CodeEntry := Option (List Bool)

/-- The flags of STATUS (R23). -/
structure Status where
  treeV : Bool
  cbV : Bool
  serV : Bool
  encV : Bool
  ciphV : Bool
  ksV : Bool
  fault : Bool
  deriving DecidableEq, Repr

/-- All flags 0. -/
def Status.zero : Status :=
  { treeV := false, cbV := false, serV := false, encV := false, ciphV := false, ksV := false
    fault := false }

/-- The buffer memories PMEM, EMEM and TMEM (R39 to R41): what has been written since reset, as
(bus address, byte) pairs with strictly rising addresses. An address with no entry has no value here;
what a reader sees there is `State.byteAt`. -/
abbrev Memory := List Host.Cell

/-- The one form a memory has: addresses strictly rising. (An unlisted address reads as no value, so no
entry can equal it.) -/
abbrev Memory.wf (m : Memory) : Prop := List.Pairwise (fun a b : Host.Cell => a.1 < b.1) m

/-- The sizes the bus offers (R62, R63, U6). -/
inductive AccessSize where
  | byte
  | word
  deriving DecidableEq, Repr

/-- What the host can do to the block: MemRead (R62), MemWrite (R63), or drive the reset input (R240). -/
inductive HostEvent where
  | read (addr : Word) (n : AccessSize)
  | write (addr : Word) (n : AccessSize) (v : Word)
  | reset
  deriving DecidableEq, Repr

/-- The response of one transaction (R62, R63): refused or ok, and the data of a read (0 for a write). -/
structure BusResp where
  ok : Bool
  data : Word
  deriving DecidableEq, Repr

/-- Why the machine stops with a fault. -/
inductive Fault where
  /-- Raised by DERIVE and SERIALIZE where TREE_V is 1 and the records reached from ROOT are no tree a
  BUILD can make: a cycle, a path of more than 255 branches, more than 256 leaves, a record at NNODES
  or above, or a root that is a leaf. R36 and R218 say that no run reaches such a state and U10 gives it
  no effect. Safe: the model stops where the spec says nothing (log 7). -/
  | malformedArena
  deriving DecidableEq, Repr

/-- Why the machine gives an instruction no meaning. -/
inductive Refusal where
  /-- Raised by a refused arm of `exec`, for an instruction that has no meaning yet; no arm does so. Safe. -/
  | notModelled (mnemonic : String)
  deriving DecidableEq, Repr

/-- The whole state. -/
structure State where
  /-- PMAX and EMAX, arguments of the model (R9, R27). No step changes them. -/
  cfg : Params
  /-- STATUS (R23). -/
  status : Status
  /-- ERR, bits 2:0 (R24). -/
  err : BitVec 3
  /-- ERRCMD (R24). -/
  errcmd : Word
  /-- ERRINFO (R24). -/
  errinfo : Word
  /-- PLEN (R25). -/
  plen : Word
  /-- OLEN (R26). -/
  olen : Word
  /-- EBITS (R26). -/
  ebits : DWord
  /-- ELEN (R26). -/
  elen : Word
  /-- TBITS (R28). -/
  tbits : Word
  /-- TLEN (R28). -/
  tlen : Word
  /-- NNODES (R29). -/
  nnodes : Word
  /-- NLEAVES (R29). -/
  nleaves : Word
  /-- ROOT (R29). -/
  root : Word
  /-- CTR (R30). -/
  ctr : DWord
  /-- KEYIN (R31). -/
  keyin : Table Byte 32
  /-- NONCEIN (R31). -/
  noncein : Table Byte 8
  /-- KSBLK (R32). -/
  ksblk : Table Byte 64
  /-- K, hidden (R33). -/
  key : Table Byte 32
  /-- N, hidden (R33). -/
  nonce : Table Byte 8
  /-- FREQ (R34). -/
  freq : Table Word 256
  /-- NODE (R35). -/
  node : Table Node 511
  /-- CB (R37). -/
  cb : Table CodeEntry 256
  /-- PMEM, EMEM and TMEM (R39 to R41). -/
  mem : Memory
  /-- The model's own: host events not served yet, oldest first (log 4). -/
  pending : List HostEvent
  /-- The model's own: the response of the latest transaction (log 5). -/
  resp : Option BusResp
  /-- The model's own: answers the environment has fixed for the coming draws (log 3). -/
  rng : List RngAnswer
  /-- The model's own: the number of draws made (log 3). -/
  draws : Nat
  /-- The model's own: the number of resets made (log 2). -/
  epoch : Nat
  deriving DecidableEq, Repr

/-- The state right after reset of a block with the given parameters: the column "after reset" of R44. -/
def State.resetWith (p : Params) : State :=
  { cfg := p
    status := Status.zero
    err := 0
    errcmd := 0
    errinfo := 0
    plen := 0
    olen := 0
    ebits := 0
    elen := 0
    tbits := 0
    tlen := 0
    nnodes := 0
    nleaves := 0
    root := 0
    ctr := 0
    keyin := Table.fill 32 0
    noncein := Table.fill 8 0
    ksblk := Table.fill 64 0
    key := Table.fill 32 0
    nonce := Table.fill 8 0
    freq := Table.fill 256 0
    node := Table.fill 511 Node.zero
    cb := Table.fill 256 none
    mem := []
    pending := []
    resp := none
    rng := []
    draws := 0
    epoch := 0 }

/-- The machine right after reset (R44, R241), with parameters that nothing more is known of. -/
def State.reset : State := State.resetWith Config.machine

end Sys2Proof.Machine
end

