-- ==== Sys2Proof/Machine/Flags.lean ====
section
/-!
DEFINITION. The flags of STATUS (spec/10_state.md R23): the word the host reads, and the flag updates
of the commands. The block has no condition codes (R42).
-/

namespace Sys2Proof.Machine

/-- One flag at its bit of a word. -/
def flagAt (b : Bool) (k : Nat) : Word := BitVec.ofNat 32 b.toNat <<< k

/-- STATUS as the host reads it: the seven flags at their bits, zeros elsewhere (R23). -/
def Status.word (f : Status) : Word :=
  flagAt f.treeV 0 ||| flagAt f.cbV 1 ||| flagAt f.serV 2 ||| flagAt f.encV 3 |||
  flagAt f.ciphV 4 ||| flagAt f.ksV 5 ||| flagAt f.fault 7

/-- A successful BUILD sets TREE_V (R114). -/
def Status.setTree (f : Status) : Status := { f with treeV := true }

/-- A successful DERIVE sets CB_V (R131). -/
def Status.setCodebook (f : Status) : Status := { f with cbV := true }

/-- A successful SERIALIZE sets SER_V (R151). -/
def Status.setSerialized (f : Status) : Status := { f with serV := true }

/-- A successful ENCODE sets ENC_V (R141). -/
def Status.setEncoded (f : Status) : Status := { f with encV := true }

/-- CINIT sets CIPH_V and clears KS_V (R165). -/
def Status.setCipher (f : Status) : Status := { f with ciphV := true, ksV := false }

/-- A command that generated a keystream block sets KS_V (R166, R181). -/
def Status.setKeystream (f : Status) : Status := { f with ksV := true }

/-- Error entry sets FAULT (R213). -/
def Status.setFault (f : Status) : Status := { f with fault := true }

end Sys2Proof.Machine
end

