-- ==== Sys2Proof/Machine/Ops.lean ====
section
/-!
DEFINITION. The operations the commands share: the buffer memories (spec/10_state.md R39 to R41), error
entry and the return from it (spec/60_exceptions.md R213, R216), reset (spec/70_reset_and_hazards.md
R240), and the draw on the RNG port (spec/46_system.md R194).
-/

namespace Sys2Proof.Machine

/-! ### Memory -/

/-- What has been written at an address since reset, if anything. -/
def Memory.read (m : Memory) (a : Nat) : Option Byte := m.lookup a

/-- A run of bytes as cells at rising addresses from `a`. -/
def cellsAt : Nat → List Byte → Memory
  | _, [] => []
  | a, b :: bs => (a, b) :: cellsAt (a + 1) bs

/-- Writes a run of bytes at addresses `a`, `a + 1`, and so on; every other address as before. -/
def Memory.writeRun (m : Memory) (a : Nat) (bs : List Byte) : Memory :=
  m.filter (fun c => c.1 < a) ++ cellsAt a bs ++ m.filter (fun c => a + bs.length ≤ c.1)

/-- The byte at a bus address of a buffer memory as a reader sees it: the byte last written, or the free
power-on value where nothing has been written since reset (R242, U1). -/
def State.byteAt (s : State) (a : Nat) : Byte :=
  (s.mem.read a).getD (Config.powerOnByte s.epoch a)

/-- The `len` bytes from bus address `a` on. -/
def State.bytesAt (s : State) (a len : Nat) : List Byte :=
  (List.range len).map fun i => s.byteAt (a + i)

/-- The bus address of TMEM[0] (R41). -/
def tmemBase : Nat := 0x800

/-- The bus address of PMEM[0] (R39). -/
def pmemBase : Nat := 0x40000000

/-- The bus address of EMEM[0] (R40). -/
def ememBase : Nat := 0x80000000

/-- The size of TMEM in bytes (R41). -/
def tmemSize : Nat := 320

/-- The payload PMEM[0..PLEN) (R25). -/
def State.payload (s : State) : List Byte := s.bytesAt pmemBase s.plen.toNat

/-! ### Error entry and return -/

/-- The four causes of ResourceExhaustion (R211). -/
inductive Exhaustion where
  /-- COUNT, ENCODE, MASK PMEM: PLEN > PMAX. -/
  | payload
  /-- BUILD: the sum of FREQ exceeds 2^32 - 1. -/
  | frequency
  /-- ENCODE: the packed output exceeds EMAX. -/
  | output
  /-- NEXTBLK, MASK: the block counter range would be exceeded. -/
  | counter
  deriving DecidableEq, Repr

/-- The errors of the block, with exactly the causes of R211 (U13). -/
inductive CommandError where
  /-- DERIVE or SERIALIZE while TREE_V = 0. -/
  | invalidInput
  /-- ENCODE: the payload byte at this index has no codebook entry. -/
  | encodingPrecondition (index : Nat)
  /-- KEYGEN: the randomness service answered fail. -/
  | randomnessUnavailable
  | resourceExhaustion (cause : Exhaustion)
  /-- BadCommand(0), (1), (2): the word is no command (R93); `info` is the detail. -/
  | badWord (info : Word)
  /-- BadCommand(3): NEXTBLK or MASK while CIPH_V = 0. -/
  | cipherNotReady
  deriving DecidableEq, Repr

/-- The code ERR records (R210). -/
def CommandError.code : CommandError → BitVec 3
  | .invalidInput => 1
  | .encodingPrecondition _ => 2
  | .randomnessUnavailable => 3
  | .resourceExhaustion _ => 4
  | .badWord _ => 5
  | .cipherNotReady => 5

/-- The detail ERRINFO records (R211). -/
def CommandError.info : CommandError → Word
  | .invalidInput => 0
  | .encodingPrecondition i => BitVec.ofNat 32 i
  | .randomnessUnavailable => 0
  | .resourceExhaustion .payload => 0
  | .resourceExhaustion .frequency => 1
  | .resourceExhaustion .output => 2
  | .resourceExhaustion .counter => 3
  | .badWord k => k
  | .cipherNotReady => 3

/-- Error entry (R213): a command with word `w` ends with error `e`. Exactly ERR, ERRCMD, ERRINFO and
FAULT are written; control goes nowhere. -/
def State.raise (e : CommandError) (w : Word) (s : State) : State :=
  { s with
    err := e.code
    errcmd := w
    errinfo := e.info
    status := s.status.setFault }

/-- What CLR does (R191) and the only return from the FAULT state short of reset (R216): the column "after
CLR" of R44. The buffer memories, the parameters and the model's own fields stay. -/
def State.clear (s : State) : State :=
  { s with
    status := Status.zero
    err := 0
    errcmd := 0
    errinfo := 0
    plen := 0
    olen := 0
    ebits := 0
    elen := 0
    tbits := 0
    tlen := 0
    nnodes := 0
    nleaves := 0
    root := 0
    ctr := 0
    keyin := Table.fill 32 0
    noncein := Table.fill 8 0
    ksblk := Table.fill 64 0
    key := Table.fill 32 0
    nonce := Table.fill 8 0
    freq := Table.fill 256 0
    node := Table.fill 511 Node.zero
    cb := Table.fill 256 none }

/-- The reset event (R240, R241): every item of the block at its reset value, the buffer bytes arbitrary
anew (a new epoch of free values), the parameters and what lies outside the block as before. -/
def State.hardReset (s : State) : State :=
  { State.resetWith s.cfg with
    pending := s.pending
    rng := s.rng
    draws := s.draws
    epoch := s.epoch + 1 }

/-! ### The RNG port -/

/-- The answer of the randomness service to the next draw (R194): the one the environment has fixed, or
a free value (U3). -/
def State.rngAnswer (s : State) : RngAnswer :=
  match s.rng with
  | a :: _ => a
  | [] => Config.rngDraw s.draws

/-- The draw itself: one answer is used up. -/
def State.drawn (s : State) : State := { s with rng := s.rng.tail, draws := s.draws + 1 }

end Sys2Proof.Machine
end

