-- ==== Sys2Proof/Machine/Operands.lean ====
section
/-!
DEFINITION. The one operand form of the command set: MASK's buffer selector, which names a buffer and the
register that gives its length (spec/30_encoding.md R94).
-/

namespace Sys2Proof.Machine

/-- The bus address of the first byte of the selected buffer, none for the reserved selector. -/
def maskBase : BufSel → Option Nat
  | .pmem => some pmemBase
  | .tmem => some tmemBase
  | .emem => some ememBase
  | .reserved => none

/-- The length of the selected buffer in bytes: PLEN, TLEN or ELEN. -/
def State.maskLength (s : State) : BufSel → Nat
  | .pmem => s.plen.toNat
  | .tmem => s.tlen.toNat
  | .emem => s.elen.toNat
  | .reserved => 0

end Sys2Proof.Machine
end

