-- ==== Sys2Proof/Machine/Tree.lean ====
section
/-!
DEFINITION. Binary code trees (spec/47_decoder_reference.md R201), their codes (spec/41_codebook.md R130),
their bit form (spec/43_tree_serializer.md R150), and the tree that the NODE arena holds
(spec/10_state.md R35, R36).
-/

namespace Sys2Proof.Machine

/-- A code tree: leaves with byte values, no weights (R201). -/
inductive CodeTree where
  | leaf (byte : Byte)
  | node (left right : CodeTree)
  deriving DecidableEq, Repr

/-- The leaf byte values from left to right. -/
def CodeTree.leaves : CodeTree → List Byte
  | .leaf b => [b]
  | .node l r => l.leaves ++ r.leaves

/-- The length of the longest path from the root to a leaf. -/
def CodeTree.depth : CodeTree → Nat
  | .leaf _ => 0
  | .node l r => max l.depth r.depth + 1

/-- The code of every leaf below a node whose own code is `c`: 0 to the left, 1 to the right (R130). -/
def CodeTree.codesFrom : CodeTree → List Bool → List (Byte × List Bool)
  | .leaf b, c => [(b, c)]
  | .node l r, c => l.codesFrom (c ++ [false]) ++ r.codesFrom (c ++ [true])

/-- The codes of a whole tree: the root has the empty code (R130). -/
def CodeTree.codes (t : CodeTree) : List (Byte × List Bool) := t.codesFrom []

/-- The bit form of a tree (R150): 1 and the byte for a leaf, 0 and both subtrees for an internal node. -/
def CodeTree.ser : CodeTree → List Bool
  | .leaf b => true :: bits8 b
  | .node l r => false :: (l.ser ++ r.ser)

/-- Record `i` of the arena. -/
def State.nodeAt (s : State) (i : Nat) : Node := s.node.getD i Node.zero

/-- The tree below record `i` of an arena with `count` records in use, where `fuel` bounds the number of
records on a path; none where a path is longer or leaves the records in use. -/
def treeBelow (nodeAt : Nat → Node) (count : Nat) : Nat → Nat → Option CodeTree
  | 0, _ => none
  | fuel + 1, i =>
    if i < count then
      match nodeAt i with
      | .leaf b _ => some (.leaf b)
      | .internal _ l r =>
        match treeBelow nodeAt count fuel l.toNat, treeBelow nodeAt count fuel r.toNat with
        | some tl, some tr => some (.node tl tr)
        | _, _ => none
    else none

/-- A tree BUILD can make: the root is internal and there are at most 256 leaves (R36, R112). -/
def CodeTree.buildable : CodeTree → Bool
  | .leaf _ => false
  | .node l r => decide (l.leaves.length + r.leaves.length ≤ 256)

/-- The tree rooted at ROOT that DERIVE and SERIALIZE walk. A path of a tree BUILD makes has at most 255
branches (R132), so at most 256 records; none in a state whose arena is no such tree (log 7). -/
def State.tree? (s : State) : Option CodeTree :=
  match treeBelow s.nodeAt s.nnodes.toNat 256 s.root.toNat with
  | some t => if t.buildable then some t else none
  | none => none

end Sys2Proof.Machine
end

