-- ==== Sys2Proof/Machine/Codebook.lean ====
section
/-!
DEFINITION. The Codebook Generator: DERIVE (spec/41_codebook.md).
-/

namespace Sys2Proof.Machine

/-- The codebook of a tree: for each byte value the code of its leaf, no entry where it has none (R131).
(The leaves of a tree BUILD makes have distinct byte values, so the order of the leaves does not show.) -/
def codebookOf (t : CodeTree) : Table CodeEntry 256 :=
  Table.ofFn fun b => t.codes.lookup (BitVec.ofNat 8 b.val)

/-- DERIVE (R131). -/
def execDerive (s : State) : Host.Outcome State Fault Refusal :=
  if s.status.treeV then
    match s.tree? with
    | some t => .next { s with cb := codebookOf t, status := s.status.setCodebook }
    | none => .fault .malformedArena
  else .next (s.raise .invalidInput (encode .derive))

end Sys2Proof.Machine
end

