-- ==== Sys2Proof/Machine/Encoder.lean ====
section
/-!
DEFINITION. The Bitstream Encoder: ENCODE (spec/42_bitstream_encoder.md).
-/

namespace Sys2Proof.Machine

/-- CB[b] (R37). -/
def codeOf (cb : Table CodeEntry 256) (b : Byte) : CodeEntry := cb.getD b.toNat none

/-- The index of the first byte whose codebook entry is not valid, if there is one (R141). -/
def firstMissing (cb : Table CodeEntry 256) (p : List Byte) : Option Nat :=
  p.findIdx? fun b => (codeOf cb b).isNone

/-- The codes of a byte list one after the other (R141, R142). -/
def encodeBits (cb : Table CodeEntry 256) (p : List Byte) : List Bool :=
  p.flatMap fun b => (codeOf cb b).getD []

/-- ENCODE (R141), with its checks in the order of R215. -/
def execEncode (s : State) : Host.Outcome State Fault Refusal :=
  .next <|
    if s.cfg.pmax < s.plen.toNat then
      s.raise (.resourceExhaustion .payload) (encode .encode)
    else
      match firstMissing s.cb s.payload with
      | some i => s.raise (.encodingPrecondition i) (encode .encode)
      | none =>
        let bits := encodeBits s.cb s.payload
        if s.cfg.emax < ceil8 bits.length then
          s.raise (.resourceExhaustion .output) (encode .encode)
        else
          { s with
            mem := s.mem.writeRun ememBase (pack bits)
            ebits := BitVec.ofNat 64 bits.length
            elen := BitVec.ofNat 32 (ceil8 bits.length)
            olen := s.plen
            status := s.status.setEncoded }

end Sys2Proof.Machine
end

