-- ==== Sys2Proof/Machine/Huffman.lean ====
section
/-!
DEFINITION. The Huffman Tree Builder: COUNT and BUILD (spec/40_huffman_tree.md).
-/

namespace Sys2Proof.Machine

/-! ### COUNT -/

/-- The Byte Frequency Table of a byte list (R111). -/
def countBytes (p : List Byte) : Table Word 256 :=
  Table.ofFn fun b => BitVec.ofNat 32 (p.count (BitVec.ofNat 8 b.val))

/-- COUNT (R111). -/
def execCount (s : State) : Host.Outcome State Fault Refusal :=
  .next <|
    if s.cfg.pmax < s.plen.toNat then
      s.raise (.resourceExhaustion .payload) (encode .count)
    else
      { s with freq := countBytes s.payload }

/-! ### BUILD -/

/-- FREQ[b] as a number. -/
def freqOf (freq : Table Word 256) (b : Byte) : Nat := (freq.getD b.toNat 0).toNat

/-- The sum of all 256 counts, unbounded (R114). -/
def freqTotal (freq : Table Word 256) : Nat :=
  ((List.range 256).map fun b => (freq.getD b 0).toNat).sum

/-- The byte values with a count, ascending: the list S of R113. -/
def presentBytes (freq : Table Word 256) : List Byte :=
  ((List.range 256).map (BitVec.ofNat 8)).filter fun b => freqOf freq b != 0

/-- The leaf list LV of R113: the present byte values, with phantom leaves where there are fewer than
two, ascending. -/
def leafBytes (freq : Table Word 256) : List Byte :=
  match presentBytes freq with
  | [] => [0x00, 0x01]
  | [b] => if b < (b ^^^ 1) then [b, b ^^^ 1] else [b ^^^ 1, b]
  | bs => bs

/-- An element of the priority structure: a node's weight and its arena index (R114). -/
structure QueueKey where
  weight : Nat
  index : Nat
  deriving DecidableEq, Repr

/-- The order of the priority structure: by weight, ties by index, which is insertion order (R115). -/
def QueueKey.before (x y : QueueKey) : Bool :=
  decide (x.weight < y.weight) || (decide (x.weight = y.weight) && decide (x.index < y.index))

/-- The first of a non-empty queue in that order. -/
def queueLeast (x : QueueKey) : List QueueKey → QueueKey
  | [] => x
  | y :: ys => queueLeast (if y.before x then y else x) ys

/-- Removes the least element of a queue. -/
def queuePop (q : List QueueKey) : Option (QueueKey × List QueueKey) :=
  match q with
  | [] => none
  | x :: xs => some (queueLeast x xs, (x :: xs).erase (queueLeast x xs))

/-- The loop of R114 on the arena records made so far and the queue: removes two, appends their parent,
inserts it. `passes` bounds the number of passes. -/
def mergeLoop : Nat → List Node → List QueueKey → List Node
  | 0, arena, _ => arena
  | passes + 1, arena, q =>
    match queuePop q with
    | none => arena
    | some (a, q1) =>
      match queuePop q1 with
      | none => arena
      | some (b, q2) =>
        mergeLoop passes
          (arena ++ [.internal (BitVec.ofNat 32 (a.weight + b.weight))
            (BitVec.ofNat 9 a.index) (BitVec.ofNat 9 b.index)])
          (⟨a.weight + b.weight, arena.length⟩ :: q2)

/-- The leaf records of R114, in the order of the leaf list. -/
def leafNodes (freq : Table Word 256) : List Node :=
  (leafBytes freq).map fun b => .leaf b (freq.getD b.toNat 0)

/-- The queue before the first pass: one key per leaf. -/
def leafQueue (freq : Table Word 256) : List QueueKey :=
  ((leafBytes freq).map (freqOf freq)).mapIdx fun i w => ⟨w, i⟩

/-- The records of the tree of a frequency table: the leaves, then the internal nodes, root last (R114).
L leaves take L - 1 passes (R112). -/
def buildRecords (freq : Table Word 256) : List Node :=
  mergeLoop ((leafBytes freq).length - 1) (leafNodes freq) (leafQueue freq)

/-- The largest total BUILD accepts (R114). -/
def totalLimit : Nat := 2 ^ 32 - 1

/-- BUILD (R114). -/
def execBuild (s : State) : Host.Outcome State Fault Refusal :=
  .next <|
    if totalLimit < freqTotal s.freq then
      s.raise (.resourceExhaustion .frequency) (encode .build)
    else
      let records := buildRecords s.freq
      { s with
        node := Table.ofFn fun i => records.getD i.val Node.zero
        nnodes := BitVec.ofNat 32 records.length
        nleaves := BitVec.ofNat 32 (leafBytes s.freq).length
        root := BitVec.ofNat 32 (records.length - 1)
        status := s.status.setTree }

end Sys2Proof.Machine
end

