-- ==== Sys2Proof/Machine/Salsa.lean ====
section
/-!
DEFINITION. The Salsa20 block function (spec/44_stream_cipher.md R161 to R164), a pure function of key,
nonce and counter (R160).
-/

namespace Sys2Proof.Machine

/-- The quarter-round (R161): z1 first, z0 last. -/
def quarterround (y0 y1 y2 y3 : Word) : Word × Word × Word × Word :=
  let z1 := y1 ^^^ rotl32 (y0 + y3) 7
  let z2 := y2 ^^^ rotl32 (z1 + y0) 9
  let z3 := y3 ^^^ rotl32 (z2 + z1) 13
  let z0 := y0 ^^^ rotl32 (z3 + z2) 18
  (z0, z1, z2, z3)

/-- The column-round (R162). -/
def columnround (x : Vector Word 16) : Vector Word 16 :=
  let (y0, y4, y8, y12) := quarterround x[0] x[4] x[8] x[12]
  let (y5, y9, y13, y1) := quarterround x[5] x[9] x[13] x[1]
  let (y10, y14, y2, y6) := quarterround x[10] x[14] x[2] x[6]
  let (y15, y3, y7, y11) := quarterround x[15] x[3] x[7] x[11]
  #v[y0, y1, y2, y3, y4, y5, y6, y7, y8, y9, y10, y11, y12, y13, y14, y15]

/-- The row-round (R162). -/
def rowround (y : Vector Word 16) : Vector Word 16 :=
  let (z0, z1, z2, z3) := quarterround y[0] y[1] y[2] y[3]
  let (z5, z6, z7, z4) := quarterround y[5] y[6] y[7] y[4]
  let (z10, z11, z8, z9) := quarterround y[10] y[11] y[8] y[9]
  let (z15, z12, z13, z14) := quarterround y[15] y[12] y[13] y[14]
  #v[z0, z1, z2, z3, z4, z5, z6, z7, z8, z9, z10, z11, z12, z13, z14, z15]

/-- The double-round: the column-round first (R162). -/
def doubleround (x : Vector Word 16) : Vector Word 16 := rowround (columnround x)

/-- `n` double-rounds in succession. -/
def doublerounds : Nat → Vector Word 16 → Vector Word 16
  | 0, x => x
  | n + 1, x => doublerounds n (doubleround x)

/-- The core (R163): ten double-rounds, then word `k` of the input added to word `k`. Word `k` of the sum. -/
def salsa20core (x : Vector Word 16) : Vector Word 16 :=
  let z := doublerounds 10 x
  #v[x[0] + z[0], x[1] + z[1], x[2] + z[2], x[3] + z[3],
     x[4] + z[4], x[5] + z[5], x[6] + z[6], x[7] + z[7],
     x[8] + z[8], x[9] + z[9], x[10] + z[10], x[11] + z[11],
     x[12] + z[12], x[13] + z[13], x[14] + z[14], x[15] + z[15]]

/-- The word of a byte table at bytes `j` to `j + 3`, least significant byte first (R17, R66). -/
def tableWord {n : Nat} (t : Table Byte n) (j : Nat) : Word :=
  le32 (t.getD j 0) (t.getD (j + 1) 0) (t.getD (j + 2) 0) (t.getD (j + 3) 0)

/-- The sixteen input words for key `k`, nonce `n` and counter `c` (R164). -/
def salsa20input (k : Table Byte 32) (n : Table Byte 8) (c : DWord) : Vector Word 16 :=
  #v[0x61707865, tableWord k 0, tableWord k 4, tableWord k 8,
     tableWord k 12, 0x3320646E, tableWord n 0, tableWord n 4,
     c.extractLsb' 0 32, c.extractLsb' 32 32, 0x79622D32, tableWord k 16,
     tableWord k 20, tableWord k 24, tableWord k 28, 0x6B206574]

/-- The keystream block for key `k`, nonce `n` and counter `c` (R164): the output words one after the
other, each least significant byte first. -/
def salsa20block (k : Table Byte 32) (n : Table Byte 8) (c : DWord) : Table Byte 64 :=
  let o := salsa20core (salsa20input k n c)
  Table.ofFn fun j => wordByte (o.toList.getD (j.val / 4) 0) (j.val % 4)

end Sys2Proof.Machine
end

