-- ==== Sys2Proof/Machine/Cipher.lean ====
section
/-!
DEFINITION. The Stream Cipher Engine: CINIT and NEXTBLK (spec/44_stream_cipher.md).
-/

namespace Sys2Proof.Machine

/-- The last value of CTR, for which no block is generated (R167). -/
def ctrLimit : Nat := 2 ^ 64 - 1

/-- The keystream block number `c` of the cipher state (R168). -/
def State.block (s : State) (c : DWord) : Table Byte 64 := salsa20block s.key s.nonce c

/-- CINIT (R165). -/
def execCinit (s : State) : Host.Outcome State Fault Refusal :=
  .next
    { s with
      key := s.keyin
      nonce := s.noncein
      ctr := 0
      ksblk := Table.fill 64 0
      status := s.status.setCipher }

/-- NEXTBLK (R166). -/
def execNextblk (s : State) : Host.Outcome State Fault Refusal :=
  .next <|
    if s.status.ciphV = false then s.raise .cipherNotReady (encode .nextblk)
    else if s.ctr.toNat = ctrLimit then
      s.raise (.resourceExhaustion .counter) (encode .nextblk)
    else
      { s with
        ksblk := s.block s.ctr
        ctr := s.ctr + 1
        status := s.status.setKeystream }

end Sys2Proof.Machine
end

