-- ==== Sys2Proof/Machine/Mask.lean ====
section
/-!
DEFINITION. The Obfuscation Step: MASK (spec/45_mask.md).
-/

namespace Sys2Proof.Machine

/-- XORs keystream over a byte list, block-aligned: `n` blocks from number `c` on, 64 bytes each (R181,
R182). -/
def maskBytes (k : Table Byte 32) (nonce : Table Byte 8) : Nat → DWord → List Byte → List Byte
  | 0, _, _ => []
  | n + 1, c, d =>
    List.zipWith (· ^^^ ·) (d.take 64) (salsa20block k nonce c).cells ++
      maskBytes k nonce n (c + 1) (d.drop 64)

/-- The effect of MASK once its checks have passed: the buffer at `base` of `len` bytes is masked in
place, the blocks are used up, and the last of them stays in KSBLK (R181). -/
def State.maskBuffer (s : State) (base len : Nat) : State :=
  let nblk := ceil64 len
  { s with
    mem := s.mem.writeRun base (maskBytes s.key s.nonce nblk s.ctr (s.bytesAt base len))
    ksblk := if nblk = 0 then s.ksblk else s.block (s.ctr + BitVec.ofNat 64 (nblk - 1))
    ctr := s.ctr + BitVec.ofNat 64 nblk
    status := if nblk = 0 then s.status else s.status.setKeystream }

/-- MASK (R181), with its checks in the order of R215. The reserved selector is BadCommand(2) (R94): the
decoder already says so and no step hands it on (log 12). -/
def execMask (buf : BufSel) (s : State) : Host.Outcome State Fault Refusal :=
  .next <|
    match maskBase buf with
    | none => s.raise (.badWord (decodeErrorInfo .reservedBuffer)) (encode (.mask buf))
    | some base =>
      if s.status.ciphV = false then s.raise .cipherNotReady (encode (.mask buf))
      else if buf = .pmem ∧ s.cfg.pmax < s.plen.toNat then
        s.raise (.resourceExhaustion .payload) (encode (.mask buf))
      else if ctrLimit < s.ctr.toNat + ceil64 (s.maskLength buf) then
        s.raise (.resourceExhaustion .counter) (encode (.mask buf))
      else s.maskBuffer base (s.maskLength buf)

end Sys2Proof.Machine
end

