-- ==== Sys2Proof/Machine/Serializer.lean ====
section
/-!
DEFINITION. The Tree Serializer: SERIALIZE (spec/43_tree_serializer.md).
-/

namespace Sys2Proof.Machine

/-- SERIALIZE (R151). -/
def execSerialize (s : State) : Host.Outcome State Fault Refusal :=
  if s.status.treeV then
    match s.tree? with
    | some t =>
      .next
        { s with
          mem := s.mem.writeRun tmemBase (pack t.ser)
          tbits := BitVec.ofNat 32 t.ser.length
          tlen := BitVec.ofNat 32 (ceil8 t.ser.length)
          status := s.status.setSerialized }
    | none => .fault .malformedArena
  else .next (s.raise .invalidInput (encode .serialize))

end Sys2Proof.Machine
end

