-- ==== Sys2Proof/Machine/System.lean ====
section
/-!
DEFINITION. The system commands: CLR and KEYGEN (spec/46_system.md).
-/

namespace Sys2Proof.Machine

/-- CLR (R191): it cannot fail. -/
def execClr (s : State) : Host.Outcome State Fault Refusal := .next s.clear

/-- The key part of a drawn answer: its first 32 bytes (R193). -/
def answerKey (r : Table Byte 40) : Table Byte 32 := Table.ofFn fun j => r.getD j.val 0

/-- The nonce part of a drawn answer: its last 8 bytes (R193). -/
def answerNonce (r : Table Byte 40) : Table Byte 8 := Table.ofFn fun j => r.getD (32 + j.val) 0

/-- KEYGEN (R193): one draw, then the key and nonce stored or RandomnessUnavailable raised. -/
def execKeygen (s : State) : Host.Outcome State Fault Refusal :=
  .next <|
    match s.rngAnswer with
    | .fail => s.drawn.raise .randomnessUnavailable (encode .keygen)
    | .bytes r => { s.drawn with keyin := answerKey r, noncein := answerNonce r }

end Sys2Proof.Machine
end

