-- ==== Sys2Proof/Machine/Dispatch.lean ====
section
/-! DEFINITION. One arm per command (spec/30_encoding.md R92), each one call of that command's meaning. -/

namespace Sys2Proof.Machine

def exec (i : Instr) (s : State) : Host.Outcome State Fault Refusal :=
  match i with
  | .clr => Sys2Proof.Machine.execClr s
  | .count => Sys2Proof.Machine.execCount s
  | .build => Sys2Proof.Machine.execBuild s
  | .derive => Sys2Proof.Machine.execDerive s
  | .encode => Sys2Proof.Machine.execEncode s
  | .serialize => Sys2Proof.Machine.execSerialize s
  | .cinit => Sys2Proof.Machine.execCinit s
  | .nextblk => Sys2Proof.Machine.execNextblk s
  | .mask buf => Sys2Proof.Machine.execMask buf s
  | .keygen => Sys2Proof.Machine.execKeygen s

end Sys2Proof.Machine
end

