-- ==== Sys2Proof/Machine/Bus.lean ====
section
/-!
DEFINITION. The host bus (spec/20_memory.md): the address map, the two transactions and their refusals,
and what a write to CMD does (spec/30_encoding.md R93).
-/

namespace Sys2Proof.Machine

/-! ### The address map -/

/-- The regions of the address map (R60). -/
inductive Region where
  | csr
  | keyin
  | noncein
  | ksblk
  | freq
  | tmem
  | node
  | cb
  | pmem
  | emem
  deriving DecidableEq, Repr

/-- One row of the address map: a region, its first address and its size in bytes. -/
structure MapRow where
  region : Region
  base : Nat
  size : Nat
  deriving DecidableEq, Repr

/-- The address map (R60). What no row covers is reserved. -/
def addressMap (p : Params) : List MapRow :=
  [⟨.csr, 0x000, 0x4C⟩, ⟨.keyin, 0x080, 0x20⟩, ⟨.noncein, 0x0A0, 8⟩, ⟨.ksblk, 0x0C0, 0x40⟩,
   ⟨.freq, 0x400, 0x400⟩, ⟨.tmem, tmemBase, tmemSize⟩, ⟨.node, 0x2000, 0x1FF0⟩,
   ⟨.cb, 0x4000, 0x4000⟩, ⟨.pmem, pmemBase, p.pmax⟩, ⟨.emem, ememBase, p.emax⟩]

/-- The region that contains an address, with its row; none for a reserved address. -/
def rowOf (p : Params) (a : Nat) : Option MapRow :=
  (addressMap p).find? fun r => decide (r.base ≤ a) && decide (a < r.base + r.size)

/-- The regions that move 32 bits per access and nothing less (R60, R68). -/
def Region.isWord : Region → Bool
  | .csr | .freq | .node | .cb => true
  | .keyin | .noncein | .ksblk | .tmem | .pmem | .emem => false

/-- The number of bytes of an access. -/
def AccessSize.bytes : AccessSize → Nat
  | .byte => 1
  | .word => 4

/-- Where an accepted access goes, as region and offset in it; none where R67 (a), (b) or (c) refuses it. -/
def locate (p : Params) (a : Nat) (n : AccessSize) : Option (Region × Nat) :=
  match rowOf p a with
  | none => none
  | some r =>
    if r.base + r.size < a + n.bytes then none
    else if n = .word ∧ a % 4 ≠ 0 then none
    else if n = .byte ∧ r.region.isWord then none
    else some (r.region, a - r.base)

/-- The locations the host may write: CMD, PLEN, KEYIN, NONCEIN, FREQ, PMEM (R61). -/
def hostWritable (r : Region) (off : Nat) : Bool :=
  match r with
  | .csr => decide (off = 0x000) || decide (off = 0x014)
  | .keyin | .noncein | .freq | .pmem => true
  | .ksblk | .tmem | .node | .cb | .emem => false

/-! ### Reads -/

/-- The CSR words by offset (R60); a read of CMD returns 0 (R22). -/
def State.csrWord (s : State) (off : Nat) : Word :=
  match off with
  | 0x000 => 0
  | 0x004 => s.status.word
  | 0x008 => s.err.setWidth 32
  | 0x00C => s.errcmd
  | 0x010 => s.errinfo
  | 0x014 => s.plen
  | 0x018 => s.olen
  | 0x01C => s.ebits.extractLsb' 0 32
  | 0x020 => s.ebits.extractLsb' 32 32
  | 0x024 => s.elen
  | 0x028 => s.tbits
  | 0x02C => s.tlen
  | 0x030 => s.nnodes
  | 0x034 => s.nleaves
  | 0x038 => s.root
  | 0x03C => s.ctr.extractLsb' 0 32
  | 0x040 => s.ctr.extractLsb' 32 32
  | 0x044 => BitVec.ofNat 32 s.cfg.pmax
  | 0x048 => BitVec.ofNat 32 s.cfg.emax
  | _ => 0

/-- Word `k` of an arena record (R35): LEAF in bit 31 and BYTE in 7:0; WEIGHT; LEFT in 8:0 and RIGHT in
24:16; zero. -/
def Node.word (k : Nat) : Node → Word
  | .leaf b w =>
    match k with
    | 0 => (1 : BitVec 1) ++ (0 : BitVec 23) ++ b
    | 1 => w
    | _ => 0
  | .internal w l r =>
    match k with
    | 1 => w
    | 2 => (0 : BitVec 7) ++ r ++ (0 : BitVec 7) ++ l
    | _ => 0

/-- The word of NODE at a byte offset of the region. -/
def State.nodeWord (s : State) (off : Nat) : Word :=
  (s.node.getD (off / 16) Node.zero).word (off % 16 / 4)

/-- Word `k` of a codebook record (R37): VALID in bit 31 and LEN in 7:0; then the 32 bytes of the packed
code, zero-filled; then zeros. -/
def codeEntryWord (k : Nat) (e : CodeEntry) : Word :=
  match e with
  | none => 0
  | some c =>
    if k = 0 then (1 : BitVec 1) ++ (0 : BitVec 23) ++ BitVec.ofNat 8 c.length
    else if k ≤ 8 then
      let j := 4 * (k - 1)
      le32 ((pack c).getD j 0) ((pack c).getD (j + 1) 0) ((pack c).getD (j + 2) 0)
        ((pack c).getD (j + 3) 0)
    else 0

/-- The word of CB at a byte offset of the region. -/
def State.cbWord (s : State) (off : Nat) : Word :=
  codeEntryWord (off % 64 / 4) (s.cb.getD (off / 64) none)

/-- The word at an offset of a word region. -/
def State.regionWord (s : State) (r : Region) (off : Nat) : Word :=
  match r with
  | .csr => s.csrWord off
  | .freq => s.freq.getD (off / 4) 0
  | .node => s.nodeWord off
  | .cb => s.cbWord off
  | .keyin | .noncein | .ksblk | .tmem | .pmem | .emem => 0

/-- The byte at an offset of a byte region. -/
def State.regionByte (s : State) (r : Region) (off : Nat) : Byte :=
  match r with
  | .keyin => s.keyin.getD off 0
  | .noncein => s.noncein.getD off 0
  | .ksblk => s.ksblk.getD off 0
  | .tmem => s.byteAt (tmemBase + off)
  | .pmem => s.byteAt (pmemBase + off)
  | .emem => s.byteAt (ememBase + off)
  | .csr | .freq | .node | .cb => 0

/-- The data of an accepted read (R62): a word of a word region, or one or four bytes of a byte region,
little-endian (R64). -/
def State.readData (s : State) (r : Region) (off : Nat) (n : AccessSize) : Word :=
  if r.isWord then s.regionWord r off
  else
    match n with
    | .byte => (s.regionByte r off).setWidth 32
    | .word =>
      le32 (s.regionByte r off) (s.regionByte r (off + 1)) (s.regionByte r (off + 2))
        (s.regionByte r (off + 3))

/-- MemRead (R62): the response; no read changes any state. -/
def State.memRead (s : State) (a : Word) (n : AccessSize) : BusResp :=
  match locate s.cfg a.toNat n with
  | none => ⟨false, 0⟩
  | some (r, off) => ⟨true, s.readData r off n⟩

/-! ### Writes -/

/-- The bytes a write stores in a byte region: v[7:0], or the four bytes of v, least significant first
(R63). -/
def writeBytes (n : AccessSize) (v : Word) : List Byte :=
  match n with
  | .byte => [wordByte v 0]
  | .word => le32bytes v

/-- Stores bytes in a byte table from entry `off` on. -/
def Table.storeBytes {k : Nat} (t : Table Byte k) : Nat → List Byte → Table Byte k
  | _, [] => t
  | off, b :: bs => (t.setNat off b).storeBytes (off + 1) bs

/-- What an accepted write stores (R63); for CMD see `State.command`. -/
def State.store (s : State) (r : Region) (off : Nat) (n : AccessSize) (v : Word) : State :=
  match r with
  | .csr => if off = 0x014 then { s with plen := v } else s
  | .keyin => { s with keyin := s.keyin.storeBytes off (writeBytes n v) }
  | .noncein => { s with noncein := s.noncein.storeBytes off (writeBytes n v) }
  | .freq => { s with freq := s.freq.setNat (off / 4) v }
  | .pmem => { s with mem := s.mem.writeRun (pmemBase + off) (writeBytes n v) }
  | .ksblk | .tmem | .node | .cb | .emem => s

/-- The one word that is served in the FAULT state: exactly CLR (R214). -/
def clrWord : Word := 0x00000001

/-- A write of a word to CMD (R93): in the FAULT state anything but exactly CLR is ignored; outside it the
word is decoded, and executed or rejected with BadCommand. -/
def State.command (s : State) (w : Word) : Host.Outcome State Fault Refusal :=
  if s.err ≠ 0 then
    if w = clrWord then exec .clr s else .next s
  else
    match decode w with
    | .command i => exec i s
    | .rejected e => .next (s.raise (.badWord (decodeErrorInfo e)) w)

/-- The state with the response of the transaction being served. -/
def State.respond (s : State) (r : BusResp) : State := { s with resp := some r }

/-- MemWrite (R63): refused by R67 (a) to (c) or because the host may not write there (d), with nothing
changed; otherwise ok, and a write to CMD executes the command before it completes (R70). -/
def State.memWrite (s : State) (a : Word) (n : AccessSize) (v : Word) :
    Host.Outcome State Fault Refusal :=
  match locate s.cfg a.toNat n with
  | none => .next (s.respond ⟨false, 0⟩)
  | some (r, off) =>
    if hostWritable r off then
      if r = .csr ∧ off = 0x000 then (s.respond ⟨true, 0⟩).command v
      else .next ((s.respond ⟨true, 0⟩).store r off n v)
    else .next (s.respond ⟨false, 0⟩)

/-! ### Host events -/

/-- The bus address of CMD (R22). -/
def cmdAddr : Word := 0x00000000

/-- Serves one host event (R62, R63, R240). -/
def State.serve (s : State) (e : HostEvent) : Host.Outcome State Fault Refusal :=
  match e with
  | .read a n => .next (s.respond (s.memRead a n))
  | .write a n v => s.memWrite a n v
  | .reset => .next s.hardReset

/-- Takes the oldest pending event and serves it; with none pending the block waits (R241). -/
def State.serveNext (s : State) : Host.Outcome State Fault Refusal :=
  match s.pending with
  | [] => .next s
  | e :: rest => State.serve { s with pending := rest } e

/-- The host event that delivers a command word (R90): a 4-byte write to CMD. -/
def commandEvent (w : Word) : HostEvent := .write cmdAddr .word w

end Sys2Proof.Machine
end

