-- ==== Sys2Proof/Machine/Step.lean ====
section
/-!
DEFINITION. One step of the machine: one host event (spec/00_scope.md R19.1, spec/20_memory.md R70).
-/

namespace Sys2Proof.Machine

/-- One step. -/
def step (s : State) : Host.Outcome State Fault Refusal := s.serveNext

/-- The state in which the command word made of a table row's bits is what the host writes to CMD next. -/
def State.withFetchWord (s : State) (nbits w : Nat) : State :=
  { s with pending := commandEvent (BitVec.ofNat 32 (w % 2 ^ nbits)) :: s.pending }

end Sys2Proof.Machine
end

