-- ==== Sys2Proof/Machine/DecoderRef.lean ====
section
/-!
DEFINITION. The reference inverse functions (spec/47_decoder_reference.md): no hardware, but what the
round-trip rules are stated with.
-/

namespace Sys2Proof.Machine

/-- Reads one tree off the front of a bit sequence (R201): the tree and the bits left; none where the
sequence ends inside it. `fuel` bounds the number of internal nodes on a path. -/
def readTree : Nat → List Bool → Option (CodeTree × List Bool)
  | 0, _ => none
  | _ + 1, [] => none
  | _ + 1, true :: s =>
    if s.length < 8 then none else some (.leaf (byteOfBits (s.take 8)), s.drop 8)
  | fuel + 1, false :: s =>
    match readTree fuel s with
    | none => none
    | some (l, s1) =>
      match readTree fuel s1 with
      | none => none
      | some (r, s2) => some (.node l r, s2)

/-- `deserialize(B)` (R201): the tree and the number of bits consumed. A tree of n bits has fewer than n
internal nodes, so the fuel never runs out first. -/
def deserialize (bs : List Byte) : Option (CodeTree × Nat) :=
  match readTree (8 * bs.length + 1) (unpack bs (8 * bs.length)) with
  | none => none
  | some (t, rest) => some (t, 8 * bs.length - rest.length)

/-- The walk of `decode` (R202) from a node of the tree `root` over the bits left: the bytes found, or none
where the sequence ends inside a code. -/
def walkBits (root : CodeTree) : CodeTree → List Bool → Option (List Byte)
  | cur, [] => if cur = root then some [] else none
  | .leaf _, _ :: _ => none
  | .node l r, c :: s =>
    match if c then r else l with
    | .leaf b => (walkBits root root s).map (b :: ·)
    | .node l' r' => walkBits root (.node l' r') s

/-- `decode(T, E, nbits, olen)` (R202), for a tree whose root is internal and E of ceil8(nbits) bytes. -/
def decodeBits (t : CodeTree) (bs : List Byte) (nbits olen : Nat) : Option (List Byte) :=
  match t with
  | .leaf _ => none
  | .node l r =>
    if bs.length = ceil8 nbits then
      match walkBits (.node l r) (.node l r) (unpack bs nbits) with
      | some out => if out.length = olen then some out else none
      | none => none
    else none

/-- Byte `i` of the keystream from block `c` on (R168). -/
def keystreamByte (k : Table Byte 32) (n : Table Byte 8) (c i : Nat) : Byte :=
  (salsa20block k n (BitVec.ofNat 64 (c + i / 64))).getD (i % 64) 0

/-- XOR of a byte list with the keystream from block `c` on (R203). -/
def xorKeystream (k : Table Byte 32) (n : Table Byte 8) (c : Nat) (bs : List Byte) : List Byte :=
  bs.mapIdx fun i b => b ^^^ keystreamByte k n c i

/-- `unmask` (R203): the tree bytes from block 0, the payload bytes from the block after them. -/
def unmask (k : Table Byte 32) (n : Table Byte 8) (mt mp : List Byte) : List Byte × List Byte :=
  (xorKeystream k n 0 mt, xorKeystream k n (ceil64 mt.length) mp)

/-- The decoding collaborator (R200): from key, nonce, masked tree, masked payload and the two integers of
the bundle to the payload. -/
def decodeBundle (k : Table Byte 32) (n : Table Byte 8) (mt mp : List Byte) (nbits olen : Nat) :
    Option (List Byte) :=
  match deserialize (unmask k n mt mp).1 with
  | none => none
  | some (t, _) => decodeBits t (unmask k n mt mp).2 nbits olen

end Sys2Proof.Machine
end

