-- ==== Sys2Proof/Machine/Listing.lean ====
section
/-!
DEFINITION. Listings of host events and the pseudo-instructions (spec/30_encoding.md R97 to R102). A listing
is what a host queues in `State.pending`; the block itself knows nothing of it.
-/

namespace Sys2Proof.Machine

/-- A command line (R97): the write of its word to CMD. -/
def commandLine (i : Instr) : HostEvent := commandEvent (encode i)

/-- WR8 (R98). -/
def wr8 (a : Nat) (b : Byte) : HostEvent := .write (BitVec.ofNat 32 a) .byte (b.setWidth 32)

/-- WR32 (R98). -/
def wr32 (a : Nat) (v : Word) : HostEvent := .write (BitVec.ofNat 32 a) .word v

/-- RD8 (R98). -/
def rd8 (a : Nat) : HostEvent := .read (BitVec.ofNat 32 a) .byte

/-- RD32 (R98). -/
def rd32 (a : Nat) : HostEvent := .read (BitVec.ofNat 32 a) .word

/-- Byte writes at addresses `a`, `a + 1`, and so on. -/
def wr8s (a : Nat) (bs : List Byte) : List HostEvent := bs.mapIdx fun i b => wr8 (a + i) b

/-- LOADP (R99): the payload bytes, then PLEN. -/
def loadp (p : List Byte) : List HostEvent :=
  wr8s pmemBase p ++ [wr32 0x014 (BitVec.ofNat 32 p.length)]

/-- SETKEY (R100): the key and nonce bytes, then CINIT. -/
def setkey (k : Table Byte 32) (n : Table Byte 8) : List HostEvent :=
  wr8s 0x080 k.cells ++ wr8s 0x0A0 n.cells ++ [commandLine .cinit]

/-- The Huffman commands of PIPELINE (R101). -/
def pipelineHuffman : List HostEvent :=
  [commandLine .count, commandLine .build, commandLine .serialize, commandLine .derive,
   commandLine .encode]

/-- The two masks of PIPELINE, the tree first (R101). -/
def pipelineMasks : List HostEvent := [commandLine (.mask .tmem), commandLine (.mask .emem)]

/-- PIPELINE (R101). -/
def pipeline : List HostEvent :=
  pipelineHuffman ++ [commandLine .keygen, commandLine .cinit] ++ pipelineMasks

/-- PIPELINE with a key and nonce of the host's (R101). -/
def pipelineWithKey (k : Table Byte 32) (n : Table Byte 8) : List HostEvent :=
  pipelineHuffman ++ setkey k n ++ pipelineMasks

/-- BUNDLE (R102) for array lengths `tlen` and `elen`, which its own reads of TLEN and ELEN return. -/
def bundleReads (tlen elen : Nat) : List HostEvent :=
  [rd32 0x008] ++ (List.range 32).map (fun j => rd8 (0x080 + j)) ++
    (List.range 8).map (fun j => rd8 (0x0A0 + j)) ++
    [rd32 0x02C] ++ (List.range tlen).map (fun j => rd8 (tmemBase + j)) ++
    [rd32 0x024] ++ (List.range elen).map (fun j => rd8 (ememBase + j)) ++
    [rd32 0x018, rd32 0x01C, rd32 0x020]

/-- The output bundle (R102): four byte arrays and two integers. -/
structure Bundle where
  key : List Byte
  nonce : List Byte
  maskedTree : List Byte
  maskedPayload : List Byte
  originalLength : Nat
  bitLength : Nat
  deriving DecidableEq, Repr

/-- The bundle that the reads of BUNDLE deliver from a state; none where ERR is not 0. -/
def State.bundle? (s : State) : Option Bundle :=
  if s.err = 0 then
    some
      { key := s.keyin.cells
        nonce := s.noncein.cells
        maskedTree := s.bytesAt tmemBase s.tlen.toNat
        maskedPayload := s.bytesAt ememBase s.elen.toNat
        originalLength := s.olen.toNat
        bitLength := s.ebits.toNat }
  else none

end Sys2Proof.Machine
end

