-- ==== Sys2Proof/Safety.lean ====
section
/-!
DEFINITION. What the statements speak of: a step that goes on, the NODE arena as a tree of records
(spec/10_state.md R36), the merge order of BUILD (spec/40_huffman_tree.md R114, R115), and the invariant of
the machine (spec/10_state.md R29, R36, R38, R45).
-/

namespace Sys2Proof.Machine

/-- The step goes on: neither a fault nor a refusal. -/
def GoesOn (o : Host.Outcome State Fault Refusal) : Prop := ∃ t, o = .next t

/-- Every item of the block that CLR clears is at its value of the column "after CLR" of R44, which is the
value of the column "after reset" too. -/
structure State.Cleared (s : State) : Prop where
  status : s.status.word = 0 ∧ s.status = Status.zero
  error : s.err = 0 ∧ s.errcmd = 0 ∧ s.errinfo = 0
  lengths : s.plen = 0 ∧ s.olen = 0 ∧ s.ebits = 0 ∧ s.elen = 0 ∧ s.tbits = 0 ∧ s.tlen = 0
  tree : s.nnodes = 0 ∧ s.nleaves = 0 ∧ s.root = 0
  counter : s.ctr = 0
  inputs : (∀ j < 32, s.keyin.getD j 0 = 0) ∧ ∀ j < 8, s.noncein.getD j 0 = 0
  keystream : ∀ j < 64, s.ksblk.getD j 0 = 0
  hidden : (∀ j < 32, s.key.getD j 0 = 0) ∧ ∀ j < 8, s.nonce.getD j 0 = 0
  tables : (∀ b < 256, s.freq.getD b 0 = 0) ∧ (∀ i < 511, s.node.getD i Node.zero = Node.zero) ∧
    ∀ b < 256, s.cb.getD b none = none

/-- `s` after error entry with code `code` and detail `info` by command word `w` (R213). -/
def State.afterError (s : State) (code : BitVec 3) (w info : Word) : State :=
  { s with
    err := code
    errcmd := w
    errinfo := info
    status := { s.status with fault := true } }

/-! ### The bus -/

/-- The byte addresses of the byte regions (R60). -/
def InByteRegion (p : Params) (a : Nat) : Prop :=
  (0x080 ≤ a ∧ a < 0x0A8) ∨ (0x0C0 ≤ a ∧ a < 0x100) ∨ (0x800 ≤ a ∧ a < 0x940) ∨
    (0x40000000 ≤ a ∧ a < 0x40000000 + p.pmax) ∨ (0x80000000 ≤ a ∧ a < 0x80000000 + p.emax)

/-- The byte addresses of the word regions (R60). -/
def InWordRegion (a : Nat) : Prop :=
  a < 0x04C ∨ (0x400 ≤ a ∧ a < 0x800) ∨ (0x2000 ≤ a ∧ a < 0x3FF0) ∨ (0x4000 ≤ a ∧ a < 0x8000)

/-- The accesses R67 (a) to (c) does not refuse: a byte of a byte region, or an aligned word of any. -/
def Addressable (p : Params) (a : Nat) : AccessSize → Prop
  | .byte => InByteRegion p a
  | .word => a % 4 = 0 ∧ (InByteRegion p a ∨ InWordRegion a)

/-- The byte addresses of what the host may write: CMD, PLEN, KEYIN, NONCEIN, FREQ, PMEM (R61). -/
def InWritable (p : Params) (a : Nat) : Prop :=
  a < 4 ∨ (0x014 ≤ a ∧ a < 0x018) ∨ (0x080 ≤ a ∧ a < 0x0A8) ∨ (0x400 ≤ a ∧ a < 0x800) ∨
    (0x40000000 ≤ a ∧ a < 0x40000000 + p.pmax)

/-! ### The leaf set -/

/-- The byte values that are leaves of the tree of a frequency table (R113): those with a count; the phantom
`b0 xor 1` where only `b0` has one; 0x00 and 0x01 where none has. -/
def IsLeafByte (freq : Table Word 256) (b : Byte) : Prop :=
  freqOf freq b ≠ 0 ∨
    (∃ b0, (∀ c, freqOf freq c ≠ 0 ↔ c = b0) ∧ b = b0 ^^^ 1) ∨
    ((∀ c, freqOf freq c = 0) ∧ (b = 0 ∨ b = 1))

/-! ### The arena -/

/-- WEIGHT of a record (R35). -/
def Node.weight : Node → Nat
  | .leaf _ w => w.toNat
  | .internal w _ _ => w.toNat

/-- The arena indices of a record's children, LEFT first; a leaf has none (R35). -/
def Node.children : Node → List Nat
  | .leaf _ _ => []
  | .internal _ l r => [l.toNat, r.toNat]

/-- BYTE of a leaf record. -/
def Node.byte? : Node → Option Byte
  | .leaf b _ => some b
  | .internal _ _ _ => none

/-- The records BUILD has not merged yet when it makes record `n`: they lie below `n` and are a child of
no record below `n` (R114). -/
def UnmergedAt (nodeAt : Nat → Node) (n j : Nat) : Prop :=
  j < n ∧ ∀ p < n, j ∉ (nodeAt p).children

/-- The priority order of R114 and R115: smaller weight first, ties by smaller index. -/
def Before (nodeAt : Nat → Node) (i j : Nat) : Prop :=
  (nodeAt i).weight < (nodeAt j).weight ∨ ((nodeAt i).weight = (nodeAt j).weight ∧ i < j)

/-- Record `n` is the merge R114 makes: LEFT is the least of the records not merged yet, RIGHT the least of
the others, WEIGHT the sum of theirs. -/
def MergesLeastTwo (nodeAt : Nat → Node) (n : Nat) : Prop :=
  ∃ w l r, nodeAt n = .internal w l r ∧
    w.toNat = (nodeAt l.toNat).weight + (nodeAt r.toNat).weight ∧
    UnmergedAt nodeAt n l.toNat ∧ UnmergedAt nodeAt n r.toNat ∧
    Before nodeAt l.toNat r.toNat ∧
    ∀ j, UnmergedAt nodeAt n j → j ≠ l.toNat → j ≠ r.toNat → Before nodeAt r.toNat j

/-- The record reached from record `i` along a sequence of branch bits, 0 to LEFT and 1 to RIGHT (R130);
none where the path goes through a leaf. -/
def follow (nodeAt : Nat → Node) : Nat → List Bool → Option Nat
  | i, [] => some i
  | i, c :: cs =>
    match nodeAt i with
    | .leaf _ _ => none
    | .internal _ l r => follow nodeAt (if c then r.toNat else l.toNat) cs

/-- What R29 and R36 say of the arena when TREE_V = 1. -/
structure State.ArenaOk (s : State) : Prop where
  leafCount : 2 ≤ s.nleaves.toNat ∧ s.nleaves.toNat ≤ 256
  nodeCount : s.nnodes.toNat = 2 * s.nleaves.toNat - 1
  rootLast : s.root.toNat = s.nnodes.toNat - 1
  leaves : ∀ i < s.nleaves.toNat, ∃ b w, s.nodeAt i = .leaf b w
  ascending : ∀ i j b c v w, i < j → j < s.nleaves.toNat →
    s.nodeAt i = .leaf b v → s.nodeAt j = .leaf c w → b < c
  internals : ∀ i, s.nleaves.toNat ≤ i → i < s.nnodes.toNat →
    ∃ w l r, s.nodeAt i = .internal w l r ∧ l.toNat < i ∧ r.toNat < i ∧ l ≠ r ∧
      w.toNat = (s.nodeAt l.toNat).weight + (s.nodeAt r.toNat).weight
  oneParent : ∀ i < s.root.toNat, ∃ p, p < s.nnodes.toNat ∧ i ∈ (s.nodeAt p).children ∧
    ∀ q < s.nnodes.toNat, i ∈ (s.nodeAt q).children → q = p
  unused : ∀ i < 511, s.nnodes.toNat ≤ i → s.nodeAt i = Node.zero
  /-- Every leaf record is reached from the root by exactly one bit path. -/
  reached : ∀ i < s.nleaves.toNat, ∃ c, follow s.nodeAt s.root.toNat c = some i ∧
    ∀ d, follow s.nodeAt s.root.toNat d = some i → d = c
  /-- The records reached from ROOT are a tree that DERIVE and SERIALIZE can walk. -/
  walks : ∃ t, s.tree? = some t

/-- What R37 and R38 say of the codebook: lengths from 1 to 255, and no code a prefix of another. -/
structure State.CodebookOk (s : State) : Prop where
  lengths : ∀ b c, codeOf s.cb b = some c → 1 ≤ c.length ∧ c.length ≤ 255
  prefixFree : ∀ b b' c c', codeOf s.cb b = some c → codeOf s.cb b' = some c' → b ≠ b' →
    ¬ c <+: c'

/-- A bus address of one of the three buffer memories (R39 to R41). -/
def InBuffers (p : Params) (a : Nat) : Prop :=
  (tmemBase ≤ a ∧ a < tmemBase + tmemSize) ∨ (pmemBase ≤ a ∧ a < pmemBase + p.pmax) ∨
    (ememBase ≤ a ∧ a < ememBase + p.emax)

/-- The invariant of the machine: the relations of R45 with those of R23, R24, R29, R32, R36 and R38, the
bounds of R9, and the one form of the buffer memories. -/
structure State.Inv (s : State) : Prop where
  params : s.cfg.Valid
  memForm : s.mem.wf
  memPlace : ∀ c ∈ s.mem, InBuffers s.cfg c.1
  encodedBytes : s.elen.toNat = ceil8 s.ebits.toNat
  treeBytes : s.tlen.toNat = ceil8 s.tbits.toNat
  encodedFits : s.elen.toNat ≤ s.cfg.emax
  treeFits : s.tlen.toNat ≤ tmemSize
  treeBits : s.tbits.toNat = 0 ∨ ∃ n, 2 ≤ n ∧ n ≤ 256 ∧ s.tbits.toNat = 10 * n - 1
  faultFlag : s.status.fault = true ↔ s.err ≠ 0
  errRange : s.err.toNat ≤ 5
  noError : s.err = 0 → s.errcmd = 0 ∧ s.errinfo = 0
  keystreamFlag : s.status.ksV = true → s.status.ciphV = true
  noKeystream : s.status.ksV = false → s.ksblk = Table.fill 64 0
  noEncoding : s.status.encV = false → s.ebits = 0 ∧ s.olen = 0
  noSerialized : s.status.serV = false → s.tbits = 0
  noTree : s.status.treeV = false →
    s.nnodes = 0 ∧ s.nleaves = 0 ∧ s.root = 0 ∧ s.node = Table.fill 511 Node.zero
  noCodebook : s.status.cbV = false → s.cb = Table.fill 256 none
  noCipher : s.status.ciphV = false →
    s.ctr = 0 ∧ s.key = Table.fill 32 0 ∧ s.nonce = Table.fill 8 0
  arena : s.status.treeV = true → s.ArenaOk
  codebook : s.CodebookOk

end Sys2Proof.Machine
end

