-- ==== Sys2Proof/Certificates/Slice0/Obligations.lean ====
section
/-!
DEFINITION. The statements for the provers. Each docstring names the rule of spec/ it formalises; the log
entries it names are notes/assumptions/<n>.md.
-/

open Sys2Proof Sys2Proof.Machine

/-! ### Encoding and dispatch -/

/-- R91, R92, R95: a word decodes to a command exactly when the command is legal and the word is its
encoding, so decoding and encoding are inverse to each other on the legal words. -/
def Obligations.DecodeIsInverseOfEncode : Prop :=
  ∀ (w : Word) (i : Instr), decode w = .command i ↔ WellFormed i ∧ encode i = w

/-- R95: exactly 12 of the 2^32 words are legal. -/
def Obligations.ExactlyTwelveWordsAreLegal : Prop :=
  ∀ w : Word, (∃ i, decode w = .command i) ↔
    w ∈ ([0x00000001, 0x00000002, 0x00000003, 0x00000004, 0x00000005, 0x00000006, 0x00000007,
      0x00000008, 0x00000009, 0x00000109, 0x00000209, 0x0000000A] : List Word)

/-- R92: the command words of the opcode map, written out bit by bit, decode to their commands. -/
def Obligations.CommandWordsDecode : Prop :=
  decode 0b00000000000000000000000000000001 = .command .clr ∧
  decode 0b00000000000000000000000000000010 = .command .count ∧
  decode 0b00000000000000000000000000000011 = .command .build ∧
  decode 0b00000000000000000000000000000100 = .command .derive ∧
  decode 0b00000000000000000000000000000101 = .command .encode ∧
  decode 0b00000000000000000000000000000110 = .command .serialize ∧
  decode 0b00000000000000000000000000000111 = .command .cinit ∧
  decode 0b00000000000000000000000000001000 = .command .nextblk ∧
  decode 0b00000000000000000000000000001001 = .command (.mask .pmem) ∧
  decode 0b00000000000000000000000100001001 = .command (.mask .tmem) ∧
  decode 0b00000000000000000000001000001001 = .command (.mask .emem) ∧
  decode 0b00000000000000000000000000001010 = .command .keygen

/-- R93, R214, R215: what a write of the word `w` to CMD does. In the FAULT state only exactly CLR is
executed and every other word is ignored; outside it the checks of the decoder come in their order and
each raises BadCommand with its detail; a legal word is executed. The bus response is ok in every case. -/
def Obligations.CommandWriteDispatches : Prop :=
  ∀ (s : State) (w : Word) (rest : List HostEvent), s.pending = .write 0 .word w :: rest →
    ∀ s1 : State, s1 = { s with pending := rest, resp := some ⟨true, 0⟩ } →
    (s.err ≠ 0 → w = 1 → step s = exec .clr s1) ∧
    (s.err ≠ 0 → w ≠ 1 → step s = .next s1) ∧
    (s.err = 0 → 1024 ≤ w.toNat → step s = .next (s1.afterError 5 w 1)) ∧
    (s.err = 0 → w.toNat < 1024 → (w.toNat % 256 = 0 ∨ 10 < w.toNat % 256) →
      step s = .next (s1.afterError 5 w 0)) ∧
    (s.err = 0 → w.toNat < 1024 → 1 ≤ w.toNat % 256 → w.toNat % 256 ≤ 10 → w.toNat % 256 ≠ 9 →
      256 ≤ w.toNat → step s = .next (s1.afterError 5 w 1)) ∧
    (s.err = 0 → w.toNat = 0x309 → step s = .next (s1.afterError 5 w 2)) ∧
    (s.err = 0 → ∀ i, WellFormed i → encode i = w → step s = exec i s1) ∧
    ∀ t, step s = .next t → t.resp = some ⟨true, 0⟩

/-- The step runs the decoded command: when the oldest pending event writes to CMD a word that decodes to
`i`, outside the FAULT state, the step is `exec i` on the state with that event taken and the response ok
given; and `withFetchWord` places such an event (log 4). -/
def Obligations.StepRunsDecodedCommand : Prop :=
  (∀ (s : State) (w : Word) (i : Instr) (rest : List HostEvent),
    s.pending = .write 0 .word w :: rest → s.err = 0 → decode w = .command i →
      step s = exec i { s with pending := rest, resp := some ⟨true, 0⟩ }) ∧
  ∀ (s : State) (w : Word) (i : Instr), s.err = 0 → decode w = .command i →
    step (s.withFetchWord 32 w.toNat) = exec i { s with resp := some ⟨true, 0⟩ }

/-! ### The host bus -/

/-- R241 and log 4: with no host event pending the block waits, in the state it is in. The idle step is the
model's own. -/
def Obligations.IdleStepWaits : Prop :=
  ∀ s : State, s.pending = [] → step s = .next s

/-- R62, R69: a read changes no state (but the model's own record of the transaction), in the FAULT state as
outside it. -/
def Obligations.ReadChangesNothing : Prop :=
  ∀ (s : State) (a : Word) (n : AccessSize) (rest : List HostEvent), s.pending = .read a n :: rest →
    step s = .next { s with pending := rest, resp := some (s.memRead a n) }

/-- R67, R61: an access is refused in exactly the listed cases; a refused read returns 0, and a refused
access changes nothing. A write that is accepted completes with ok, and one that is not a command always
completes. -/
def Obligations.RefusalIsExact : Prop :=
  ∀ s : State, s.cfg.Valid →
    (∀ (a : Word) (n : AccessSize) (rest : List HostEvent), s.pending = .read a n :: rest →
      (¬ Addressable s.cfg a.toNat n →
        step s = .next { s with pending := rest, resp := some ⟨false, 0⟩ }) ∧
      (Addressable s.cfg a.toNat n → ∃ t r, step s = .next t ∧ t.resp = some r ∧ r.ok = true)) ∧
    ∀ (a : Word) (n : AccessSize) (v : Word) (rest : List HostEvent),
      s.pending = .write a n v :: rest →
      (¬ (Addressable s.cfg a.toNat n ∧ InWritable s.cfg a.toNat) →
        step s = .next { s with pending := rest, resp := some ⟨false, 0⟩ }) ∧
      (Addressable s.cfg a.toNat n → InWritable s.cfg a.toNat →
        (∀ t, step s = .next t → t.resp = some ⟨true, 0⟩) ∧ (a.toNat ≠ 0 → GoesOn (step s)))

/-- R62, R64: a 4-byte read of a byte region is four byte reads at once, the lowest address in bits 7:0. -/
def Obligations.WordReadIsLittleEndian : Prop :=
  ∀ (s : State) (a : Word), s.cfg.Valid → InByteRegion s.cfg a.toNat → a.toNat % 4 = 0 →
    (s.memRead a .word).ok = true ∧
    (s.memRead a .word).data.toNat =
      (s.memRead a .byte).data.toNat + 2 ^ 8 * (s.memRead (a + 1) .byte).data.toNat +
        2 ^ 16 * (s.memRead (a + 2) .byte).data.toNat + 2 ^ 24 * (s.memRead (a + 3) .byte).data.toNat

/-- R63, R71: an accepted write of the host's other than a command is read back by the same access; an access
that does not overlap it reads what it read before; and no hidden state, product flag or error changes.
(STATUS, ERR and the other registers are among the locations read.) -/
def Obligations.HostWriteReadsBack : Prop :=
  ∀ (s : State) (a : Word) (n : AccessSize) (v : Word) (rest : List HostEvent), s.cfg.Valid →
    s.pending = .write a n v :: rest → Addressable s.cfg a.toNat n → InWritable s.cfg a.toNat →
    a.toNat ≠ 0 →
    ∃ t, step s = .next t ∧
      t.memRead a n = ⟨true, match n with | .byte => v &&& 0xFF | .word => v⟩ ∧
      (∀ (b : Word) (m : AccessSize),
        (b.toNat + m.bytes ≤ a.toNat ∨ a.toNat + n.bytes ≤ b.toNat) → t.memRead b m = s.memRead b m) ∧
      t = { s with
        plen := t.plen, keyin := t.keyin, noncein := t.noncein, freq := t.freq, mem := t.mem
        pending := rest, resp := some ⟨true, 0⟩ }

/-- R22 to R30, R60: what a 4-byte read of each CSR word returns. -/
def Obligations.CsrReadsReturnRegisters : Prop :=
  ∀ s : State,
    s.memRead 0x000 .word = ⟨true, 0⟩ ∧
    (∀ a ∈ ([0x004, 0x01C, 0x020, 0x03C, 0x040] : List Word), (s.memRead a .word).ok = true) ∧
    (∀ k : Nat, (s.memRead 0x004 .word).data.getLsbD k =
      match k with
      | 0 => s.status.treeV
      | 1 => s.status.cbV
      | 2 => s.status.serV
      | 3 => s.status.encV
      | 4 => s.status.ciphV
      | 5 => s.status.ksV
      | 7 => s.status.fault
      | _ => false) ∧
    ((s.memRead 0x008 .word).ok = true ∧ (s.memRead 0x008 .word).data.toNat = s.err.toNat) ∧
    s.memRead 0x00C .word = ⟨true, s.errcmd⟩ ∧
    s.memRead 0x010 .word = ⟨true, s.errinfo⟩ ∧
    s.memRead 0x014 .word = ⟨true, s.plen⟩ ∧
    s.memRead 0x018 .word = ⟨true, s.olen⟩ ∧
    ((s.memRead 0x01C .word).data.toNat + 2 ^ 32 * (s.memRead 0x020 .word).data.toNat = s.ebits.toNat) ∧
    s.memRead 0x024 .word = ⟨true, s.elen⟩ ∧
    s.memRead 0x028 .word = ⟨true, s.tbits⟩ ∧
    s.memRead 0x02C .word = ⟨true, s.tlen⟩ ∧
    s.memRead 0x030 .word = ⟨true, s.nnodes⟩ ∧
    s.memRead 0x034 .word = ⟨true, s.nleaves⟩ ∧
    s.memRead 0x038 .word = ⟨true, s.root⟩ ∧
    ((s.memRead 0x03C .word).data.toNat + 2 ^ 32 * (s.memRead 0x040 .word).data.toNat = s.ctr.toNat) ∧
    s.memRead 0x044 .word = ⟨true, BitVec.ofNat 32 s.cfg.pmax⟩ ∧
    s.memRead 0x048 .word = ⟨true, BitVec.ofNat 32 s.cfg.emax⟩

/-- R35: the four words of each NODE record as the host reads them. -/
def Obligations.NodeReadsReturnRecord : Prop :=
  ∀ (s : State) (i : Nat), i < 511 →
    ∀ word : Nat → BusResp, (∀ k, word k = s.memRead (BitVec.ofNat 32 (0x2000 + 16 * i + 4 * k)) .word) →
    (∀ k < 4, (word k).ok = true) ∧
    (∀ b w, s.nodeAt i = .leaf b w →
      (word 0).data.toNat = 2 ^ 31 + b.toNat ∧ (word 1).data = w ∧ (word 2).data = 0 ∧
        (word 3).data = 0) ∧
    (∀ w l r, s.nodeAt i = .internal w l r →
      (word 0).data = 0 ∧ (word 1).data = w ∧ (word 2).data.toNat = l.toNat + 2 ^ 16 * r.toNat ∧
        (word 3).data = 0)

/-- R37: the header and the CODE bytes of each CB record as the host reads them, and the zeros after them. -/
def Obligations.CodebookReadsReturnRecord : Prop :=
  ∀ (s : State) (b : Byte),
    ∀ word : Nat → BusResp,
      (∀ k, word k = s.memRead (BitVec.ofNat 32 (0x4000 + 64 * b.toNat + 4 * k)) .word) →
    (∀ k < 16, (word k).ok = true) ∧
    (codeOf s.cb b = none → ∀ k < 16, (word k).data = 0) ∧
    (∀ c, codeOf s.cb b = some c → c.length ≤ 255 →
      (word 0).data.toNat = 2 ^ 31 + c.length ∧
      (∀ j < 32, wordByte (word (1 + j / 4)).data (j % 4) = (pack c).getD j 0) ∧
      ∀ k, 9 ≤ k → k < 16 → (word k).data = 0)

/-- R34, R31, R32, R39 to R41: the tables and buffers at their addresses. -/
def Obligations.BufferReadsReturnBytes : Prop :=
  ∀ s : State, s.cfg.Valid →
    (∀ b : Byte, s.memRead (BitVec.ofNat 32 (0x400 + 4 * b.toNat)) .word =
      ⟨true, BitVec.ofNat 32 (freqOf s.freq b)⟩) ∧
    (∀ j < 32, s.memRead (BitVec.ofNat 32 (0x080 + j)) .byte = ⟨true, (s.keyin.getD j 0).setWidth 32⟩) ∧
    (∀ j < 8, s.memRead (BitVec.ofNat 32 (0x0A0 + j)) .byte = ⟨true, (s.noncein.getD j 0).setWidth 32⟩) ∧
    (∀ j < 64, s.memRead (BitVec.ofNat 32 (0x0C0 + j)) .byte = ⟨true, (s.ksblk.getD j 0).setWidth 32⟩) ∧
    (∀ j < 320, s.memRead (BitVec.ofNat 32 (0x800 + j)) .byte =
      ⟨true, (s.byteAt (0x800 + j)).setWidth 32⟩) ∧
    (∀ j < s.cfg.pmax, s.memRead (BitVec.ofNat 32 (0x40000000 + j)) .byte =
      ⟨true, (s.byteAt (0x40000000 + j)).setWidth 32⟩) ∧
    (∀ j < s.cfg.emax, s.memRead (BitVec.ofNat 32 (0x80000000 + j)) .byte =
      ⟨true, (s.byteAt (0x80000000 + j)).setWidth 32⟩)

/-- R33: no host address reads K or N: two states that differ in them alone answer every read alike. -/
def Obligations.HiddenKeyIsNotReadable : Prop :=
  ∀ (s : State) (k : Table Byte 32) (n : Table Byte 8) (a : Word) (m : AccessSize),
    ({ s with key := k, nonce := n } : State).memRead a m = s.memRead a m

/-! ### Reset and CLR -/

/-- R44, R241: the state after reset has every register, table and hidden item at zero, nothing written in
the buffer memories, and parameters within the bounds of R9. The empty `pending`, `resp` and `rng` are the
model's own (log 8). -/
def Obligations.ResetStateIsCleared : Prop :=
  State.reset.Cleared ∧ State.reset.mem = [] ∧ State.reset.cfg.Valid ∧ State.reset.pending = [] ∧
    State.reset.resp = none ∧ State.reset.rng = []

/-- R240, R44: the reset event, in any state, the FAULT state included. What stays outside the block and the
new epoch of free bytes are the model's own (log 2, log 6). -/
def Obligations.ResetEventClearsBlock : Prop :=
  ∀ (s : State) (rest : List HostEvent), s.pending = .reset :: rest →
    ∃ t, step s = .next t ∧ t.Cleared ∧ t.mem = [] ∧ t.cfg = s.cfg ∧ t.pending = rest ∧ t.resp = none ∧
      t.rng = s.rng ∧ t.draws = s.draws ∧ t.epoch = s.epoch + 1

/-- R191, R44: CLR zeroes every register, table and hidden item, leaves the FAULT state, and changes no byte
of the buffer memories and no parameter. It cannot fail, and it runs in the FAULT state too. -/
def Obligations.ClrClearsInvocation : Prop :=
  ∀ s : State,
    (∃ t, exec .clr s = .next t ∧ t.Cleared ∧ (∀ a, t.byteAt a = s.byteAt a) ∧
      t.mem = s.mem ∧ t.cfg = s.cfg ∧ t.pending = s.pending ∧ t.resp = s.resp ∧ t.rng = s.rng ∧
      t.draws = s.draws ∧ t.epoch = s.epoch) ∧
    ∀ rest, s.pending = .write 0 .word 0x00000001 :: rest →
      step s = exec .clr { s with pending := rest, resp := some ⟨true, 0⟩ }

/-! ### COUNT -/

/-- R111: COUNT overwrites all 256 entries of FREQ with the counts of the payload and changes nothing else;
with PLEN > PMAX it raises ResourceExhaustion(0). -/
def Obligations.CountCountsPayloadOrRaises : Prop :=
  ∀ s : State, s.cfg.Valid →
    (s.plen.toNat ≤ s.cfg.pmax →
      ∃ t, exec .count s = .next t ∧ t = { s with freq := t.freq } ∧
        ∀ b : Byte, freqOf t.freq b =
          ((List.range s.plen.toNat).filter fun i => s.byteAt (pmemBase + i) = b).length) ∧
    (s.cfg.pmax < s.plen.toNat → exec .count s = .next (s.afterError 4 0x00000002 0))

/-- R111: the sum of all entries after COUNT is PLEN. -/
def Obligations.CountsSumToPayloadLength : Prop :=
  ∀ s t : State, s.cfg.Valid → s.plen.toNat ≤ s.cfg.pmax → exec .count s = .next t →
    freqTotal t.freq = s.plen.toNat

/-! ### BUILD -/

/-- R113, R114, R115: BUILD makes one leaf record for each byte of the leaf set and no other, ascending, each
with its count; each further record merges the two least of the records not merged yet, ties by index, the
least to the left; it makes 2L - 1 records, the root last, zeroes the others, sets TREE_V and changes nothing
else. With counts that sum to more than 2^32 - 1 it raises ResourceExhaustion(1). -/
def Obligations.BuildMergesLeastTwoOrRaises : Prop :=
  ∀ s : State,
    (2 ^ 32 - 1 < freqTotal s.freq → exec .build s = .next (s.afterError 4 0x00000003 1)) ∧
    (freqTotal s.freq ≤ 2 ^ 32 - 1 → ∃ t, exec .build s = .next t ∧
      t = { s with
        node := t.node, nnodes := t.nnodes, nleaves := t.nleaves, root := t.root
        status := { s.status with treeV := true } } ∧
      2 ≤ t.nleaves.toNat ∧ t.nleaves.toNat ≤ 256 ∧
      t.nnodes.toNat = 2 * t.nleaves.toNat - 1 ∧ t.root.toNat = t.nnodes.toNat - 1 ∧
      (∀ b, IsLeafByte s.freq b ↔
        ∃ i < t.nleaves.toNat, t.nodeAt i = .leaf b (BitVec.ofNat 32 (freqOf s.freq b))) ∧
      (∀ i < t.nleaves.toNat, ∃ b, IsLeafByte s.freq b ∧
        t.nodeAt i = .leaf b (BitVec.ofNat 32 (freqOf s.freq b))) ∧
      (∀ i j b c v w, i < j → j < t.nleaves.toNat →
        t.nodeAt i = .leaf b v → t.nodeAt j = .leaf c w → b < c) ∧
      (∀ n, t.nleaves.toNat ≤ n → n < t.nnodes.toNat → MergesLeastTwo t.nodeAt n) ∧
      ∀ i < 511, t.nnodes.toNat ≤ i → t.nodeAt i = Node.zero)

/-- R36, R29: the arena BUILD leaves is a strict tree: leaves first and ascending, children below their
parent, every record but the root with exactly one parent, every leaf reached by exactly one path. -/
def Obligations.BuildLeavesStrictTree : Prop :=
  ∀ s : State, freqTotal s.freq ≤ 2 ^ 32 - 1 → ∃ t, exec .build s = .next t ∧ t.ArenaOk

/-- R118: no weight wraps: the weight of the root is the total of FREQ, and every weight is at most that. -/
def Obligations.RootWeightIsTotal : Prop :=
  ∀ s t : State, freqTotal s.freq ≤ 2 ^ 32 - 1 → exec .build s = .next t →
    (t.nodeAt t.root.toNat).weight = freqTotal s.freq ∧
    ∀ i < t.nnodes.toNat, (t.nodeAt i).weight ≤ freqTotal s.freq

/-- R116: BUILD is a function of FREQ and of nothing else, and so is the serialized tree. -/
def Obligations.BuildDependsOnlyOnFreq : Prop :=
  ∀ s s' : State, s.freq = s'.freq →
    (2 ^ 32 - 1 < freqTotal s.freq → exec .build s = .next (s.afterError 4 0x00000003 1) ∧
      exec .build s' = .next (s'.afterError 4 0x00000003 1)) ∧
    (freqTotal s.freq ≤ 2 ^ 32 - 1 → ∃ t t', exec .build s = .next t ∧ exec .build s' = .next t' ∧
      t.node = t'.node ∧ t.nnodes = t'.nnodes ∧ t.nleaves = t'.nleaves ∧ t.root = t'.root ∧
      t.status.treeV = t'.status.treeV ∧
      ∃ u u', exec .serialize t = .next u ∧ exec .serialize t' = .next u' ∧
        u.tbits = u'.tbits ∧ u.tlen = u'.tlen ∧
        u.bytesAt tmemBase u.tlen.toNat = u'.bytesAt tmemBase u'.tlen.toNat)

/-- R113, R119: with one present byte value the tree has two leaves; the phantom `b xor 1` of weight 0 is the
left child and the real byte the right child, in byte order in the arena. -/
def Obligations.SingleByteTreeHasPhantom : Prop :=
  ∀ (s : State) (b : Byte) (w : Word), (∀ c, freqOf s.freq c ≠ 0 ↔ c = b) →
    freqOf s.freq b = w.toNat →
    ∃ t, exec .build s = .next t ∧ t.nnodes = 3 ∧ t.nleaves = 2 ∧ t.root = 2 ∧
      if b.toNat % 2 = 0 then
        t.nodeAt 0 = .leaf b w ∧ t.nodeAt 1 = .leaf (b ^^^ 1) 0 ∧ t.nodeAt 2 = .internal w 1 0
      else
        t.nodeAt 0 = .leaf (b ^^^ 1) 0 ∧ t.nodeAt 1 = .leaf b w ∧ t.nodeAt 2 = .internal w 0 1

/-- R113, R119: with no count at all the tree has the two phantom leaves 0x00 and 0x01. -/
def Obligations.EmptyTableTreeIsMinimal : Prop :=
  ∀ s : State, (∀ c, freqOf s.freq c = 0) →
    ∃ t, exec .build s = .next t ∧ t.nnodes = 3 ∧ t.nleaves = 2 ∧ t.root = 2 ∧
      t.nodeAt 0 = .leaf 0x00 0 ∧ t.nodeAt 1 = .leaf 0x01 0 ∧ t.nodeAt 2 = .internal 0 0 1

/-! ### DERIVE -/

/-- R130, R131: DERIVE gives byte `b` the code `c` exactly where the path `c` from ROOT, 0 left and 1 right,
ends at a leaf of byte `b`; it rewrites all of CB, sets CB_V and changes nothing else. With TREE_V = 0 it
raises InvalidInput(0). (R36: with TREE_V = 1 the arena is well formed.) -/
def Obligations.DeriveGivesPathCodesOrRaises : Prop :=
  ∀ s : State,
    (s.status.treeV = false → exec .derive s = .next (s.afterError 1 0x00000004 0)) ∧
    (s.status.treeV = true → s.ArenaOk →
      ∃ t, exec .derive s = .next t ∧
        t = { s with cb := t.cb, status := { s.status with cbV := true } } ∧
        ∀ b c, codeOf t.cb b = some c ↔
          ∃ i w, follow s.nodeAt s.root.toNat c = some i ∧ s.nodeAt i = .leaf b w)

/-- R38, R132, R133: after DERIVE exactly the leaf bytes have a code, every code has 1 to 255 bits, and no
code is a prefix of another. -/
def Obligations.DerivedCodesArePrefixFree : Prop :=
  ∀ s t : State, s.status.treeV = true → s.ArenaOk → exec .derive s = .next t →
    (∀ b, codeOf t.cb b ≠ none ↔ ∃ i < s.nleaves.toNat, ∃ w, s.nodeAt i = .leaf b w) ∧
    (∀ b c, codeOf t.cb b = some c → 1 ≤ c.length ∧ c.length ≤ 255) ∧
    ∀ b b' c c', codeOf t.cb b = some c → codeOf t.cb b' = some c' → b ≠ b' → ¬ c <+: c'

/-! ### ENCODE -/

/-- R141, with R140 and R142: ENCODE stores the codes of the payload bytes in order, packed, in EMEM from its
first byte on, and their exact bit length, byte length and payload length; no other byte and no other item
changes. Its three errors, in their order: PLEN > PMAX; else the first payload byte without a codebook entry,
by its index; else an output that would not fit EMEM. -/
def Obligations.EncodePacksCodesOrRaises : Prop :=
  ∀ (s : State) (code : Nat → Option (List Bool)) (bits : List Bool), s.cfg.Valid →
    (∀ i, code i = codeOf s.cb (s.byteAt (pmemBase + i))) →
    bits = ((List.range s.plen.toNat).map fun i => (code i).getD []).flatten →
    (s.cfg.pmax < s.plen.toNat → exec .encode s = .next (s.afterError 4 0x00000005 0)) ∧
    (∀ i, s.plen.toNat ≤ s.cfg.pmax → i < s.plen.toNat → code i = none → (∀ j < i, code j ≠ none) →
      exec .encode s = .next (s.afterError 2 0x00000005 (BitVec.ofNat 32 i))) ∧
    (s.plen.toNat ≤ s.cfg.pmax → (∀ i < s.plen.toNat, code i ≠ none) → s.cfg.emax < ceil8 bits.length →
      exec .encode s = .next (s.afterError 4 0x00000005 2)) ∧
    (s.plen.toNat ≤ s.cfg.pmax → (∀ i < s.plen.toNat, code i ≠ none) → ceil8 bits.length ≤ s.cfg.emax →
      ∃ t, exec .encode s = .next t ∧
        t = { s with
          mem := t.mem, ebits := t.ebits, elen := t.elen, olen := s.plen
          status := { s.status with encV := true } } ∧
        t.ebits.toNat = bits.length ∧ t.elen.toNat = ceil8 bits.length ∧
        t.bytesAt ememBase (ceil8 bits.length) = pack bits ∧
        ∀ a, (a < ememBase ∨ ememBase + ceil8 bits.length ≤ a) → t.byteAt a = s.byteAt a)

/-- R17: `le32` and `le64` weigh their bytes by powers of 2^8, the first least significant, and `le32bytes` and
`le64bytes` are their inverses. -/
def Obligations.LittleEndianBytes : Prop :=
  (∀ b0 b1 b2 b3 : Byte,
    (le32 b0 b1 b2 b3).toNat =
      b0.toNat + 2 ^ 8 * b1.toNat + 2 ^ 16 * b2.toNat + 2 ^ 24 * b3.toNat ∧
    le32bytes (le32 b0 b1 b2 b3) = [b0, b1, b2, b3]) ∧
  (∀ w : Word, ∃ b0 b1 b2 b3, le32bytes w = [b0, b1, b2, b3] ∧ le32 b0 b1 b2 b3 = w) ∧
  (∀ b0 b1 b2 b3 b4 b5 b6 b7 : Byte,
    (le64 b0 b1 b2 b3 b4 b5 b6 b7).toNat =
      b0.toNat + 2 ^ 8 * b1.toNat + 2 ^ 16 * b2.toNat + 2 ^ 24 * b3.toNat +
        2 ^ 32 * b4.toNat + 2 ^ 40 * b5.toNat + 2 ^ 48 * b6.toNat + 2 ^ 56 * b7.toNat ∧
    le64bytes (le64 b0 b1 b2 b3 b4 b5 b6 b7) = [b0, b1, b2, b3, b4, b5, b6, b7]) ∧
  ∀ d : DWord, ∃ b0 b1 b2 b3 b4 b5 b6 b7,
    le64bytes d = [b0, b1, b2, b3, b4, b5, b6, b7] ∧ le64 b0 b1 b2 b3 b4 b5 b6 b7 = d

/-- R14: `pack` places bit number i at byte i div 8, bit 7 - i mod 8, fills the rest with zeros and uses
ceil8 bytes; `unpack` reads the first bits of a byte list in the same order and is its inverse. -/
def Obligations.PackPlacesBits : Prop :=
  (∀ s : List Bool, (pack s).length = ceil8 s.length ∧
    (∀ j k, j < ceil8 s.length → k < 8 →
      ((pack s).getD j 0).getLsbD (7 - k) = s.getD (8 * j + k) false) ∧
    unpack (pack s) s.length = s) ∧
  (∀ (bs : List Byte) (n : Nat), n ≤ 8 * bs.length → (unpack bs n).length = n ∧
    ∀ i < n, (unpack bs n).getD i false = (bs.getD (i / 8) 0).getLsbD (7 - i % 8)) ∧
  pack [false, true, true, false, true, true, true, false, true] = [0x6E, 0x80]

/-- R144: the codes of the payload that FREQ was counted from never take more than 8 bits a byte: from a state
with a payload of at most PMAX bytes, COUNT, BUILD, DERIVE and ENCODE go on and leave EBITS at most 8 times
PLEN, ELEN at most PLEN, and no new error. -/
def Obligations.EncodedPayloadNeverGrows : Prop :=
  ∀ s : State, s.cfg.Valid → s.plen.toNat ≤ s.cfg.pmax →
    ∃ s1 s2 s3 s4, exec .count s = .next s1 ∧ exec .build s1 = .next s2 ∧
      exec .derive s2 = .next s3 ∧ exec .encode s3 = .next s4 ∧ s4.err = s.err ∧
      s4.ebits.toNat ≤ 8 * s.plen.toNat ∧ s4.elen.toNat ≤ s.plen.toNat

/-! ### SERIALIZE -/

/-- R150, R151: SERIALIZE stores the packed bit form of the tree in TMEM from its first byte on, with its
lengths; no other byte and no other item changes. `ser` is the bit form by the two equations of R150. With
TREE_V = 0 it raises InvalidInput(0). -/
def Obligations.SerializeEmitsPreorderOrRaises : Prop :=
  ∀ s : State,
    (s.status.treeV = false → exec .serialize s = .next (s.afterError 1 0x00000006 0)) ∧
    (s.status.treeV = true → s.ArenaOk → ∃ (t : State) (ser : Nat → List Bool),
      (∀ i < s.nnodes.toNat, ∀ b w, s.nodeAt i = .leaf b w → ser i = true :: bits8 b) ∧
      (∀ i < s.nnodes.toNat, ∀ w l r, s.nodeAt i = .internal w l r →
        ser i = false :: (ser l.toNat ++ ser r.toNat)) ∧
      exec .serialize s = .next t ∧
      t = { s with
        mem := t.mem, tbits := t.tbits, tlen := t.tlen
        status := { s.status with serV := true } } ∧
      t.tbits.toNat = (ser s.root.toNat).length ∧
      t.tlen.toNat = ceil8 (ser s.root.toNat).length ∧
      t.bytesAt tmemBase t.tlen.toNat = pack (ser s.root.toNat) ∧
      t.tlen.toNat ≤ tmemSize ∧
      ∀ a, (a < tmemBase ∨ tmemBase + t.tlen.toNat ≤ a) → t.byteAt a = s.byteAt a)

/-- R152: the serialized tree has 10 L - 1 bits and fits TMEM. -/
def Obligations.SerializedSizeLaw : Prop :=
  ∀ s t : State, s.status.treeV = true → s.ArenaOk → exec .serialize s = .next t →
    t.tbits.toNat = 10 * s.nleaves.toNat - 1 ∧
    t.tlen.toNat = ceil8 (10 * s.nleaves.toNat - 1) ∧ t.tlen.toNat ≤ tmemSize

/-- R153, R201: one forward pass over the bytes SERIALIZE left reads back the tree that the arena holds and
consumes exactly TBITS bits. -/
def Obligations.SerializedTreeReadsBack : Prop :=
  ∀ s t : State, s.status.treeV = true → s.ArenaOk → exec .serialize s = .next t →
    ∃ tree, s.tree? = some tree ∧
      deserialize (t.bytesAt tmemBase t.tlen.toNat) = some (tree, t.tbits.toNat)

/-- R204: the Huffman round trip. From a state with a payload `p` of at most PMAX bytes loaded, COUNT, BUILD,
DERIVE, ENCODE and SERIALIZE raise no error, and the decoder recovers `p`. Nothing is asked of EMAX but the
bound of R9 (`Params.Valid`): the codes always fit (R144). -/
def Obligations.HuffmanRoundTrip : Prop :=
  ∀ (s : State) (p : List Byte), s.cfg.Valid → s.err = 0 → p.length = s.plen.toNat →
    (∀ i < p.length, s.byteAt (pmemBase + i) = p.getD i 0) → p.length ≤ s.cfg.pmax →
    ∃ s1 s2 s3 s4 s5, exec .count s = .next s1 ∧ exec .build s1 = .next s2 ∧
      exec .derive s2 = .next s3 ∧ exec .encode s3 = .next s4 ∧ exec .serialize s4 = .next s5 ∧
      s5.err = 0 ∧
      ∃ tree, deserialize (s5.bytesAt tmemBase s5.tlen.toNat) = some (tree, s5.tbits.toNat) ∧
        decodeBits tree (s5.bytesAt ememBase s5.elen.toNat) s5.ebits.toNat s5.olen.toNat = some p

/-! ### The cipher -/

/-- R161: the quarter-round's four equations and the three examples. -/
def Obligations.QuarterroundFollowsEquations : Prop :=
  (∀ y0 y1 y2 y3 z0 z1 z2 z3 : Word, quarterround y0 y1 y2 y3 = (z0, z1, z2, z3) ↔
    z1 = y1 ^^^ (y0 + y3).rotateLeft 7 ∧ z2 = y2 ^^^ (z1 + y0).rotateLeft 9 ∧
    z3 = y3 ^^^ (z2 + z1).rotateLeft 13 ∧ z0 = y0 ^^^ (z3 + z2).rotateLeft 18) ∧
  quarterround 1 0 0 0 = (0x08008145, 0x00000080, 0x00010200, 0x20500000) ∧
  quarterround 0 1 0 0 = (0x88000100, 0x00000001, 0x00000200, 0x00402000) ∧
  quarterround 0 0 0 0 = (0, 0, 0, 0)

/-- R162, R163, R164: the column-round and the row-round are four quarter-rounds each on the words the rule
names; the core adds ten double-rounds, the column-round first, to its input word by word; and the block is
the core's output words, least significant byte first, on the sixteen input words of the rule for every key
`k`, nonce `n` and counter `c`. -/
def Obligations.SalsaBlockFollowsEquations : Prop :=
  (∀ x : Vector Word 16, let y := columnround x
    (y[0], y[4], y[8], y[12]) = quarterround x[0] x[4] x[8] x[12] ∧
    (y[5], y[9], y[13], y[1]) = quarterround x[5] x[9] x[13] x[1] ∧
    (y[10], y[14], y[2], y[6]) = quarterround x[10] x[14] x[2] x[6] ∧
    (y[15], y[3], y[7], y[11]) = quarterround x[15] x[3] x[7] x[11]) ∧
  (∀ y : Vector Word 16, let z := rowround y
    (z[0], z[1], z[2], z[3]) = quarterround y[0] y[1] y[2] y[3] ∧
    (z[5], z[6], z[7], z[4]) = quarterround y[5] y[6] y[7] y[4] ∧
    (z[10], z[11], z[8], z[9]) = quarterround y[10] y[11] y[8] y[9] ∧
    (z[15], z[12], z[13], z[14]) = quarterround y[15] y[12] y[13] y[14]) ∧
  (∀ x : Vector Word 16, doubleround x = rowround (columnround x)) ∧
  (∀ (x : Vector Word 16) (i : Nat) (h : i < 16),
    (salsa20core x)[i] = x[i] + (doubleround^[10] x)[i]) ∧
  ∀ (k : Table Byte 32) (n : Table Byte 8) (c : DWord),
    (∀ i (h : i < 16), (salsa20input k n c)[i] =
      match i with
      | 0 => 0x61707865
      | 1 => le32 (k.getD 0 0) (k.getD 1 0) (k.getD 2 0) (k.getD 3 0)
      | 2 => le32 (k.getD 4 0) (k.getD 5 0) (k.getD 6 0) (k.getD 7 0)
      | 3 => le32 (k.getD 8 0) (k.getD 9 0) (k.getD 10 0) (k.getD 11 0)
      | 4 => le32 (k.getD 12 0) (k.getD 13 0) (k.getD 14 0) (k.getD 15 0)
      | 5 => 0x3320646E
      | 6 => le32 (n.getD 0 0) (n.getD 1 0) (n.getD 2 0) (n.getD 3 0)
      | 7 => le32 (n.getD 4 0) (n.getD 5 0) (n.getD 6 0) (n.getD 7 0)
      | 8 => BitVec.ofNat 32 (c.toNat % 2 ^ 32)
      | 9 => BitVec.ofNat 32 (c.toNat / 2 ^ 32)
      | 10 => 0x79622D32
      | 11 => le32 (k.getD 16 0) (k.getD 17 0) (k.getD 18 0) (k.getD 19 0)
      | 12 => le32 (k.getD 20 0) (k.getD 21 0) (k.getD 22 0) (k.getD 23 0)
      | 13 => le32 (k.getD 24 0) (k.getD 25 0) (k.getD 26 0) (k.getD 27 0)
      | 14 => le32 (k.getD 28 0) (k.getD 29 0) (k.getD 30 0) (k.getD 31 0)
      | _ => 0x6B206574) ∧
    (salsa20block k n c).cells =
      ((salsa20core (salsa20input k n c)).toList.map le32bytes).flatten ∧
    ∀ j (h : j < 64), (salsa20block k n c).getD j 0 =
      wordByte ((salsa20core (salsa20input k n c))[j / 4]) (j % 4)

/-- R164, vectors V42 and V43: the block of key 80 00 ... 00, nonce zero and counter 0 begins as the rule prints,
and the block of the key 1 to 16, 201 to 216, the nonce 101 to 108 and the counter of the bytes 109 to 116,
which has no two input words alike, is the published one. -/
def Obligations.SalsaBlockMatchesExample : Prop :=
  (salsa20block (Table.ofFn fun j => BitVec.ofNat 8 (if j.val < 16 then j.val + 1 else j.val + 185))
    (Table.ofFn fun j => BitVec.ofNat 8 (j.val + 101)) 0x74737271706F6E6D).cells =
    [0x45, 0x25, 0x44, 0x27, 0x29, 0x0F, 0x6B, 0xC1, 0xFF, 0x8B, 0x7A, 0x06, 0xAA, 0xE9, 0xD9, 0x62,
      0x59, 0x90, 0xB6, 0x6A, 0x15, 0x33, 0xC8, 0x41, 0xEF, 0x31, 0xDE, 0x22, 0xD7, 0x72, 0x28, 0x7E,
      0x68, 0xC5, 0x07, 0xE1, 0xC5, 0x99, 0x1F, 0x02, 0x66, 0x4E, 0x4C, 0xB0, 0x54, 0xF5, 0xF6, 0xB8,
      0xB1, 0xA0, 0x85, 0x82, 0x06, 0x48, 0x95, 0x77, 0xC0, 0xC3, 0x84, 0xEC, 0xEA, 0x67, 0xF6, 0x4A] ∧
  (salsa20block ((Table.fill 32 0).setNat 0 0x80) (Table.fill 8 0) 0).cells.take 8 =
    [0xE3, 0xBE, 0x8F, 0xDD, 0x8B, 0xEC, 0xA2, 0xE3]

/-- R165: CINIT copies the key and nonce, zeroes the counter and KSBLK, sets CIPH_V and clears KS_V, changes
nothing else, and cannot fail. -/
def Obligations.CinitLoadsCipherState : Prop :=
  ∀ s : State, ∃ t, exec .cinit s = .next t ∧
    t = { s with
      key := t.key, nonce := t.nonce, ctr := 0, ksblk := t.ksblk
      status := { s.status with ciphV := true, ksV := false } } ∧
    (∀ j < 32, t.key.getD j 0 = s.keyin.getD j 0) ∧
    (∀ j < 8, t.nonce.getD j 0 = s.noncein.getD j 0) ∧ ∀ j < 64, t.ksblk.getD j 0 = 0

/-- R166: NEXTBLK stores the block numbered CTR in KSBLK, adds 1 to CTR, sets KS_V and changes nothing
else. Its errors, in their order: no cipher state; the last counter value. -/
def Obligations.NextblkGeneratesBlockOrRaises : Prop :=
  ∀ s : State,
    (s.status.ciphV = false → exec .nextblk s = .next (s.afterError 5 0x00000008 3)) ∧
    (s.status.ciphV = true → s.ctr.toNat = 2 ^ 64 - 1 →
      exec .nextblk s = .next (s.afterError 4 0x00000008 3)) ∧
    (s.status.ciphV = true → s.ctr.toNat < 2 ^ 64 - 1 →
      ∃ t, exec .nextblk s = .next t ∧ t.ctr.toNat = s.ctr.toNat + 1 ∧
        t = { s with
          ksblk := salsa20block s.key s.nonce s.ctr, ctr := t.ctr
          status := { s.status with ksV := true } })

/-! ### MASK -/

/-- R181, with R182 and R94: MASK XORs byte i of the selected buffer with byte i mod 64 of block
CTR + i div 64, for every i below the buffer's length; it uses up ceil(len / 64) blocks, leaves the last in
KSBLK, and changes no other byte and no other item. With length 0 it changes nothing. Its errors, in their
order: no cipher state; else, for MASK PMEM, PLEN > PMAX; else the counter range. -/
def Obligations.MaskXorsKeystreamOrRaises : Prop :=
  ∀ (s : State) (buf : BufSel) (w : Word) (base len : Nat),
    (buf, w, base, len) ∈ [(BufSel.pmem, (0x00000009 : Word), 0x40000000, s.plen.toNat),
      (BufSel.tmem, (0x00000109 : Word), 0x800, s.tlen.toNat),
      (BufSel.emem, (0x00000209 : Word), 0x80000000, s.elen.toNat)] →
    (s.status.ciphV = false → exec (.mask buf) s = .next (s.afterError 5 w 3)) ∧
    (s.status.ciphV = true → buf = .pmem → s.cfg.pmax < s.plen.toNat →
      exec (.mask buf) s = .next (s.afterError 4 w 0)) ∧
    (s.status.ciphV = true → (buf = .pmem → s.plen.toNat ≤ s.cfg.pmax) →
      2 ^ 64 - 1 < s.ctr.toNat + (len + 63) / 64 →
      exec (.mask buf) s = .next (s.afterError 4 w 3)) ∧
    (s.status.ciphV = true → (buf = .pmem → s.plen.toNat ≤ s.cfg.pmax) →
      s.ctr.toNat + (len + 63) / 64 ≤ 2 ^ 64 - 1 →
      ∃ t, exec (.mask buf) s = .next t ∧
        t = { s with mem := t.mem, ksblk := t.ksblk, ctr := t.ctr, status := t.status } ∧
        t.ctr.toNat = s.ctr.toNat + (len + 63) / 64 ∧
        (∀ i < len, t.byteAt (base + i) = s.byteAt (base + i) ^^^
          (salsa20block s.key s.nonce (s.ctr + BitVec.ofNat 64 (i / 64))).getD (i % 64) 0) ∧
        (∀ a, (a < base ∨ base + len ≤ a) → t.byteAt a = s.byteAt a) ∧
        (len = 0 → t.ksblk = s.ksblk ∧ t.status = s.status) ∧
        (0 < len → t.ksblk =
            salsa20block s.key s.nonce (s.ctr + BitVec.ofNat 64 ((len + 63) / 64 - 1)) ∧
          t.status = { s.status with ksV := true }))

/-- R94, R93 and log 12: MASK with the reserved selector raises BadCommand(2). No step hands it to `exec`; its
meaning there is the model's. -/
def Obligations.MaskReservedRaises : Prop :=
  ∀ s : State, exec (.mask .reserved) s = .next (s.afterError 5 0x00000309 2)

/-- R184: CINIT, MASK X, CINIT, MASK X leaves every byte of the buffers as it was. -/
def Obligations.MaskTwiceRestoresBuffer : Prop :=
  ∀ (s : State) (buf : BufSel), WellFormed (.mask buf) →
    (buf = .pmem → s.plen.toNat ≤ s.cfg.pmax) →
    ∃ s1 s2 s3 s4, exec .cinit s = .next s1 ∧ exec (.mask buf) s1 = .next s2 ∧
      exec .cinit s2 = .next s3 ∧ exec (.mask buf) s3 = .next s4 ∧ s4.err = s.err ∧
      ∀ a, s4.byteAt a = s.byteAt a

/-! ### KEYGEN -/

/-- R193: KEYGEN stores the first 32 bytes of the answer in KEYIN and the last 8 in NONCEIN and changes nothing
else of the block; where the service fails it raises RandomnessUnavailable(0). The answer is a free input, and
`rng` and `draws`, which record the draw, are the model's own (log 3). -/
def Obligations.KeygenStoresAnswerOrRaises : Prop :=
  ∀ s : State,
    (∀ r : Table Byte 40, s.rngAnswer = .bytes r →
      ∃ t, exec .keygen s = .next t ∧
        t = { s with
          keyin := t.keyin, noncein := t.noncein, rng := s.rng.tail, draws := s.draws + 1 } ∧
        (∀ j < 32, t.keyin.getD j 0 = r.getD j 0) ∧ ∀ j < 8, t.noncein.getD j 0 = r.getD (32 + j) 0) ∧
    (s.rngAnswer = .fail →
      exec .keygen s = .next
        { s.afterError 3 0x0000000A 0 with rng := s.rng.tail, draws := s.draws + 1 })

/-! ### The whole machine -/

/-- R16, R213: errors are precise. A command that ends with an error has changed ERR, ERRCMD, ERRINFO and FAULT
alone (and, for KEYGEN, used up an answer of the randomness service, which is outside the block). -/
def Obligations.ErrorsArePrecise : Prop :=
  ∀ (i : Instr) (s t : State), s.err = 0 → exec i s = .next t → t.err ≠ 0 →
    t = { s.afterError t.err (encode i) t.errinfo with rng := t.rng, draws := t.draws } ∧
    (i ≠ .keygen → t.rng = s.rng ∧ t.draws = s.draws)

/-- R214, R216, R61: the only ways out of the FAULT state are CLR and reset; any other step leaves ERR, ERRCMD,
ERRINFO and FAULT and every product, TMEM and EMEM among them, as they are; a step that serves no host write
but one to CMD leaves the whole block as it is. -/
def Obligations.OnlyClrAndResetLeaveFault : Prop :=
  ∀ s t : State, s.err ≠ 0 → step s = .next t →
    s.pending.head? = some (.write 0 .word 1) ∨ s.pending.head? = some .reset ∨
    (t = { s with
        plen := t.plen, keyin := t.keyin, noncein := t.noncein, freq := t.freq, mem := t.mem
        pending := t.pending, resp := t.resp } ∧
      (∀ a, (a < pmemBase ∨ pmemBase + s.cfg.pmax ≤ a) → t.byteAt a = s.byteAt a) ∧
      ((∀ a n v, s.pending.head? = some (.write a n v) → a = 0) →
        t = { s with pending := t.pending, resp := t.resp }))

/-- R30, R167: no command but CLR and CINIT ever lowers CTR, and only NEXTBLK and MASK raise it. -/
def Obligations.CounterIsNeverRewound : Prop :=
  ∀ (i : Instr) (s t : State), exec i s = .next t → i ≠ .clr → i ≠ .cinit →
    s.ctr.toNat ≤ t.ctr.toNat ∧ (i ≠ .nextblk → (∀ b, i ≠ .mask b) → t.ctr = s.ctr)

/-- R23: which command sets and clears which product flag. -/
def Obligations.FlagsAreSetByTheirCommand : Prop :=
  ∀ (i : Instr) (s t : State), exec i s = .next t →
    (t.status.treeV ≠ s.status.treeV → i = .clr ∨ (i = .build ∧ t.status.treeV = true)) ∧
    (t.status.cbV ≠ s.status.cbV → i = .clr ∨ (i = .derive ∧ t.status.cbV = true)) ∧
    (t.status.serV ≠ s.status.serV → i = .clr ∨ (i = .serialize ∧ t.status.serV = true)) ∧
    (t.status.encV ≠ s.status.encV → i = .clr ∨ (i = .encode ∧ t.status.encV = true)) ∧
    (t.status.ciphV ≠ s.status.ciphV → i = .clr ∨ (i = .cinit ∧ t.status.ciphV = true)) ∧
    (t.status.ksV ≠ s.status.ksV → i = .clr ∨ i = .cinit ∨
      ((i = .nextblk ∨ ∃ b, i = .mask b) ∧ t.status.ksV = true))

/-- R69: CLR, COUNT, BUILD, DERIVE, ENCODE, SERIALIZE and CINIT leave the same state when they are repeated
with unchanged inputs. -/
def Obligations.RepeatedCommandChangesNothing : Prop :=
  ∀ (i : Instr) (s t : State), i ∉ ([.nextblk, .keygen] : List Instr) → (∀ b, i ≠ .mask b) → s.cfg.Valid →
    exec i s = .next t → exec i t = .next t

/-- R42: no flag, no error and no register but KSBLK and the masked bytes depends on a keystream byte: two
states that differ only in K and N go on alike in all but those. -/
def Obligations.KeystreamDoesNotSteer : Prop :=
  ∀ (i : Instr) (s t : State) (k : Table Byte 32) (n : Table Byte 8), exec i s = .next t →
    ∃ t', exec i { s with key := k, nonce := n } = .next t' ∧
      t' = { t with mem := t'.mem, ksblk := t'.ksblk, key := t'.key, nonce := t'.nonce } ∧
      ((∀ b, i ≠ .mask b) → t'.mem = t.mem) ∧
      ∀ b base, i = .mask b → maskBase b = some base →
        ∀ a, (a < base ∨ base + s.maskLength b ≤ a) → t'.byteAt a = t.byteAt a

/-- The invariant holds after reset (R44, R45). -/
def Obligations.ResetMeetsInvariant : Prop := State.reset.Inv

/-- Every step keeps the invariant: the relations of R45, the arena of R36, the codebook of R38, and the form
and place of the buffer memories. -/
def Obligations.StepKeepsInvariant : Prop :=
  ∀ s t : State, s.Inv → step s = .next t → t.Inv

/-- R218, U10: from a state that meets the invariant no step stops: neither a fault nor a refusal. -/
def Obligations.InvariantStepGoesOn : Prop := ∀ s : State, s.Inv → GoesOn (step s)

/-- R205: the whole-pipeline round trip. From a state with a payload `p` of at most PMAX bytes loaded and any key
and nonce in KEYIN and NONCEIN (where SETKEY puts them), the commands of PIPELINE with CINIT for KEYGEN; CINIT
raise no error, and the decoding collaborator recovers `p` from the bundle. -/
def Obligations.PipelineRoundTrip : Prop :=
  ∀ (s : State) (p : List Byte), s.cfg.Valid → s.err = 0 → p.length = s.plen.toNat →
    (∀ i < p.length, s.byteAt (pmemBase + i) = p.getD i 0) → p.length ≤ s.cfg.pmax →
    ∃ s1 s2 s3 s4 s5 s6 s7 s8, exec .count s = .next s1 ∧ exec .build s1 = .next s2 ∧
      exec .serialize s2 = .next s3 ∧ exec .derive s3 = .next s4 ∧ exec .encode s4 = .next s5 ∧
      exec .cinit s5 = .next s6 ∧ exec (.mask .tmem) s6 = .next s7 ∧
      exec (.mask .emem) s7 = .next s8 ∧ s8.err = 0 ∧
      decodeBundle s.keyin s.noncein (s8.bytesAt tmemBase s8.tlen.toNat)
        (s8.bytesAt ememBase s8.elen.toNat) s8.ebits.toNat s8.olen.toNat = some p
end

