-- ==== Sys2Proof/Laws/Bits.lean ====
section
/-! SUPPORT. Lemmas of bit sequences, packing and byte order (spec/00_scope.md R11 to R17). -/

namespace Sys2Proof.Laws

open Sys2Proof.Machine

theorem length_bits8 (b : Byte) : (bits8 b).length = 8 := rfl

/-- Bit `7 - k` of the byte of a sequence is bit `k` of the sequence. -/
theorem getLsbD_byteOfBits (s : List Bool) {k : Nat} (h : k < 8) :
    (byteOfBits s).getLsbD (7 - k) = s.getD k false := by
  have key : ∀ c0 c1 c2 c3 c4 c5 c6 c7 : Bool, ∀ k < 8,
      (((bitByte c0 <<< 7) ||| (bitByte c1 <<< 6) ||| (bitByte c2 <<< 5) ||| (bitByte c3 <<< 4) |||
        (bitByte c4 <<< 3) ||| (bitByte c5 <<< 2) ||| (bitByte c6 <<< 1) ||| bitByte c7 : Byte)).getLsbD
        (7 - k) = [c0, c1, c2, c3, c4, c5, c6, c7].getD k false := by decide
  rw [byteOfBits, key _ _ _ _ _ _ _ _ k h]
  have : k = 0 ∨ k = 1 ∨ k = 2 ∨ k = 3 ∨ k = 4 ∨ k = 5 ∨ k = 6 ∨ k = 7 := by omega
  rcases this with rfl | rfl | rfl | rfl | rfl | rfl | rfl | rfl <;> rfl

/-- The byte of eight bits gives the bits back. -/
theorem bits8_byteOfBits (s : List Bool) (h : s.length = 8) : bits8 (byteOfBits s) = s := by
  match s, h with
  | [c0, c1, c2, c3, c4, c5, c6, c7], _ =>
    cases c0 <;> cases c1 <;> cases c2 <;> cases c3 <;> cases c4 <;> cases c5 <;> cases c6 <;>
      cases c7 <;> rfl

theorem byteOfBits_bits8 (b : Byte) : byteOfBits (bits8 b) = b := by
  revert b; decide

theorem byteOfBits_append (s t : List Bool) (h : s.length = 8) :
    byteOfBits (s ++ t) = byteOfBits s := by
  match s, h with
  | [c0, c1, c2, c3, c4, c5, c6, c7], _ => rfl

theorem byteOfBits_take (s : List Bool) : byteOfBits (s.take 8) = byteOfBits s := by
  simp only [byteOfBits, List.getD_eq_getElem?_getD, List.getElem?_take]
  simp

/-- The bits of the last, partly filled byte start with the sequence. -/
theorem take_bits8_byteOfBits (s : List Bool) (h : s.length ≤ 8) :
    (bits8 (byteOfBits s)).take s.length = s := by
  apply List.ext_getElem
  · simp [length_bits8]; omega
  · intro i h1 h2
    have hi : i < 8 := by omega
    have := getLsbD_byteOfBits s hi
    rw [List.getElem_take]
    rw [List.getD_eq_getElem _ _ h2] at this
    rw [← this]
    have hc : i = 0 ∨ i = 1 ∨ i = 2 ∨ i = 3 ∨ i = 4 ∨ i = 5 ∨ i = 6 ∨ i = 7 := by omega
    rcases hc with rfl | rfl | rfl | rfl | rfl | rfl | rfl | rfl <;> rfl

@[simp] theorem length_packBytes (n : Nat) (s : List Bool) : (packBytes n s).length = n := by
  induction n generalizing s with
  | zero => rfl
  | succ n ih => simp [packBytes, ih]

@[simp] theorem length_pack (s : List Bool) : (pack s).length = ceil8 s.length :=
  length_packBytes _ _

theorem getD_packBytes (n : Nat) (s : List Bool) {j : Nat} (h : j < n) :
    (packBytes n s).getD j 0 = byteOfBits (s.drop (8 * j)) := by
  induction n generalizing s j with
  | zero => omega
  | succ n ih =>
    cases j with
    | zero => simp [packBytes, byteOfBits_take]
    | succ j =>
      rw [packBytes, List.getD_cons_succ, ih _ (by omega), List.drop_drop]
      congr 2
      omega

/-- Where `pack` puts each bit, and the zeros after the last (R14). -/
theorem getLsbD_pack (s : List Bool) {j k : Nat} (hj : j < ceil8 s.length) (hk : k < 8) :
    ((pack s).getD j 0).getLsbD (7 - k) = s.getD (8 * j + k) false := by
  rw [pack, getD_packBytes _ _ hj, getLsbD_byteOfBits _ hk]
  simp [List.getD_eq_getElem?_getD, List.getElem?_drop]

theorem flatMap_bits8_packBytes (n : Nat) (s : List Bool) (h : s.length ≤ 8 * n) :
    ((packBytes n s).flatMap bits8).take s.length = s := by
  induction n generalizing s with
  | zero =>
    have : s = [] := List.eq_nil_of_length_eq_zero (by omega)
    subst this; rfl
  | succ n ih =>
    rw [packBytes, List.flatMap_cons]
    by_cases hs : 8 ≤ s.length
    · have h8 : (s.take 8).length = 8 := by simp [hs]
      rw [bits8_byteOfBits _ h8, List.take_append, h8]
      have := ih (s.drop 8) (by simp; omega)
      rw [List.length_drop] at this
      rw [this, List.take_take, Nat.min_eq_right hs, List.take_append_drop]
    · have h8 : s.take 8 = s := List.take_of_length_le (by omega)
      rw [h8, List.take_append_of_le_length (by rw [length_bits8]; omega),
        take_bits8_byteOfBits _ (by omega)]

/-- `unpack` is the inverse of `pack` (R14). -/
theorem unpack_pack (s : List Bool) : unpack (pack s) s.length = s :=
  flatMap_bits8_packBytes _ _ (by unfold ceil8; omega)

theorem length_flatMap_bits8 (bs : List Byte) : (bs.flatMap bits8).length = 8 * bs.length := by
  induction bs with
  | nil => rfl
  | cons b bs ih => simp [length_bits8, ih]; omega

/-- All the bits of the packed bytes: the sequence, then padding. -/
theorem unpack_pack_all (s : List Bool) :
    ∃ pad, unpack (pack s) (8 * (pack s).length) = s ++ pad := by
  refine ⟨((pack s).flatMap bits8).drop s.length, ?_⟩
  have h := unpack_pack s
  rw [unpack] at h
  rw [unpack, List.take_of_length_le (by rw [length_flatMap_bits8])]
  exact (List.take_append_drop s.length _).symm.trans (by rw [h])

theorem wordByte_toNat (w : Word) (k : Nat) : (wordByte w k).toNat = w.toNat / 2 ^ (8 * k) % 256 := by
  simp [wordByte, BitVec.extractLsb'_toNat, Nat.shiftRight_eq_div_pow]

theorem le32_toNat (a b c d : Byte) :
    (le32 a b c d).toNat = a.toNat + 2 ^ 8 * b.toNat + 2 ^ 16 * c.toNat + 2 ^ 24 * d.toNat := by
  have hb := b.isLt; have ha := a.isLt; have hc := c.isLt
  simp only [le32, BitVec.toNat_append]
  have or_add : ∀ x y : Nat, y < 2 ^ 8 → x <<< 8 ||| y = 2 ^ 8 * x + y := fun x y hy => by
    rw [Nat.shiftLeft_eq, Nat.mul_comm, Nat.two_pow_add_eq_or_of_lt hy]
  rw [or_add _ _ hc, or_add _ _ hb, or_add _ _ ha]
  omega

/-- Splitting a word into bytes and assembling them gives the word (R17). -/
theorem le32_wordByte (w : Word) :
    le32 (wordByte w 0) (wordByte w 1) (wordByte w 2) (wordByte w 3) = w := by
  apply BitVec.eq_of_toNat_eq
  rw [le32_toNat, wordByte_toNat, wordByte_toNat, wordByte_toNat, wordByte_toNat]
  have := w.isLt
  omega

end Sys2Proof.Laws
end

