-- ==== Sys2Proof/Laws/Tree.lean ====
section
/-!
SUPPORT. Lemmas of code trees: their codes (spec/41_codebook.md R130), their bit form (spec/43_tree_serializer.md
R150), the reference decoder on both (spec/47_decoder_reference.md R201, R202), and the tree an arena holds.
-/

namespace Sys2Proof.Laws

open Sys2Proof.Machine

/-! ### Paths in a tree -/

/-- The subtree a bit path leads to. -/
def subtree : CodeTree → List Bool → Option CodeTree
  | t, [] => some t
  | .leaf _, _ :: _ => none
  | .node l r, c :: cs => subtree (if c then r else l) cs

theorem subtree_append (t : CodeTree) (c d : List Bool) :
    subtree t (c ++ d) = (subtree t c).bind fun u => subtree u d := by
  induction c generalizing t with
  | nil => cases t <;> rfl
  | cons x c ih =>
    cases t with
    | leaf b => rfl
    | node l r => exact ih _

/-- Two leaf paths, one a prefix of the other, are the same path. -/
theorem leaf_path_prefix {t : CodeTree} {c d : List Bool} {b b' : Byte} (h : c <+: d)
    (hc : subtree t c = some (.leaf b)) (hd : subtree t d = some (.leaf b')) : c = d ∧ b = b' := by
  obtain ⟨e, rfl⟩ := h
  rw [subtree_append, hc, Option.bind_some] at hd
  cases e with
  | nil =>
    simp only [subtree, Option.some.injEq, CodeTree.leaf.injEq] at hd
    exact ⟨(List.append_nil c).symm, hd⟩
  | cons x e => simp [subtree] at hd

/-! ### Codes -/

theorem codesFrom_eq (t : CodeTree) (c : List Bool) :
    t.codesFrom c = t.codes.map fun p => (p.1, c ++ p.2) := by
  induction t generalizing c with
  | leaf b => simp [CodeTree.codes, CodeTree.codesFrom]
  | node l r ihl ihr =>
    rw [CodeTree.codes, CodeTree.codesFrom, CodeTree.codesFrom, ihl, ihr, ihl ([] ++ [false]), ihr ([] ++ [true])]
    simp [Function.comp_def]

theorem codes_node (l r : CodeTree) :
    (CodeTree.node l r).codes =
      (l.codes.map fun p => (p.1, false :: p.2)) ++ r.codes.map fun p => (p.1, true :: p.2) := by
  rw [CodeTree.codes, CodeTree.codesFrom, codesFrom_eq l, codesFrom_eq r]
  rfl

/-- The codes are the leaf paths (R130). -/
theorem mem_codes_iff (t : CodeTree) (b : Byte) (c : List Bool) :
    (b, c) ∈ t.codes ↔ subtree t c = some (.leaf b) := by
  induction t generalizing c with
  | leaf b' =>
    cases c with
    | nil => simp [CodeTree.codes, CodeTree.codesFrom, subtree, eq_comm]
    | cons x c => simp [CodeTree.codes, CodeTree.codesFrom, subtree]
  | node l r ihl ihr =>
    rw [codes_node, List.mem_append, List.mem_map, List.mem_map]
    cases c with
    | nil => simp [subtree]
    | cons x c =>
      cases x with
      | false => simp [subtree, ← ihl]
      | true => simp [subtree, ← ihr]

theorem codes_map_fst (t : CodeTree) : t.codes.map Prod.fst = t.leaves := by
  induction t with
  | leaf b => rfl
  | node l r ihl ihr =>
    rw [codes_node, List.map_append, List.map_map, List.map_map]
    exact congrArg₂ (· ++ ·) ihl ihr

theorem mem_leaves_iff (t : CodeTree) (b : Byte) : b ∈ t.leaves ↔ ∃ c, subtree t c = some (.leaf b) := by
  rw [← codes_map_fst, List.mem_map]
  constructor
  · rintro ⟨⟨b', c⟩, h, rfl⟩; exact ⟨c, (mem_codes_iff _ _ _).1 h⟩
  · rintro ⟨c, h⟩; exact ⟨(b, c), (mem_codes_iff _ _ _).2 h, rfl⟩

/-- In a list of pairs with distinct first parts, lookup finds exactly the members. -/
theorem lookup_eq_some_iff {β : Type} (m : List (Byte × β)) (h : (m.map Prod.fst).Nodup) (b : Byte)
    (c : β) : m.lookup b = some c ↔ (b, c) ∈ m := by
  induction m with
  | nil => simp
  | cons p m ih =>
    obtain ⟨k, v⟩ := p
    simp only [List.map_cons, List.nodup_cons] at h
    by_cases hk : b = k
    · subst hk
      have : (b, c) ∉ m := fun hm => h.1 (List.mem_map.2 ⟨_, hm, rfl⟩)
      simp [this, eq_comm]
    · rw [List.lookup_cons, beq_false_of_ne hk]
      simp [ih h.2, hk]

/-- Where the leaves are distinct, the codebook gives each byte its leaf path (R131). -/
theorem lookup_codes_iff {t : CodeTree} (h : t.leaves.Nodup) (b : Byte) (c : List Bool) :
    t.codes.lookup b = some c ↔ subtree t c = some (.leaf b) := by
  rw [lookup_eq_some_iff _ (by rwa [codes_map_fst]), mem_codes_iff]

/-- Where the leaves are distinct, a byte has one leaf path. -/
theorem leaf_path_unique {t : CodeTree} (h : t.leaves.Nodup) {b : Byte} {c d : List Bool}
    (hc : subtree t c = some (.leaf b)) (hd : subtree t d = some (.leaf b)) : c = d := by
  rw [← lookup_codes_iff h] at hc hd
  exact Option.some.inj (hc.symm.trans hd)

theorem length_le_depth {t : CodeTree} {c : List Bool} {u : CodeTree} (h : subtree t c = some u) :
    c.length ≤ t.depth := by
  induction t generalizing c with
  | leaf b =>
    cases c with
    | nil => simp
    | cons x c => simp [subtree] at h
  | node l r ihl ihr =>
    cases c with
    | nil => simp
    | cons x c =>
      cases x with
      | false =>
        have := ihl (c := c) (by simpa [subtree] using h)
        simp [CodeTree.depth]; omega
      | true =>
        have := ihr (c := c) (by simpa [subtree] using h)
        simp [CodeTree.depth]; omega

/-- A tree is less deep than it has leaves (R132). -/
theorem depth_lt_leaves (t : CodeTree) : t.depth < t.leaves.length := by
  induction t with
  | leaf b => simp [CodeTree.depth, CodeTree.leaves]
  | node l r ihl ihr => simp [CodeTree.depth, CodeTree.leaves]; omega

/-! ### The bit form -/

/-- A tree with L leaves has 10 L - 1 bits (R152). -/
theorem length_ser (t : CodeTree) : t.ser.length + 1 = 10 * t.leaves.length := by
  induction t with
  | leaf b => simp [CodeTree.ser, CodeTree.leaves, length_bits8]
  | node l r ihl ihr => simp [CodeTree.ser, CodeTree.leaves]; omega

/-- One forward pass reads a tree back and leaves the bits after it (R153, R201). -/
theorem readTree_ser (t : CodeTree) (rest : List Bool) {fuel : Nat} (h : t.depth < fuel) :
    readTree fuel (t.ser ++ rest) = some (t, rest) := by
  induction t generalizing rest fuel with
  | leaf b =>
    cases fuel with
    | zero => omega
    | succ fuel =>
      rw [CodeTree.ser, List.cons_append, readTree, if_neg (by simp [length_bits8]),
        List.take_left' (length_bits8 b), List.drop_left' (length_bits8 b), byteOfBits_bits8]
  | node l r ihl ihr =>
    cases fuel with
    | zero => omega
    | succ fuel =>
      simp only [CodeTree.depth] at h
      rw [CodeTree.ser, List.cons_append, List.append_assoc, readTree, ihl _ (by omega)]
      simp only
      rw [ihr _ (by omega)]

theorem depth_lt_ser (t : CodeTree) : t.depth < t.ser.length := by
  have h1 := depth_lt_leaves t
  have h2 := length_ser t
  omega

/-- The packed bit form deserializes to the tree and its exact number of bits (R201). -/
theorem deserialize_pack_ser (t : CodeTree) :
    deserialize (pack t.ser) = some (t, t.ser.length) := by
  obtain ⟨pad, hp⟩ := unpack_pack_all t.ser
  have hl : (unpack (pack t.ser) (8 * (pack t.ser).length)).length = 8 * (pack t.ser).length := by
    rw [unpack, List.length_take, length_flatMap_bits8]; simp
  rw [hp, List.length_append] at hl
  have := depth_lt_ser t
  rw [deserialize, hp, readTree_ser t pad (by omega)]
  simp only
  congr 2
  omega

/-! ### Decoding codes -/

/-- A proper subtree is not the tree. -/
theorem subtree_ne_self {t : CodeTree} {c : List Bool} (hc : c ≠ []) : subtree t c ≠ some t := by
  have size : ∀ (t u : CodeTree) (c : List Bool), c ≠ [] → subtree t c = some u →
      sizeOf u < sizeOf t := by
    intro t
    induction t with
    | leaf b => intro u c hc h; cases c <;> simp_all [subtree]
    | node l r ihl ihr =>
      intro u c hc h
      cases c with
      | nil => exact absurd rfl hc
      | cons x c =>
        by_cases hn : c = []
        · subst hn
          cases x <;> simp only [subtree, Option.some.injEq] at h <;> subst h <;>
            simp only [CodeTree.node.sizeOf_spec, if_true, if_false, Bool.false_eq_true] <;> omega
        · cases x
          · have := ihl u c hn (by simpa [subtree] using h); simp; omega
          · have := ihr u c hn (by simpa [subtree] using h); simp; omega
  intro h
  exact absurd (size t t c hc h) (lt_irrefl _)

/-- The walk of R202 over the code of a leaf finds its byte and starts again at the root. -/
theorem walkBits_code (root : CodeTree) (b : Byte) (s : List Bool) :
    ∀ (c : List Bool) (cur : CodeTree), c ≠ [] → subtree cur c = some (.leaf b) →
      walkBits root cur (c ++ s) = (walkBits root root s).map (b :: ·) := by
  intro c
  induction c with
  | nil => intro cur h; exact absurd rfl h
  | cons x c ih =>
    intro cur _ h
    cases cur with
    | leaf b' => simp [subtree] at h
    | node l r =>
      rw [subtree] at h
      rw [List.cons_append, walkBits]
      generalize hu : (if x then r else l) = u at h ⊢
      cases u with
      | leaf b' =>
        cases c with
        | nil => simp only [subtree, Option.some.injEq, CodeTree.leaf.injEq] at h; subst h; rfl
        | cons y c => simp [subtree] at h
      | node l' r' =>
        simp only
        refine ih _ ?_ h
        rintro rfl
        simp [subtree] at h

/-- Decoding the concatenated codes of a byte list gives the list (R202, R142). -/
theorem walkBits_codes {t : CodeTree} (hroot : ∀ b, t ≠ .leaf b) (code : Byte → List Bool)
    (p : List Byte) (h : ∀ b ∈ p, subtree t (code b) = some (.leaf b)) :
    walkBits t t (p.flatMap code) = some p := by
  induction p with
  | nil => rw [List.flatMap_nil, walkBits, if_pos rfl]
  | cons b p ih =>
    have hb := h b (by simp)
    rw [List.flatMap_cons, walkBits_code t b _ _ _ _ hb, ih fun b' hb' => h b' (by simp [hb'])]
    · rfl
    · intro hc
      rw [hc, subtree] at hb
      exact hroot b (Option.some.inj hb)

/-! ### The tree an arena holds -/

/-- Record `i` is the root of the tree `t`, all of it below `count`. -/
def IsTree (nodeAt : Nat → Node) (count : Nat) : Nat → CodeTree → Prop
  | i, .leaf b => i < count ∧ ∃ w, nodeAt i = .leaf b w
  | i, .node tl tr => i < count ∧ ∃ w l r, nodeAt i = .internal w l r ∧
      IsTree nodeAt count l.toNat tl ∧ IsTree nodeAt count r.toNat tr

theorem isTree_lt {nodeAt : Nat → Node} {count i : Nat} {t : CodeTree} (h : IsTree nodeAt count i t) :
    i < count := by
  cases t <;> exact h.1

/-- The walk finds a tree of records, and only that. -/
theorem treeBelow_eq_some_iff (nodeAt : Nat → Node) (count : Nat) (fuel i : Nat) (t : CodeTree) :
    treeBelow nodeAt count fuel i = some t ↔ IsTree nodeAt count i t ∧ t.depth < fuel := by
  induction fuel generalizing i t with
  | zero => simp [treeBelow]
  | succ fuel ih =>
    rw [treeBelow]
    by_cases hi : i < count
    · rw [if_pos hi]
      cases hn : nodeAt i with
      | leaf b w =>
        cases t with
        | leaf b' => simp [IsTree, hi, hn, CodeTree.depth]
        | node tl tr => simp [IsTree, hn]
      | internal w l r =>
        dsimp only
        cases t with
        | leaf b' =>
          constructor
          · intro h
            split at h <;> cases h
          · rintro ⟨⟨_, w', h'⟩, _⟩
            rw [hn] at h'
            cases h'
        | node tl tr =>
          have hd : (CodeTree.node tl tr).depth < fuel + 1 ↔ tl.depth < fuel ∧ tr.depth < fuel := by
            simp only [CodeTree.depth]; omega
          rw [hd]
          constructor
          · intro h
            split at h
            · rename_i tl' tr' h1 h2
              cases h
              rw [ih] at h1 h2
              exact ⟨⟨hi, w, l, r, hn, h1.1, h2.1⟩, h1.2, h2.2⟩
            · cases h
          · rintro ⟨⟨_, w', l', r', h', h1, h2⟩, d1, d2⟩
            rw [hn] at h'
            cases h'
            rw [(ih _ _).2 ⟨h1, d1⟩, (ih _ _).2 ⟨h2, d2⟩]
    · rw [if_neg hi]
      constructor
      · intro h; cases h
      · intro h; exact absurd (isTree_lt h.1) hi

/-- A tree of records stays one when the arena below `count` stays and `count` grows. -/
theorem isTree_mono {nodeAt nodeAt' : Nat → Node} {count count' : Nat} (hc : count ≤ count')
    (hn : ∀ i < count, nodeAt' i = nodeAt i) {i : Nat} {t : CodeTree} (h : IsTree nodeAt count i t) :
    IsTree nodeAt' count' i t := by
  induction t generalizing i with
  | leaf b =>
    obtain ⟨hi, w, hw⟩ := h
    exact ⟨by omega, w, by rw [hn i hi, hw]⟩
  | node tl tr ihl ihr =>
    obtain ⟨hi, w, l, r, hw, h1, h2⟩ := h
    exact ⟨by omega, w, l, r, by rw [hn i hi, hw], ihl h1, ihr h2⟩

/-- The leaf paths of the tree are the paths through the records. -/
theorem follow_leaf_iff {nodeAt : Nat → Node} {count i : Nat} {t : CodeTree} (h : IsTree nodeAt count i t)
    (c : List Bool) (b : Byte) :
    subtree t c = some (.leaf b) ↔ ∃ j w, follow nodeAt i c = some j ∧ nodeAt j = .leaf b w := by
  induction c generalizing i t with
  | nil =>
    simp only [subtree, follow, Option.some.injEq, exists_and_left, exists_eq_left']
    cases t with
    | leaf b' =>
      obtain ⟨_, w, hw⟩ := h
      simp [hw, eq_comm]
    | node tl tr =>
      obtain ⟨_, w, l, r, hw, -⟩ := h
      simp [hw]
  | cons x c ih =>
    cases t with
    | leaf b' =>
      obtain ⟨_, w, hw⟩ := h
      simp [subtree, follow, hw]
    | node tl tr =>
      obtain ⟨_, w, l, r, hw, h1, h2⟩ := h
      simp only [subtree, follow, hw]
      cases x
      · exact ih h1
      · exact ih h2

/-- A record reached along a path of the tree lies in the arena. -/
theorem follow_lt {nodeAt : Nat → Node} {count i : Nat} {t : CodeTree} (h : IsTree nodeAt count i t)
    {c : List Bool} {j : Nat} (hf : follow nodeAt i c = some j) : j < count := by
  induction c generalizing i t with
  | nil => simp only [follow, Option.some.injEq] at hf; subst hf; exact isTree_lt h
  | cons x c ih =>
    cases t with
    | leaf b' =>
      obtain ⟨_, w, hw⟩ := h
      simp [follow, hw] at hf
    | node tl tr =>
      obtain ⟨_, w, l, r, hw, h1, h2⟩ := h
      simp only [follow, hw] at hf
      cases x
      · exact ih h1 hf
      · exact ih h2 hf

/-- What `State.tree?` finds: a tree of records from ROOT, with an internal root, at most 256 leaves and
paths of at most 255 branches. -/
theorem tree?_eq_some_iff (s : State) (t : CodeTree) :
    s.tree? = some t ↔ IsTree s.nodeAt s.nnodes.toNat s.root.toNat t ∧ t.buildable = true := by
  unfold State.tree?
  constructor
  · intro h
    split at h
    · rename_i u hu
      split at h
      · rename_i hb
        cases h
        exact ⟨((treeBelow_eq_some_iff _ _ _ _ _).1 hu).1, hb⟩
      · cases h
    · cases h
  · rintro ⟨h, hb⟩
    have hd : t.depth < 256 := by
      cases t with
      | leaf b => simp [CodeTree.depth]
      | node l r =>
        have := depth_lt_leaves (.node l r)
        simp [CodeTree.buildable] at hb
        simp [CodeTree.leaves] at this
        omega
    rw [(treeBelow_eq_some_iff _ _ _ _ _).2 ⟨h, hd⟩]
    simp [hb]

theorem buildable_leaves {t : CodeTree} (h : t.buildable = true) :
    2 ≤ t.leaves.length ∧ t.leaves.length ≤ 256 ∧ ∀ b, t ≠ .leaf b := by
  cases t with
  | leaf b => simp [CodeTree.buildable] at h
  | node l r =>
    have h1 := depth_lt_leaves l
    have h2 := depth_lt_leaves r
    simp [CodeTree.buildable] at h
    simp [CodeTree.leaves]
    omega

end Sys2Proof.Laws
end

