-- ==== Sys2Proof/Laws/Arena.lean ====
section
/-!
SUPPORT. What the arena's invariant (spec/10_state.md R36) says of the code tree the arena holds: DERIVE and
SERIALIZE walk one tree, whose leaves are the leaf records, each once.
-/

namespace Sys2Proof.Laws

open Sys2Proof.Machine

/-- Different leaves have different paths. -/
theorem codes_paths_nodup (t : CodeTree) : (t.codes.map Prod.snd).Nodup := by
  induction t with
  | leaf b => simp [CodeTree.codes, CodeTree.codesFrom]
  | node l r ihl ihr =>
    have inj : ∀ x : Bool, Function.Injective (x :: · : List Bool → List Bool) := fun x a b h => by simpa using h
    rw [codes_node, List.map_append, List.map_map, List.map_map]
    refine List.nodup_append.2 ⟨?_, ?_, ?_⟩
    · exact (List.map_map (f := Prod.snd) (g := (false :: ·)) (l := l.codes)) ▸ ihl.map (inj false)
    · exact (List.map_map (f := Prod.snd) (g := (true :: ·)) (l := r.codes)) ▸ ihr.map (inj true)
    · intro a ha b hb hab
      obtain ⟨x, -, rfl⟩ := List.mem_map.1 ha
      obtain ⟨y, -, rfl⟩ := List.mem_map.1 hb
      simp at hab

/-- The tree of an arena that meets its invariant. -/
theorem arena_tree {s : State} (h : s.ArenaOk) :
    ∃ t, s.tree? = some t ∧ IsTree s.nodeAt s.nnodes.toNat s.root.toNat t ∧ t.buildable = true ∧
      t.leaves.Nodup ∧ t.leaves.length = s.nleaves.toNat ∧
      ∀ b, b ∈ t.leaves ↔ ∃ i < s.nleaves.toNat, ∃ w, s.nodeAt i = .leaf b w := by
  obtain ⟨t, ht⟩ := h.walks
  obtain ⟨hT, hb⟩ := (tree?_eq_some_iff s t).1 ht
  have leafIdx : ∀ j b w, j < s.nnodes.toNat → s.nodeAt j = .leaf b w → j < s.nleaves.toNat := by
    intro j b w hj hw
    by_contra hc
    obtain ⟨w', l, r, he, -⟩ := h.internals j (by omega) hj
    rw [he] at hw; cases hw
  -- the record each code leads to
  let at_ : List Bool → Nat := fun c => (follow s.nodeAt s.root.toNat c).getD 0
  have hcode : ∀ x ∈ t.codes, follow s.nodeAt s.root.toNat x.2 = some (at_ x.2) ∧
      at_ x.2 < s.nleaves.toNat ∧ ∃ w, s.nodeAt (at_ x.2) = .leaf x.1 w := by
    intro x hx
    obtain ⟨j, w, hf, hj⟩ := (follow_leaf_iff hT x.2 x.1).1 ((mem_codes_iff t x.1 x.2).1 hx)
    have : at_ x.2 = j := by simp only [at_, hf, Option.getD_some]
    rw [this]
    exact ⟨hf, leafIdx j _ _ (follow_lt hT hf) hj, w, hj⟩
  have hidx : ((t.codes.map Prod.snd).map at_).Nodup := by
    refine (List.nodup_map_iff_inj_on (codes_paths_nodup t)).2 ?_
    intro c hc d hd hcd
    obtain ⟨x, hx, rfl⟩ := List.mem_map.1 hc
    obtain ⟨y, hy, rfl⟩ := List.mem_map.1 hd
    obtain ⟨h1, h2, -⟩ := hcode x hx
    obtain ⟨h3, -, -⟩ := hcode y hy
    obtain ⟨c, -, hu⟩ := h.reached _ h2
    rw [hu _ h1]
    rw [← hcd] at h3
    exact (hu _ h3).symm
  have hmem : ∀ i < s.nleaves.toNat, ∃ x ∈ t.codes, at_ x.2 = i := by
    intro i hi
    obtain ⟨b, w, hw⟩ := h.leaves i hi
    obtain ⟨c, hc, -⟩ := h.reached i hi
    refine ⟨(b, c), (mem_codes_iff t b c).2 ((follow_leaf_iff hT c b).2 ⟨i, w, hc, hw⟩), ?_⟩
    simp only [at_, hc, Option.getD_some]
  have hperm : ((t.codes.map Prod.snd).map at_).Perm (List.range s.nleaves.toNat) := by
    refine (List.perm_ext_iff_of_nodup hidx List.nodup_range).2 fun i => ?_
    rw [List.mem_range, List.map_map, List.mem_map]
    constructor
    · rintro ⟨x, hx, rfl⟩
      exact (hcode x hx).2.1
    · exact hmem i
  refine ⟨t, ht, hT, hb, ?_, ?_, ?_⟩
  · rw [← codes_map_fst]
    have hc : t.codes.Nodup := List.Nodup.of_map _ (codes_paths_nodup t)
    refine (List.nodup_map_iff_inj_on hc).2 ?_
    intro x hx y hy hxy
    obtain ⟨hx1, hx2, wx, hx3⟩ := hcode x hx
    obtain ⟨hy1, hy2, wy, hy3⟩ := hcode y hy
    have hi : at_ x.2 = at_ y.2 := by
      rcases Nat.lt_trichotomy (at_ x.2) (at_ y.2) with hlt | he | hlt
      · have := h.ascending _ _ _ _ _ _ hlt hy2 hx3 hy3
        rw [hxy] at this; exact absurd this (BitVec.lt_irrefl _)
      · exact he
      · have := h.ascending _ _ _ _ _ _ hlt hx2 hy3 hx3
        rw [hxy] at this; exact absurd this (BitVec.lt_irrefl _)
    rw [hi] at hx1
    obtain ⟨c, -, hu⟩ := h.reached _ hy2
    exact Prod.ext hxy ((hu _ hx1).trans (hu _ hy1).symm)
  · rw [← codes_map_fst, List.length_map]
    simpa using hperm.length_eq
  · intro b
    rw [← codes_map_fst, List.mem_map]
    constructor
    · rintro ⟨x, hx, rfl⟩
      obtain ⟨-, h2, w, h3⟩ := hcode x hx
      exact ⟨_, h2, w, h3⟩
    · rintro ⟨i, hi, w, hw⟩
      obtain ⟨x, hx, rfl⟩ := hmem i hi
      obtain ⟨-, -, w', h3⟩ := hcode x hx
      rw [hw] at h3
      exact ⟨x, hx, (Node.leaf.inj h3).1.symm⟩

/-- The arena's invariant depends on NODE, NNODES, NLEAVES and ROOT alone. -/
theorem arenaOk_congr {s t : State} (hn : t.node = s.node) (hc : t.nnodes = s.nnodes)
    (hl : t.nleaves = s.nleaves) (hr : t.root = s.root) (h : s.ArenaOk) : t.ArenaOk := by
  have hna : t.nodeAt = s.nodeAt := by
    funext i
    rw [State.nodeAt, State.nodeAt, hn]
  have htree : t.tree? = s.tree? := by rw [State.tree?, State.tree?, hna, hc, hr]
  obtain ⟨h1, h2, h3, h4, h5, h6, h7, h8, h9, h10⟩ := h
  constructor <;> simp only [hna, hc, hl, hr, htree] <;> assumption

/-- The codebook's invariant depends on CB alone. -/
theorem codebookOk_congr {s t : State} (hc : t.cb = s.cb) (h : s.CodebookOk) : t.CodebookOk := by
  obtain ⟨h1, h2⟩ := h
  constructor <;> simp only [hc] <;> assumption

end Sys2Proof.Laws
end

