-- ==== Sys2Proof/Laws/Queue.lean ====
section
/-! SUPPORT. The priority structure of BUILD (spec/40_huffman_tree.md R114, R115): what a pop does. -/

namespace Sys2Proof.Laws

open Sys2Proof.Machine

theorem before_iff (x y : QueueKey) :
    x.before y = true ↔ x.weight < y.weight ∨ (x.weight = y.weight ∧ x.index < y.index) := by
  simp [QueueKey.before]

/-- The least of a queue is in it, and nothing in it comes before. -/
theorem queueLeast_spec (x : QueueKey) (ys : List QueueKey) :
    queueLeast x ys ∈ x :: ys ∧ ∀ k ∈ x :: ys, k.before (queueLeast x ys) = false := by
  induction ys generalizing x with
  | nil => simp [queueLeast, QueueKey.before]
  | cons y ys ih =>
    rw [queueLeast]
    obtain ⟨hmem, hle⟩ := ih (if y.before x then y else x)
    constructor
    · rcases List.mem_cons.1 hmem with h | h
      · rw [h]; split <;> simp
      · simp [h]
    · intro k hk
      by_cases hyx : y.before x = true
      · rw [if_pos hyx] at hle ⊢
        simp only [List.mem_cons] at hk
        rcases hk with rfl | rfl | hk
        · have hy := hle y (by simp)
          rw [before_iff] at hyx
          rw [Bool.eq_false_iff, Ne, before_iff] at hy ⊢
          omega
        · exact hle _ (by simp)
        · exact hle k (by simp [hk])
      · rw [if_neg hyx] at hle ⊢
        simp only [List.mem_cons] at hk
        rcases hk with rfl | rfl | hk
        · exact hle _ (by simp)
        · have hx := hle x (by simp)
          rw [before_iff] at hyx
          rw [Bool.eq_false_iff, Ne, before_iff] at hx ⊢
          omega
        · exact hle k (by simp [hk])

/-- A pop of a queue that is not empty takes one element, before which no other comes. -/
theorem queuePop_spec {q : List QueueKey} (h : q ≠ []) :
    ∃ a q', queuePop q = some (a, q') ∧ q.Perm (a :: q') ∧ ∀ k ∈ q, k.before a = false := by
  cases q with
  | nil => exact absurd rfl h
  | cons x xs =>
    obtain ⟨hmem, hle⟩ := queueLeast_spec x xs
    exact ⟨_, _, rfl, List.perm_cons_erase hmem, hle⟩

end Sys2Proof.Laws
end

