-- ==== Sys2Proof/Laws/Cost.lean ====
section
/-!
SUPPORT. How long the codes of a payload are (spec/42_bitstream_encoder.md R143, R144): the bits ENCODE emits are the
weighted path length of the tree, the weighted path length is the sum of the merged weights, and the merges of BUILD
on at most 2^k leaves sum to at most k times the total. So a payload never gets longer than 8 bits a byte.
-/

namespace Sys2Proof.Laws

open Sys2Proof.Machine

/-! ### The weighted path length of a tree -/

/-- The weight of a tree whose leaves weigh `f` of their byte. -/
def treeWeight (f : Byte → Nat) (t : CodeTree) : Nat := (t.leaves.map f).sum

/-- The weights of the internal nodes of a tree, summed. -/
def treeCost (f : Byte → Nat) : CodeTree → Nat
  | .leaf _ => 0
  | .node l r => treeCost f l + treeCost f r + treeWeight f (.node l r)

@[simp] theorem treeWeight_leaf (f : Byte → Nat) (b : Byte) : treeWeight f (.leaf b) = f b := by
  simp [treeWeight, CodeTree.leaves]

@[simp] theorem treeWeight_node (f : Byte → Nat) (l r : CodeTree) :
    treeWeight f (.node l r) = treeWeight f l + treeWeight f r := by
  simp [treeWeight, CodeTree.leaves]

/-- One more bit in front of every code adds the weight of the tree. -/
theorem sum_cons_code (f : Byte → Nat) (x : Bool) (t : CodeTree) :
    ((t.codes.map fun p => (p.1, x :: p.2)).map fun p => f p.1 * p.2.length).sum =
      (t.codes.map fun p => f p.1 * p.2.length).sum + treeWeight f t := by
  rw [treeWeight, ← codes_map_fst, List.map_map, List.map_map, ← List.sum_map_add]
  exact congrArg List.sum (List.map_congr_left fun p _ => by simp [Nat.mul_add])

/-- Weight times code length, summed over the leaves, is the sum of the internal weights. -/
theorem sum_codes (f : Byte → Nat) (t : CodeTree) :
    (t.codes.map fun p => f p.1 * p.2.length).sum = treeCost f t := by
  induction t with
  | leaf b => simp [CodeTree.codes, CodeTree.codesFrom, treeCost]
  | node l r ihl ihr =>
    rw [codes_node, List.map_append, List.sum_append, sum_cons_code, sum_cons_code, ihl, ihr, treeCost,
      treeWeight_node]
    omega

/-- A sum over a byte list is the sum over any list of distinct bytes that has them all, each as often as it
occurs. -/
theorem sum_map_eq_sum_count (g : Byte → Nat) {lv : List Byte} (hn : lv.Nodup) (p : List Byte)
    (h : ∀ b ∈ p, b ∈ lv) : (p.map g).sum = (lv.map fun b => p.count b * g b).sum := by
  induction p with
  | nil => simp
  | cons x p ih =>
    have hx : (lv.map fun b => (if x == b then 1 else 0) * g b).sum = g x := by
      rw [List.sum_map_eq_nsmul_single x _ fun b hb _ => by simp [Ne.symm hb],
        List.count_eq_one_of_mem hn (h x (by simp))]
      simp
    rw [List.map_cons, List.sum_cons, ih fun b hb => h b (by simp [hb]), ← hx, ← List.sum_map_add]
    refine congrArg List.sum (List.map_congr_left fun b _ => ?_)
    rw [List.count_cons, Nat.add_mul, Nat.add_comm]

/-- The number of bits ENCODE emits for a byte list, with the codebook of a tree that has all its bytes. -/
theorem length_encodeBits {cb : Table CodeEntry 256} {t : CodeTree} (hn : t.leaves.Nodup) (p : List Byte)
    (hcb : ∀ b c, codeOf cb b = some c ↔ subtree t c = some (.leaf b)) (h : ∀ b ∈ p, b ∈ t.leaves) :
    (encodeBits cb p).length = treeCost (fun b => p.count b) t := by
  rw [encodeBits, List.length_flatMap, sum_map_eq_sum_count _ hn p h, ← sum_codes, ← codes_map_fst,
    List.map_map]
  refine congrArg List.sum (List.map_congr_left fun q hq => ?_)
  have : codeOf cb q.1 = some q.2 := (hcb _ _).2 ((mem_codes_iff _ _ _).1 hq)
  simp [this]

/-! ### What the merges of BUILD sum to -/

/-- The weights the loop of R114 gives the records it appends, summed; the next record has index `n`. -/
def mergeCost : Nat → Nat → List QueueKey → Nat
  | 0, _, _ => 0
  | passes + 1, n, q =>
    match queuePop q with
    | none => 0
    | some (a, q1) =>
      match queuePop q1 with
      | none => 0
      | some (b, q2) => a.weight + b.weight + mergeCost passes (n + 1) (⟨a.weight + b.weight, n⟩ :: q2)

/-- One pass of the loop, on a queue of at least two: what it takes, and what it costs. -/
theorem mergeCost_succ (passes n : Nat) {q : List QueueKey} (h : 2 ≤ q.length) :
    ∃ a b q1 q2, queuePop q = some (a, q1) ∧ queuePop q1 = some (b, q2) ∧ q.Perm (a :: q1) ∧
      q1.Perm (b :: q2) ∧ (∀ k ∈ q, a.weight ≤ k.weight) ∧ (∀ k ∈ q1, b.weight ≤ k.weight) ∧
      mergeCost (passes + 1) n q =
        a.weight + b.weight + mergeCost passes (n + 1) (⟨a.weight + b.weight, n⟩ :: q2) := by
  have least : ∀ {x : QueueKey} {l : List QueueKey}, (∀ k ∈ l, k.before x = false) →
      ∀ k ∈ l, x.weight ≤ k.weight := by
    intro x l hl k hk
    have := hl k hk
    rw [Bool.eq_false_iff, Ne, before_iff] at this
    omega
  obtain ⟨a, q1, ha, hpa, hla⟩ := queuePop_spec (q := q) (by rintro rfl; simp at h)
  have hlen := hpa.length_eq
  obtain ⟨b, q2, hb, hpb, hlb⟩ := queuePop_spec (q := q1) (by rintro rfl; simp at hlen; omega)
  exact ⟨a, b, q1, q2, ha, hb, hpa, hpb, least hla, least hlb, by rw [mergeCost, ha]; simp only [hb]⟩

/-- Taking the least key of a queue: some key of any part of the queue pays for it, and the rest of the part is
still there. -/
theorem pay_for_least {a : QueueKey} {q1 : List QueueKey} {us : Multiset QueueKey}
    (hle : ∀ k ∈ a :: q1, a.weight ≤ k.weight) (hus : us ≤ ((a :: q1 : List QueueKey) : Multiset QueueKey))
    (h0 : us ≠ 0) : ∃ x us', us = x ::ₘ us' ∧ a.weight ≤ x.weight ∧ us' ≤ (q1 : Multiset QueueKey) := by
  rw [← Multiset.cons_coe] at hus
  by_cases ha : a ∈ us
  · obtain ⟨us', rfl⟩ := Multiset.exists_cons_of_mem ha
    exact ⟨a, us', rfl, le_refl _, (Multiset.cons_le_cons_iff a).1 hus⟩
  · obtain ⟨x, hx⟩ := Multiset.exists_mem_of_ne_zero h0
    obtain ⟨us', rfl⟩ := Multiset.exists_cons_of_mem hx
    refine ⟨x, us', rfl, hle x ?_, ?_⟩
    · have := Multiset.mem_of_le hus hx
      simpa using this
    · exact (Multiset.le_cons_self us' x).trans ((Multiset.le_cons_of_notMem ha).1 hus)

/-- The first `m` merges cost no more than any 2m keys that were in the queue: each merge takes the least two, and
two of those keys are still there to pay for it. -/
theorem mergeCost_le_part (m n : Nat) {q : List QueueKey} {us : Multiset QueueKey}
    (hus : us ≤ (q : Multiset QueueKey)) (hc : 2 * m ≤ us.card) :
    mergeCost m n q ≤ (us.map QueueKey.weight).sum := by
  induction m generalizing n q us with
  | zero => simp [mergeCost]
  | succ m ih =>
    have hcq : us.card ≤ q.length := Multiset.card_le_card hus
    obtain ⟨a, b, q1, q2, -, -, hpa, hpb, hla, hlb, heq⟩ := mergeCost_succ m n (q := q) (by omega)
    rw [heq]
    obtain ⟨x, us1, rfl, hx, h1⟩ := pay_for_least (fun k hk => hla k (hpa.mem_iff.2 hk))
      (Multiset.coe_eq_coe.2 hpa ▸ hus) (by rintro rfl; simp at hc)
    simp only [Multiset.card_cons] at hc
    obtain ⟨y, us2, rfl, hy, h2⟩ := pay_for_least (fun k hk => hlb k (hpb.mem_iff.2 hk))
      (Multiset.coe_eq_coe.2 hpb ▸ h1) (by rintro rfl; simp at hc; omega)
    simp only [Multiset.card_cons] at hc
    have := ih (n + 1) (q := ⟨a.weight + b.weight, n⟩ :: q2) (us := us2)
      (h2.trans (by rw [← Multiset.cons_coe]; exact Multiset.le_cons_self _ _)) (by omega)
    simp only [Multiset.map_cons, Multiset.sum_cons]
    omega

/-- The cost of `m` passes and of the passes after them, on a queue that has the same total and `m` keys fewer. -/
theorem mergeCost_split (m r n : Nat) {q : List QueueKey} (h : m + 1 ≤ q.length) :
    ∃ q', q'.length = q.length - m ∧ (q'.map QueueKey.weight).sum = (q.map QueueKey.weight).sum ∧
      mergeCost (m + r) n q = mergeCost m n q + mergeCost r (n + m) q' := by
  induction m generalizing n q with
  | zero => exact ⟨q, rfl, rfl, by simp [mergeCost]⟩
  | succ m ih =>
    obtain ⟨a, b, q1, q2, ha, hb, hpa, hpb, -, -, heq⟩ := mergeCost_succ m n (q := q) (by omega)
    have hl1 := hpa.length_eq
    have hl2 := hpb.length_eq
    have hs1 := (hpa.map QueueKey.weight).sum_eq
    have hs2 := (hpb.map QueueKey.weight).sum_eq
    simp only [List.length_cons, List.map_cons, List.sum_cons] at hl1 hl2 hs1 hs2
    obtain ⟨q', hl, hs, hc⟩ := ih (n + 1) (q := ⟨a.weight + b.weight, n⟩ :: q2) (by simp; omega)
    simp only [List.length_cons, List.map_cons, List.sum_cons] at hl hs
    refine ⟨q', by omega, by omega, ?_⟩
    have heq' : mergeCost (m + r + 1) n q =
        a.weight + b.weight + mergeCost (m + r) (n + 1) (⟨a.weight + b.weight, n⟩ :: q2) := by
      rw [mergeCost, ha]; simp only [hb]
    rw [show m + 1 + r = m + r + 1 by omega, heq', hc, heq, show n + 1 + m = n + (m + 1) by omega]
    omega

/-- Merging a queue of at most 2^k keys down to one costs at most k times its total. -/
theorem mergeCost_le (k passes n : Nat) {q : List QueueKey} (hq : q.length = passes + 1)
    (hk : q.length ≤ 2 ^ k) : mergeCost passes n q ≤ k * (q.map QueueKey.weight).sum := by
  induction k generalizing passes n q with
  | zero =>
    obtain rfl : passes = 0 := by simp at hk; omega
    simp [mergeCost]
  | succ k ih =>
    rw [Nat.succ_mul]
    by_cases hle : q.length ≤ 2 ^ k
    · have := ih passes n hq hle
      omega
    · have hpos : 0 < 2 ^ k := Nat.two_pow_pos k
      rw [Nat.pow_succ] at hk
      obtain ⟨m, hm⟩ : ∃ m, q.length = 2 ^ k + m := ⟨q.length - 2 ^ k, by omega⟩
      obtain ⟨q', hl, hs, hc⟩ := mergeCost_split m (2 ^ k - 1) n (q := q) (by omega)
      rw [show m + (2 ^ k - 1) = passes by omega] at hc
      have h1 := mergeCost_le_part m n (le_refl (q : Multiset QueueKey)) (by simp; omega)
      have h2 := ih (2 ^ k - 1) (n + m) (q := q') (by omega) (by omega)
      rw [Multiset.map_coe, Multiset.sum_coe] at h1
      rw [hs] at h2
      omega

end Sys2Proof.Laws
end

