-- ==== Sys2Proof/Laws/LeafSet.lean ====
section
/-! SUPPORT. The leaf set of BUILD (spec/40_huffman_tree.md R113): ascending, 2 to 256 bytes, and its counts. -/

namespace Sys2Proof.Laws

open Sys2Proof.Machine

theorem allBytes_sorted : List.Pairwise (· < ·) ((List.range 256).map (BitVec.ofNat 8)) := by
  rw [List.pairwise_map]
  refine List.Pairwise.imp_of_mem ?_ (List.pairwise_lt_range (n := 256))
  intro a b ha hb hab
  rw [List.mem_range] at ha hb
  rw [BitVec.lt_def, BitVec.toNat_ofNat, BitVec.toNat_ofNat, Nat.mod_eq_of_lt (by omega),
    Nat.mod_eq_of_lt (by omega)]
  exact hab

theorem mem_allBytes (b : Byte) : b ∈ (List.range 256).map (BitVec.ofNat 8) :=
  List.mem_map.2 ⟨b.toNat, List.mem_range.2 b.isLt, by simp⟩

theorem presentBytes_sorted (freq : Table Word 256) : List.Pairwise (· < ·) (presentBytes freq) :=
  allBytes_sorted.filter _

theorem mem_presentBytes (freq : Table Word 256) (b : Byte) :
    b ∈ presentBytes freq ↔ freqOf freq b ≠ 0 := by
  simp only [presentBytes, List.mem_filter, mem_allBytes b, true_and, bne_iff_ne]

theorem sum_filter_ne_zero (f : Byte → Nat) (l : List Byte) :
    ((l.filter fun b => f b != 0).map f).sum = (l.map f).sum := by
  induction l with
  | nil => rfl
  | cons b l ih =>
    by_cases h : f b = 0
    · simp [h, ih]
    · simp [h, ih]

/-- The counts of the present bytes sum to the total (R118). -/
theorem sum_presentBytes (freq : Table Word 256) :
    ((presentBytes freq).map (freqOf freq)).sum = freqTotal freq := by
  rw [presentBytes, sum_filter_ne_zero, List.map_map, freqTotal]
  refine congrArg List.sum (List.map_congr_left fun b hb => ?_)
  rw [List.mem_range] at hb
  simp [freqOf, Nat.mod_eq_of_lt hb]

theorem xor_one_ne (b : Byte) : b ^^^ 1 ≠ b := by revert b; decide

theorem lt_or_xor_one_lt (b : Byte) : (b < b ^^^ 1 ↔ b.toNat % 2 = 0) ∧ (b < b ^^^ 1 ∨ b ^^^ 1 < b) := by
  revert b; decide

/-- The leaf list is strictly ascending (R113, R36). -/
theorem leafBytes_sorted (freq : Table Word 256) : List.Pairwise (· < ·) (leafBytes freq) := by
  have hs := presentBytes_sorted freq
  unfold leafBytes
  split
  · decide
  · rename_i b _
    split
    · rename_i h; exact List.pairwise_pair.2 h
    · rename_i h; exact List.pairwise_pair.2 ((lt_or_xor_one_lt b).2.resolve_left h)
  · exact hs

theorem leafBytes_nodup (freq : Table Word 256) : (leafBytes freq).Nodup :=
  (leafBytes_sorted freq).imp fun h => BitVec.ne_of_lt h

/-- There are 2 to 256 leaves (R112). -/
theorem leafBytes_length (freq : Table Word 256) :
    2 ≤ (leafBytes freq).length ∧ (leafBytes freq).length ≤ 256 := by
  have hle : (presentBytes freq).length ≤ 256 :=
    (List.length_filter_le _ _).trans (by simp)
  unfold leafBytes
  split
  · simp
  · split <;> simp
  · rename_i h1 h2
    refine ⟨?_, hle⟩
    rcases hp : presentBytes freq with _ | ⟨b, _ | ⟨c, l⟩⟩
    · exact absurd hp h1
    · exact absurd hp (h2 b)
    · simp

theorem presentBytes_eq_nil_iff (freq : Table Word 256) :
    presentBytes freq = [] ↔ ∀ c, freqOf freq c = 0 := by
  rw [List.eq_nil_iff_forall_not_mem]
  exact forall_congr' fun c => by rw [mem_presentBytes, not_not]

theorem presentBytes_eq_singleton_iff (freq : Table Word 256) (b : Byte) :
    presentBytes freq = [b] ↔ ∀ c, freqOf freq c ≠ 0 ↔ c = b := by
  constructor
  · intro h c
    rw [← mem_presentBytes, h, List.mem_singleton]
  · intro h
    have hn : (presentBytes freq).Nodup := (presentBytes_sorted freq).imp fun h => BitVec.ne_of_lt h
    have hp : (presentBytes freq).Perm [b] := by
      rw [List.perm_ext_iff_of_nodup hn (List.nodup_singleton b)]
      intro c
      rw [mem_presentBytes, List.mem_singleton, h]
    exact List.perm_singleton.1 hp

/-- The leaf list holds exactly the leaf set of R113. -/
theorem mem_leafBytes (freq : Table Word 256) (b : Byte) : b ∈ leafBytes freq ↔ IsLeafByte freq b := by
  have hm := mem_presentBytes freq
  have h0 := presentBytes_eq_nil_iff freq
  have h1 := presentBytes_eq_singleton_iff freq
  unfold leafBytes IsLeafByte
  split
  · rename_i h
    have hz := h0.1 h
    have hn : ¬ ∃ b0, (∀ c, freqOf freq c ≠ 0 ↔ c = b0) ∧ b = b0 ^^^ 1 := by
      rintro ⟨b0, hb, -⟩
      exact (hb b0).2 rfl (hz b0)
    simp [hz]
  · rename_i b0 h
    have hb := (h1 b0).1 h
    have hx : (∃ b1, (∀ c, freqOf freq c ≠ 0 ↔ c = b1) ∧ b = b1 ^^^ 1) ↔ b = b0 ^^^ 1 := by
      constructor
      · rintro ⟨b1, hb1, rfl⟩
        rw [(hb b1).1 ((hb1 b1).2 rfl)]
      · rintro rfl; exact ⟨b0, hb, rfl⟩
    have hz : ¬ ∀ c, freqOf freq c = 0 := fun hz => (hb b0).2 rfl (hz b0)
    rw [hb b, hx]
    simp only [hz, false_and, or_false]
    split <;> simp [or_comm]
  · rename_i l h2 h3
    rw [hm]
    have hz : ¬ ∀ c, freqOf freq c = 0 := fun hz => h2 (h0.2 hz)
    have hx : ¬ ∃ b1, (∀ c, freqOf freq c ≠ 0 ↔ c = b1) ∧ b = b1 ^^^ 1 := by
      rintro ⟨b1, hb1, -⟩
      exact h3 b1 ((h1 b1).2 hb1)
    exact ⟨.inl, fun h => h.resolve_right fun h => h.elim hx fun h => hz h.1⟩

/-- The leaf counts sum to the total: phantoms have none (R118). -/
theorem sum_leafBytes (freq : Table Word 256) :
    ((leafBytes freq).map (freqOf freq)).sum = freqTotal freq := by
  have hs := sum_presentBytes freq
  have h0 := presentBytes_eq_nil_iff freq
  have h1 := presentBytes_eq_singleton_iff freq
  unfold leafBytes
  split
  · rename_i h
    have hz := h0.1 h
    rw [h] at hs
    simp [hz, ← hs]
  · rename_i b h
    have hx : freqOf freq (b ^^^ 1) = 0 := by
      by_contra hne
      exact xor_one_ne b (((h1 b).1 h _).1 hne)
    rw [h] at hs
    rw [← hs]
    split <;> simp only [List.map_cons, List.map_nil, List.sum_cons, List.sum_nil, hx, Nat.add_zero,
      Nat.zero_add]
  · exact hs

end Sys2Proof.Laws
end

