-- ==== Sys2Proof/Laws/Build.lean ====
section
/-!
SUPPORT. The loop of BUILD (spec/40_huffman_tree.md R114): what holds of the arena and the queue before every
pass, and so of the arena at the end.
-/

namespace Sys2Proof.Laws

open Sys2Proof.Machine

/-- The records of a list, zero above its end. -/
def recordAt (arena : List Node) (i : Nat) : Node := arena.getD i Node.zero

theorem recordAt_append_left (arena : List Node) (x : Node) {i : Nat} (h : i < arena.length) :
    recordAt (arena ++ [x]) i = recordAt arena i := by
  rw [recordAt, recordAt, List.getD_append _ _ _ _ h]

theorem recordAt_append_self (arena : List Node) (x : Node) :
    recordAt (arena ++ [x]) arena.length = x := by
  rw [recordAt, List.getD_append_right _ _ _ _ (Nat.le_refl _), Nat.sub_self]; rfl

/-- Whether a record is unmerged depends on the records below alone. -/
theorem unmergedAt_congr {f g : Nat → Node} {n : Nat} (h : ∀ i < n, f i = g i) (j : Nat) :
    UnmergedAt f n j ↔ UnmergedAt g n j := by
  unfold UnmergedAt
  exact and_congr_right fun _ => forall_congr' fun p => imp_congr_right fun hp => by rw [h p hp]

theorem before_congr {f g : Nat → Node} {i j : Nat} (hi : f i = g i) (hj : f j = g j) :
    Before f i j ↔ Before g i j := by
  unfold Before; rw [hi, hj]

/-- Whether a record merges the least two depends on it and the records below alone. -/
theorem mergesLeastTwo_congr {f g : Nat → Node} {n : Nat} (h : ∀ i ≤ n, f i = g i) :
    MergesLeastTwo f n → MergesLeastTwo g n := by
  have hu := unmergedAt_congr (f := f) (g := g) (n := n) fun i hi => h i (by omega)
  rintro ⟨w, l, r, hn, hw, hl, hr, hb, hall⟩
  have el := h l.toNat (by have := hl.1; omega)
  have er := h r.toNat (by have := hr.1; omega)
  refine ⟨w, l, r, by rw [← h n (le_refl _), hn], by rw [← el, ← er, hw], (hu _).1 hl, (hu _).1 hr,
    (before_congr el er).1 hb, fun j hj h1 h2 => ?_⟩
  exact (before_congr er (h j (by have := hj.1; omega))).1 (hall j ((hu j).2 hj) h1 h2)

/-- What holds before every pass of the loop, for L leaves with byte values `lv` that weigh `f` and a total weight,
when the merges made so far have cost `cost`. -/
structure LoopInv (L total : Nat) (lv : List Byte) (f : Byte → Nat) (cost : Nat) (arena : List Node)
    (q : List QueueKey) : Prop where
  size : q.length + arena.length = 2 * L
  leafSize : L ≤ arena.length
  few : L ≤ 256
  leaves : ∀ i < L, ∃ b w, recordAt arena i = .leaf b w
  weights : ∀ k ∈ q, k.weight = (recordAt arena k.index).weight
  unmerged : ∀ j, (∃ k ∈ q, k.index = j) ↔ UnmergedAt (recordAt arena) arena.length j
  distinct : (q.map QueueKey.index).Nodup
  sum : (q.map QueueKey.weight).sum = total
  bounded : ∀ i < arena.length, (recordAt arena i).weight ≤ total
  merges : ∀ n, L ≤ n → n < arena.length → MergesLeastTwo (recordAt arena) n
  oneParent : ∀ i p p', p < arena.length → p' < arena.length → i ∈ (recordAt arena p).children →
    i ∈ (recordAt arena p').children → p = p'
  forest : ∃ ts, List.Forall₂ (fun (k : QueueKey) t => IsTree (recordAt arena) arena.length k.index t ∧
      k.weight = treeWeight f t) q ts ∧
    (ts.flatMap CodeTree.leaves).Perm lv ∧ (ts.map (treeCost f)).sum = cost

/-- The children of every record lie below it. -/
theorem LoopInv.children_lt {L total cost : Nat} {lv : List Byte} {f : Byte → Nat} {arena : List Node}
    {q : List QueueKey} (h : LoopInv L total lv f cost arena q) {p j : Nat} (hp : p < arena.length)
    (hj : j ∈ (recordAt arena p).children) : j < p := by
  by_cases hL : p < L
  · obtain ⟨b, w, hb⟩ := h.leaves p hL
    rw [hb] at hj; simp [Node.children] at hj
  · obtain ⟨w, l, r, hn, -, hl, hr, -⟩ := h.merges p (by omega) hp
    rw [hn] at hj
    simp only [Node.children, List.mem_cons, List.not_mem_nil, or_false] at hj
    rcases hj with rfl | rfl
    · exact hl.1
    · exact hr.1

/-- With one element left in the queue the arena holds one tree, of all the leaf bytes and of that cost. -/
theorem LoopInv.tree {L total cost : Nat} {lv : List Byte} {f : Byte → Nat} {arena : List Node}
    {k : QueueKey} (h : LoopInv L total lv f cost arena [k]) :
    ∃ t, IsTree (recordAt arena) arena.length k.index t ∧ t.leaves.Perm lv ∧ treeCost f t = cost := by
  obtain ⟨ts, hts, hperm, hcost⟩ := h.forest
  rw [List.forall₂_cons_left_iff] at hts
  obtain ⟨t, us, ht, hus, rfl⟩ := hts
  rw [List.forall₂_nil_left_iff] at hus
  subst hus
  exact ⟨t, ht.1, by simpa using hperm, by simpa using hcost⟩

/-- The arena and queue before the first pass. -/
theorem loopInv_start (freq : Table Word 256) :
    LoopInv (leafBytes freq).length (freqTotal freq) (leafBytes freq) (freqOf freq) 0 (leafNodes freq)
      (leafQueue freq) := by
  have hlen : (leafNodes freq).length = (leafBytes freq).length := by simp [leafNodes]
  have hq : (leafQueue freq).length = (leafBytes freq).length := by simp [leafQueue]
  have hrec : ∀ i (h : i < (leafBytes freq).length), recordAt (leafNodes freq) i =
      .leaf (leafBytes freq)[i] (freq.getD (leafBytes freq)[i].toNat 0) := by
    intro i h
    rw [recordAt, List.getD_eq_getElem _ _ (by omega)]
    simp [leafNodes]
  have hkey : ∀ i (h : i < (leafQueue freq).length), (leafQueue freq)[i] =
      ⟨freqOf freq ((leafBytes freq)[i]'(by omega)), i⟩ := by
    intro i h; simp [leafQueue]
  have hidx : (leafQueue freq).map QueueKey.index = List.range (leafBytes freq).length := by
    apply List.ext_getElem (by simp [hq])
    intro i h1 h2
    rw [List.getElem_map, hkey]; simp
  have hw : (leafQueue freq).map QueueKey.weight = (leafBytes freq).map (freqOf freq) := by
    apply List.ext_getElem (by simp [hq])
    intro i h1 h2
    rw [List.getElem_map, hkey]; simp
  have hnc : ∀ p < (leafNodes freq).length, (recordAt (leafNodes freq) p).children = [] := by
    intro p hp; rw [hrec p (by omega)]; rfl
  refine
    { size := by rw [hq, hlen]; omega
      leafSize := hlen.ge
      few := (leafBytes_length freq).2
      leaves := fun i hi => ⟨_, _, hrec i hi⟩
      weights := ?_
      unmerged := ?_
      distinct := by rw [hidx]; exact List.nodup_range
      sum := by rw [hw, sum_leafBytes]
      bounded := ?_
      merges := fun n h1 h2 => by omega
      oneParent := fun i p p' hp _ hi _ => by rw [hnc p hp] at hi; simp at hi
      forest := ?_ }
  · intro k hk
    obtain ⟨i, hi, rfl⟩ := List.mem_iff_getElem.1 hk
    rw [hkey]
    show _ = (recordAt _ i).weight
    rw [hrec i (by omega)]; rfl
  · intro j
    have : (∃ k ∈ leafQueue freq, k.index = j) ↔ j ∈ (leafQueue freq).map QueueKey.index := by
      rw [List.mem_map]
    rw [this, hidx, List.mem_range, UnmergedAt, hlen]
    constructor
    · intro h; exact ⟨h, fun p hp => by rw [hnc p (by omega)]; simp⟩
    · intro h; exact h.1
  · intro i hi
    rw [hrec i (by omega)]
    show freqOf freq _ ≤ _
    rw [← sum_leafBytes]
    exact List.le_sum_of_mem (List.mem_map.2 ⟨_, List.getElem_mem _, rfl⟩)
  · refine ⟨(leafBytes freq).map CodeTree.leaf, ?_, ?_, ?_⟩
    · rw [List.forall₂_iff_get]
      refine ⟨by simp [hq], fun i h1 h2 => ?_⟩
      simp only [List.get_eq_getElem, List.getElem_map]
      rw [hkey]
      refine ⟨⟨by simp at h2; show i < _; omega, _, hrec i (by omega)⟩, ?_⟩
      rw [treeWeight_leaf]
    · rw [List.flatMap_map]
      have : (leafBytes freq).flatMap (fun b => (CodeTree.leaf b).leaves) = leafBytes freq := by
        simp [CodeTree.leaves]
      rw [this]
    · rw [List.map_map]
      exact List.sum_eq_zero (by simp [treeCost])

/-- One pass keeps it. -/
theorem loopInv_pass {L total cost : Nat} {lv : List Byte} {f : Byte → Nat} {arena : List Node}
    {q q1 q2 : List QueueKey} {a b : QueueKey} (htotal : total ≤ totalLimit)
    (h : LoopInv L total lv f cost arena q) (ha : queuePop q = some (a, q1))
    (hb : queuePop q1 = some (b, q2)) :
    LoopInv L total lv f (cost + (a.weight + b.weight))
      (arena ++ [.internal (BitVec.ofNat 32 (a.weight + b.weight)) (BitVec.ofNat 9 a.index)
        (BitVec.ofNat 9 b.index)])
      (⟨a.weight + b.weight, arena.length⟩ :: q2) := by
  -- the two pops
  have hq : q ≠ [] := by rintro rfl; cases ha
  have hq1 : q1 ≠ [] := by rintro rfl; cases hb
  obtain ⟨a', q1', ha', hpa, hla⟩ := queuePop_spec hq
  rw [ha] at ha'; cases ha'
  obtain ⟨b', q2', hb', hpb, hlb⟩ := queuePop_spec hq1
  rw [hb] at hb'; cases hb'
  have hperm : q.Perm (a :: b :: q2) := hpa.trans (hpb.cons a)
  have hlen : q.length = q2.length + 2 := by rw [hperm.length_eq]; simp
  have hma : a ∈ q := hperm.mem_iff.2 (by simp)
  have hmb : b ∈ q := hperm.mem_iff.2 (by simp)
  have hnd : ((a :: b :: q2).map QueueKey.index).Nodup :=
    (hperm.map QueueKey.index).nodup_iff.1 h.distinct
  simp only [List.map_cons, List.nodup_cons, List.mem_cons, not_or] at hnd
  obtain ⟨⟨hab, haq⟩, hbq, hq2⟩ := hnd
  have hua : UnmergedAt (recordAt arena) arena.length a.index := (h.unmerged _).1 ⟨a, hma, rfl⟩
  have hub : UnmergedAt (recordAt arena) arena.length b.index := (h.unmerged _).1 ⟨b, hmb, rfl⟩
  have hsum : a.weight + b.weight + (q2.map QueueKey.weight).sum = total := by
    rw [← h.sum, (hperm.map QueueKey.weight).sum_eq]; simp; omega
  have hsz := h.size
  have hfew := h.few
  have hlim : totalLimit = 2 ^ 32 - 1 := rfl
  -- the new record
  set x : Node := .internal (BitVec.ofNat 32 (a.weight + b.weight)) (BitVec.ofNat 9 a.index)
    (BitVec.ofNat 9 b.index) with hx
  have hia : (BitVec.ofNat 9 a.index).toNat = a.index := by
    have := hua.1; rw [BitVec.toNat_ofNat, Nat.mod_eq_of_lt (by omega)]
  have hib : (BitVec.ofNat 9 b.index).toNat = b.index := by
    have := hub.1; rw [BitVec.toNat_ofNat, Nat.mod_eq_of_lt (by omega)]
  have hwx : (BitVec.ofNat 32 (a.weight + b.weight)).toNat = a.weight + b.weight := by
    rw [BitVec.toNat_ofNat, Nat.mod_eq_of_lt (by omega)]
  have hcx : x.children = [a.index, b.index] := by rw [hx, Node.children, hia, hib]
  have hold : ∀ i < arena.length, recordAt (arena ++ [x]) i = recordAt arena i := fun i hi =>
    recordAt_append_left _ _ hi
  have hnew : recordAt (arena ++ [x]) arena.length = x := recordAt_append_self _ _
  have hwa := h.weights a hma
  have hwb := h.weights b hmb
  have hlen' : (arena ++ [x]).length = arena.length + 1 := by simp
  have hun : ∀ j, UnmergedAt (recordAt (arena ++ [x])) arena.length j ↔
      UnmergedAt (recordAt arena) arena.length j := unmergedAt_congr hold
  refine
    { size := by rw [hlen', List.length_cons]; omega
      leafSize := by rw [hlen']; have := h.leafSize; omega
      few := h.few
      leaves := fun i hi => by rw [hold i (by have := h.leafSize; omega)]; exact h.leaves i hi
      weights := ?_
      unmerged := ?_
      distinct := ?_
      sum := ?_
      bounded := ?_
      merges := ?_
      oneParent := ?_
      forest := ?_ }
  · intro k hk
    rcases List.mem_cons.1 hk with rfl | hk
    · show _ = (recordAt _ arena.length).weight
      rw [hnew]; exact hwx.symm
    · have hmk : k ∈ q := hperm.mem_iff.2 (by simp [hk])
      rw [hold _ ((h.unmerged _).1 ⟨k, hmk, rfl⟩).1]
      exact h.weights k hmk
  · intro j
    rw [hlen']
    constructor
    · rintro ⟨k, hk, rfl⟩
      rcases List.mem_cons.1 hk with rfl | hk
      · refine ⟨Nat.lt_succ_self _, fun p hp hj => ?_⟩
        simp only at hj
        by_cases hpl : p < arena.length
        · rw [hold p hpl] at hj
          have := h.children_lt hpl hj
          omega
        · obtain rfl : p = arena.length := by omega
          rw [hnew, hcx] at hj
          have := hua.1; have := hub.1
          simp only [List.mem_cons, List.not_mem_nil, or_false] at hj
          omega
      · have hmk : k ∈ q := hperm.mem_iff.2 (by simp [hk])
        obtain ⟨h1, h2⟩ := (h.unmerged _).1 ⟨k, hmk, rfl⟩
        refine ⟨by omega, fun p hp hj => ?_⟩
        by_cases hpl : p < arena.length
        · rw [hold p hpl] at hj
          exact h2 p hpl hj
        · obtain rfl : p = arena.length := by omega
          rw [hnew, hcx] at hj
          simp only [List.mem_cons, List.not_mem_nil, or_false] at hj
          rcases hj with hj | hj
          · exact haq (hj ▸ List.mem_map_of_mem hk)
          · exact hbq (hj ▸ List.mem_map_of_mem hk)
    · rintro ⟨h1, h2⟩
      by_cases hj : j = arena.length
      · exact ⟨_, List.mem_cons_self, hj.symm⟩
      · have hu : UnmergedAt (recordAt arena) arena.length j :=
          ⟨by omega, fun p hp => by rw [← hold p hp]; exact h2 p (by omega)⟩
        obtain ⟨k, hk, rfl⟩ := (h.unmerged j).2 hu
        have hx2 := h2 arena.length (by omega)
        rw [hnew, hcx] at hx2
        simp only [List.mem_cons, List.not_mem_nil, or_false, not_or] at hx2
        rcases List.mem_cons.1 (hperm.mem_iff.1 hk) with rfl | hk
        · exact absurd rfl hx2.1
        · rcases List.mem_cons.1 hk with rfl | hk
          · exact absurd rfl hx2.2
          · exact ⟨k, List.mem_cons_of_mem _ hk, rfl⟩
  · rw [List.map_cons, List.nodup_cons]
    refine ⟨fun hm => ?_, hq2⟩
    obtain ⟨k, hk, hke⟩ := List.mem_map.1 hm
    have hmk : k ∈ q := hperm.mem_iff.2 (by simp [hk])
    have := ((h.unmerged _).1 ⟨k, hmk, rfl⟩).1
    simp only at hke
    omega
  · rw [List.map_cons, List.sum_cons]; exact hsum
  · intro i hi
    rw [hlen'] at hi
    by_cases hil : i < arena.length
    · rw [hold i hil]; exact h.bounded i hil
    · obtain rfl : i = arena.length := by omega
      rw [hnew]
      show (BitVec.ofNat 32 (a.weight + b.weight)).toNat ≤ total
      omega
  · intro n hn1 hn2
    rw [hlen'] at hn2
    by_cases hnl : n < arena.length
    · exact mergesLeastTwo_congr (fun i hi => (hold i (by omega)).symm) (h.merges n hn1 hnl)
    · obtain rfl : n = arena.length := by omega
      refine ⟨_, _, _, hnew.trans hx, ?_, ?_, ?_, ?_, ?_⟩
      · rw [hwx, hia, hib, hold _ hua.1, hold _ hub.1, ← hwa, ← hwb]
      · rw [hia]; exact (hun _).2 hua
      · rw [hib]; exact (hun _).2 hub
      · rw [hia, hib, before_congr (hold _ hua.1) (hold _ hub.1), Before, ← hwa, ← hwb]
        have := hla b hmb
        rw [Bool.eq_false_iff, Ne, before_iff] at this
        omega
      · intro j hj hja hjb
        rw [hia] at hja
        rw [hib] at hjb ⊢
        rw [hun] at hj
        obtain ⟨k, hk, rfl⟩ := (h.unmerged j).2 hj
        rw [before_congr (hold _ hub.1) (hold _ hj.1), Before, ← hwb, ← h.weights k hk]
        have hk1 : k ∈ q1 := by
          rcases List.mem_cons.1 (hpa.mem_iff.1 hk) with rfl | hk
          · exact absurd rfl hja
          · exact hk
        have := hlb k hk1
        rw [Bool.eq_false_iff, Ne, before_iff] at this
        omega
  · intro i p p' hp hp' hi hi'
    rw [hlen'] at hp hp'
    by_cases hpl : p < arena.length
    · by_cases hpl' : p' < arena.length
      · rw [hold p hpl] at hi
        rw [hold p' hpl'] at hi'
        exact h.oneParent i p p' hpl hpl' hi hi'
      · obtain rfl : p' = arena.length := by omega
        rw [hold p hpl] at hi
        rw [hnew, hcx] at hi'
        simp only [List.mem_cons, List.not_mem_nil, or_false] at hi'
        rcases hi' with rfl | rfl
        · exact absurd hi (hua.2 p hpl)
        · exact absurd hi (hub.2 p hpl)
    · obtain rfl : p = arena.length := by omega
      by_cases hpl' : p' < arena.length
      · rw [hold p' hpl'] at hi'
        rw [hnew, hcx] at hi
        simp only [List.mem_cons, List.not_mem_nil, or_false] at hi
        rcases hi with rfl | rfl
        · exact absurd hi' (hua.2 p' hpl')
        · exact absurd hi' (hub.2 p' hpl')
      · omega
  · obtain ⟨ts, hts, hleaves, hcost⟩ := h.forest
    obtain ⟨us, hus, husp⟩ := List.perm_comp_forall₂ hperm.symm hts
    cases hus with
    | @cons _ ta _ us1 hta hrest =>
      cases hrest with
      | @cons _ tb _ us htb hrest =>
        have mono : ∀ {i t}, IsTree (recordAt arena) arena.length i t →
            IsTree (recordAt (arena ++ [x])) (arena ++ [x]).length i t := fun ht =>
          isTree_mono (by omega) hold ht
        have hcost' := (husp.map (treeCost f)).sum_eq
        simp only [List.map_cons, List.sum_cons] at hcost'
        have hw := congrArg₂ (· + ·) hta.2 htb.2
        refine ⟨.node ta tb :: us,
          List.Forall₂.cons ⟨?_, ?_⟩ (hrest.imp fun _ _ ht => ⟨mono ht.1, ht.2⟩), ?_, ?_⟩
        · refine ⟨by rw [hlen']; exact Nat.lt_succ_self _, _, _, _, hnew.trans hx, ?_, ?_⟩
          · rw [hia]; exact mono hta.1
          · rw [hib]; exact mono htb.1
        · rw [treeWeight_node, hw]
        · have h1 : ((ta :: tb :: us).flatMap CodeTree.leaves).Perm (ts.flatMap CodeTree.leaves) :=
            husp.flatMap_right _
          have h2 : (CodeTree.node ta tb :: us).flatMap CodeTree.leaves =
              (ta :: tb :: us).flatMap CodeTree.leaves := by
            simp [CodeTree.leaves]
          rw [h2]
          exact h1.trans hleaves
        · rw [List.map_cons, List.sum_cons, treeCost, treeWeight_node]
          omega

/-- The loop keeps it and ends with one element in the queue. -/
theorem loopInv_loop {L total cost : Nat} {lv : List Byte} {f : Byte → Nat} (htotal : total ≤ totalLimit)
    (passes : Nat) {arena : List Node} {q : List QueueKey} (h : LoopInv L total lv f cost arena q)
    (hq : q.length = passes + 1) :
    ∃ k, LoopInv L total lv f (cost + mergeCost passes arena.length q) (mergeLoop passes arena q) [k] := by
  induction passes generalizing arena q cost with
  | zero =>
    obtain ⟨k, rfl⟩ := List.length_eq_one_iff.1 hq
    exact ⟨k, h⟩
  | succ passes ih =>
    obtain ⟨a, q1, ha, hpa, -⟩ := queuePop_spec (q := q) (by rintro rfl; simp at hq)
    have h1 : q1.length = passes + 1 := by have := hpa.length_eq; simp at this; omega
    obtain ⟨b, q2, hb, hpb, -⟩ := queuePop_spec (q := q1) (by rintro rfl; simp at h1)
    have h2 : q2.length = passes := by have := hpb.length_eq; simp at this; omega
    rw [mergeLoop, mergeCost, ha]
    simp only [hb]
    obtain ⟨k, hk⟩ := ih (loopInv_pass htotal h ha hb) (by simp [h2])
    rw [List.length_append, List.length_singleton, Nat.add_assoc] at hk
    exact ⟨k, hk⟩

theorem mergeLoop_prefix (passes : Nat) (arena : List Node) (q : List QueueKey) :
    arena <+: mergeLoop passes arena q := by
  induction passes generalizing arena q with
  | zero => exact List.prefix_rfl
  | succ passes ih =>
    rw [mergeLoop]
    split
    · exact List.prefix_rfl
    · split
      · exact List.prefix_rfl
      · exact (List.prefix_append _ _).trans (ih _ _)

theorem sum_leafQueue (freq : Table Word 256) :
    ((leafQueue freq).map QueueKey.weight).sum = freqTotal freq := (loopInv_start freq).sum

/-- What BUILD makes of a frequency table whose total it accepts: the loop's invariant with the root alone in
the queue and merges that cost at most 8 times the total, and the leaf records in front. -/
theorem buildRecords_spec (freq : Table Word 256) (h : freqTotal freq ≤ totalLimit) :
    (∃ k cost, cost ≤ 8 * freqTotal freq ∧
      LoopInv (leafBytes freq).length (freqTotal freq) (leafBytes freq) (freqOf freq) cost
        (buildRecords freq) [k]) ∧
      leafNodes freq <+: buildRecords freq := by
  obtain ⟨h2, h256⟩ := leafBytes_length freq
  have hlen : (leafQueue freq).length = (leafBytes freq).length := by simp [leafQueue]
  have hq : (leafQueue freq).length = (leafBytes freq).length - 1 + 1 := by omega
  obtain ⟨k, hk⟩ := loopInv_loop h _ (loopInv_start freq) hq
  rw [Nat.zero_add] at hk
  refine ⟨⟨k, _, ?_, hk⟩, mergeLoop_prefix _ _ _⟩
  rw [← sum_leafQueue]
  exact mergeCost_le 8 _ _ hq (by omega)

end Sys2Proof.Laws
end

