-- ==== Sys2Proof/Laws/State.lean ====
section
/-! SUPPORT. One lemma per field and named update of `State`, each true by `rfl`. -/

namespace Sys2Proof.Laws

open Sys2Proof.Machine

variable (s : State)

/-! ### Error entry -/

@[simp] theorem raise_cfg (e : CommandError) (w : Word) : (s.raise e w).cfg = s.cfg := rfl
@[simp] theorem raise_status (e : CommandError) (w : Word) : (s.raise e w).status = s.status.setFault := rfl
@[simp] theorem raise_err (e : CommandError) (w : Word) : (s.raise e w).err = e.code := rfl
@[simp] theorem raise_errcmd (e : CommandError) (w : Word) : (s.raise e w).errcmd = w := rfl
@[simp] theorem raise_errinfo (e : CommandError) (w : Word) : (s.raise e w).errinfo = e.info := rfl
@[simp] theorem raise_plen (e : CommandError) (w : Word) : (s.raise e w).plen = s.plen := rfl
@[simp] theorem raise_olen (e : CommandError) (w : Word) : (s.raise e w).olen = s.olen := rfl
@[simp] theorem raise_ebits (e : CommandError) (w : Word) : (s.raise e w).ebits = s.ebits := rfl
@[simp] theorem raise_elen (e : CommandError) (w : Word) : (s.raise e w).elen = s.elen := rfl
@[simp] theorem raise_tbits (e : CommandError) (w : Word) : (s.raise e w).tbits = s.tbits := rfl
@[simp] theorem raise_tlen (e : CommandError) (w : Word) : (s.raise e w).tlen = s.tlen := rfl
@[simp] theorem raise_nnodes (e : CommandError) (w : Word) : (s.raise e w).nnodes = s.nnodes := rfl
@[simp] theorem raise_nleaves (e : CommandError) (w : Word) : (s.raise e w).nleaves = s.nleaves := rfl
@[simp] theorem raise_root (e : CommandError) (w : Word) : (s.raise e w).root = s.root := rfl
@[simp] theorem raise_ctr (e : CommandError) (w : Word) : (s.raise e w).ctr = s.ctr := rfl
@[simp] theorem raise_keyin (e : CommandError) (w : Word) : (s.raise e w).keyin = s.keyin := rfl
@[simp] theorem raise_noncein (e : CommandError) (w : Word) : (s.raise e w).noncein = s.noncein := rfl
@[simp] theorem raise_ksblk (e : CommandError) (w : Word) : (s.raise e w).ksblk = s.ksblk := rfl
@[simp] theorem raise_key (e : CommandError) (w : Word) : (s.raise e w).key = s.key := rfl
@[simp] theorem raise_nonce (e : CommandError) (w : Word) : (s.raise e w).nonce = s.nonce := rfl
@[simp] theorem raise_freq (e : CommandError) (w : Word) : (s.raise e w).freq = s.freq := rfl
@[simp] theorem raise_node (e : CommandError) (w : Word) : (s.raise e w).node = s.node := rfl
@[simp] theorem raise_cb (e : CommandError) (w : Word) : (s.raise e w).cb = s.cb := rfl
@[simp] theorem raise_mem (e : CommandError) (w : Word) : (s.raise e w).mem = s.mem := rfl
@[simp] theorem raise_pending (e : CommandError) (w : Word) : (s.raise e w).pending = s.pending := rfl
@[simp] theorem raise_resp (e : CommandError) (w : Word) : (s.raise e w).resp = s.resp := rfl
@[simp] theorem raise_rng (e : CommandError) (w : Word) : (s.raise e w).rng = s.rng := rfl
@[simp] theorem raise_draws (e : CommandError) (w : Word) : (s.raise e w).draws = s.draws := rfl
@[simp] theorem raise_epoch (e : CommandError) (w : Word) : (s.raise e w).epoch = s.epoch := rfl

/-! ### CLR -/

@[simp] theorem clear_cfg : (s.clear).cfg = s.cfg := rfl
@[simp] theorem clear_status : (s.clear).status = Status.zero := rfl
@[simp] theorem clear_err : (s.clear).err = 0 := rfl
@[simp] theorem clear_errcmd : (s.clear).errcmd = 0 := rfl
@[simp] theorem clear_errinfo : (s.clear).errinfo = 0 := rfl
@[simp] theorem clear_plen : (s.clear).plen = 0 := rfl
@[simp] theorem clear_olen : (s.clear).olen = 0 := rfl
@[simp] theorem clear_ebits : (s.clear).ebits = 0 := rfl
@[simp] theorem clear_elen : (s.clear).elen = 0 := rfl
@[simp] theorem clear_tbits : (s.clear).tbits = 0 := rfl
@[simp] theorem clear_tlen : (s.clear).tlen = 0 := rfl
@[simp] theorem clear_nnodes : (s.clear).nnodes = 0 := rfl
@[simp] theorem clear_nleaves : (s.clear).nleaves = 0 := rfl
@[simp] theorem clear_root : (s.clear).root = 0 := rfl
@[simp] theorem clear_ctr : (s.clear).ctr = 0 := rfl
@[simp] theorem clear_keyin : (s.clear).keyin = Table.fill 32 0 := rfl
@[simp] theorem clear_noncein : (s.clear).noncein = Table.fill 8 0 := rfl
@[simp] theorem clear_ksblk : (s.clear).ksblk = Table.fill 64 0 := rfl
@[simp] theorem clear_key : (s.clear).key = Table.fill 32 0 := rfl
@[simp] theorem clear_nonce : (s.clear).nonce = Table.fill 8 0 := rfl
@[simp] theorem clear_freq : (s.clear).freq = Table.fill 256 0 := rfl
@[simp] theorem clear_node : (s.clear).node = Table.fill 511 Node.zero := rfl
@[simp] theorem clear_cb : (s.clear).cb = Table.fill 256 none := rfl
@[simp] theorem clear_mem : (s.clear).mem = s.mem := rfl
@[simp] theorem clear_pending : (s.clear).pending = s.pending := rfl
@[simp] theorem clear_resp : (s.clear).resp = s.resp := rfl
@[simp] theorem clear_rng : (s.clear).rng = s.rng := rfl
@[simp] theorem clear_draws : (s.clear).draws = s.draws := rfl
@[simp] theorem clear_epoch : (s.clear).epoch = s.epoch := rfl

/-! ### The reset event -/

@[simp] theorem hardReset_cfg : (s.hardReset).cfg = s.cfg := rfl
@[simp] theorem hardReset_status : (s.hardReset).status = Status.zero := rfl
@[simp] theorem hardReset_err : (s.hardReset).err = 0 := rfl
@[simp] theorem hardReset_errcmd : (s.hardReset).errcmd = 0 := rfl
@[simp] theorem hardReset_errinfo : (s.hardReset).errinfo = 0 := rfl
@[simp] theorem hardReset_plen : (s.hardReset).plen = 0 := rfl
@[simp] theorem hardReset_olen : (s.hardReset).olen = 0 := rfl
@[simp] theorem hardReset_ebits : (s.hardReset).ebits = 0 := rfl
@[simp] theorem hardReset_elen : (s.hardReset).elen = 0 := rfl
@[simp] theorem hardReset_tbits : (s.hardReset).tbits = 0 := rfl
@[simp] theorem hardReset_tlen : (s.hardReset).tlen = 0 := rfl
@[simp] theorem hardReset_nnodes : (s.hardReset).nnodes = 0 := rfl
@[simp] theorem hardReset_nleaves : (s.hardReset).nleaves = 0 := rfl
@[simp] theorem hardReset_root : (s.hardReset).root = 0 := rfl
@[simp] theorem hardReset_ctr : (s.hardReset).ctr = 0 := rfl
@[simp] theorem hardReset_keyin : (s.hardReset).keyin = Table.fill 32 0 := rfl
@[simp] theorem hardReset_noncein : (s.hardReset).noncein = Table.fill 8 0 := rfl
@[simp] theorem hardReset_ksblk : (s.hardReset).ksblk = Table.fill 64 0 := rfl
@[simp] theorem hardReset_key : (s.hardReset).key = Table.fill 32 0 := rfl
@[simp] theorem hardReset_nonce : (s.hardReset).nonce = Table.fill 8 0 := rfl
@[simp] theorem hardReset_freq : (s.hardReset).freq = Table.fill 256 0 := rfl
@[simp] theorem hardReset_node : (s.hardReset).node = Table.fill 511 Node.zero := rfl
@[simp] theorem hardReset_cb : (s.hardReset).cb = Table.fill 256 none := rfl
@[simp] theorem hardReset_mem : (s.hardReset).mem = [] := rfl
@[simp] theorem hardReset_pending : (s.hardReset).pending = s.pending := rfl
@[simp] theorem hardReset_resp : (s.hardReset).resp = none := rfl
@[simp] theorem hardReset_rng : (s.hardReset).rng = s.rng := rfl
@[simp] theorem hardReset_draws : (s.hardReset).draws = s.draws := rfl
@[simp] theorem hardReset_epoch : (s.hardReset).epoch = s.epoch + 1 := rfl

/-! ### The draw -/

@[simp] theorem drawn_cfg : (s.drawn).cfg = s.cfg := rfl
@[simp] theorem drawn_status : (s.drawn).status = s.status := rfl
@[simp] theorem drawn_err : (s.drawn).err = s.err := rfl
@[simp] theorem drawn_errcmd : (s.drawn).errcmd = s.errcmd := rfl
@[simp] theorem drawn_errinfo : (s.drawn).errinfo = s.errinfo := rfl
@[simp] theorem drawn_plen : (s.drawn).plen = s.plen := rfl
@[simp] theorem drawn_olen : (s.drawn).olen = s.olen := rfl
@[simp] theorem drawn_ebits : (s.drawn).ebits = s.ebits := rfl
@[simp] theorem drawn_elen : (s.drawn).elen = s.elen := rfl
@[simp] theorem drawn_tbits : (s.drawn).tbits = s.tbits := rfl
@[simp] theorem drawn_tlen : (s.drawn).tlen = s.tlen := rfl
@[simp] theorem drawn_nnodes : (s.drawn).nnodes = s.nnodes := rfl
@[simp] theorem drawn_nleaves : (s.drawn).nleaves = s.nleaves := rfl
@[simp] theorem drawn_root : (s.drawn).root = s.root := rfl
@[simp] theorem drawn_ctr : (s.drawn).ctr = s.ctr := rfl
@[simp] theorem drawn_keyin : (s.drawn).keyin = s.keyin := rfl
@[simp] theorem drawn_noncein : (s.drawn).noncein = s.noncein := rfl
@[simp] theorem drawn_ksblk : (s.drawn).ksblk = s.ksblk := rfl
@[simp] theorem drawn_key : (s.drawn).key = s.key := rfl
@[simp] theorem drawn_nonce : (s.drawn).nonce = s.nonce := rfl
@[simp] theorem drawn_freq : (s.drawn).freq = s.freq := rfl
@[simp] theorem drawn_node : (s.drawn).node = s.node := rfl
@[simp] theorem drawn_cb : (s.drawn).cb = s.cb := rfl
@[simp] theorem drawn_mem : (s.drawn).mem = s.mem := rfl
@[simp] theorem drawn_pending : (s.drawn).pending = s.pending := rfl
@[simp] theorem drawn_resp : (s.drawn).resp = s.resp := rfl
@[simp] theorem drawn_rng : (s.drawn).rng = s.rng.tail := rfl
@[simp] theorem drawn_draws : (s.drawn).draws = s.draws + 1 := rfl
@[simp] theorem drawn_epoch : (s.drawn).epoch = s.epoch := rfl

/-! ### The bus response -/

@[simp] theorem respond_cfg (r : BusResp) : (s.respond r).cfg = s.cfg := rfl
@[simp] theorem respond_status (r : BusResp) : (s.respond r).status = s.status := rfl
@[simp] theorem respond_err (r : BusResp) : (s.respond r).err = s.err := rfl
@[simp] theorem respond_errcmd (r : BusResp) : (s.respond r).errcmd = s.errcmd := rfl
@[simp] theorem respond_errinfo (r : BusResp) : (s.respond r).errinfo = s.errinfo := rfl
@[simp] theorem respond_plen (r : BusResp) : (s.respond r).plen = s.plen := rfl
@[simp] theorem respond_olen (r : BusResp) : (s.respond r).olen = s.olen := rfl
@[simp] theorem respond_ebits (r : BusResp) : (s.respond r).ebits = s.ebits := rfl
@[simp] theorem respond_elen (r : BusResp) : (s.respond r).elen = s.elen := rfl
@[simp] theorem respond_tbits (r : BusResp) : (s.respond r).tbits = s.tbits := rfl
@[simp] theorem respond_tlen (r : BusResp) : (s.respond r).tlen = s.tlen := rfl
@[simp] theorem respond_nnodes (r : BusResp) : (s.respond r).nnodes = s.nnodes := rfl
@[simp] theorem respond_nleaves (r : BusResp) : (s.respond r).nleaves = s.nleaves := rfl
@[simp] theorem respond_root (r : BusResp) : (s.respond r).root = s.root := rfl
@[simp] theorem respond_ctr (r : BusResp) : (s.respond r).ctr = s.ctr := rfl
@[simp] theorem respond_keyin (r : BusResp) : (s.respond r).keyin = s.keyin := rfl
@[simp] theorem respond_noncein (r : BusResp) : (s.respond r).noncein = s.noncein := rfl
@[simp] theorem respond_ksblk (r : BusResp) : (s.respond r).ksblk = s.ksblk := rfl
@[simp] theorem respond_key (r : BusResp) : (s.respond r).key = s.key := rfl
@[simp] theorem respond_nonce (r : BusResp) : (s.respond r).nonce = s.nonce := rfl
@[simp] theorem respond_freq (r : BusResp) : (s.respond r).freq = s.freq := rfl
@[simp] theorem respond_node (r : BusResp) : (s.respond r).node = s.node := rfl
@[simp] theorem respond_cb (r : BusResp) : (s.respond r).cb = s.cb := rfl
@[simp] theorem respond_mem (r : BusResp) : (s.respond r).mem = s.mem := rfl
@[simp] theorem respond_pending (r : BusResp) : (s.respond r).pending = s.pending := rfl
@[simp] theorem respond_resp (r : BusResp) : (s.respond r).resp = some r := rfl
@[simp] theorem respond_rng (r : BusResp) : (s.respond r).rng = s.rng := rfl
@[simp] theorem respond_draws (r : BusResp) : (s.respond r).draws = s.draws := rfl
@[simp] theorem respond_epoch (r : BusResp) : (s.respond r).epoch = s.epoch := rfl

/-! ### The flags -/

@[simp] theorem setTree_treeV (f : Status) : f.setTree.treeV = true := rfl
@[simp] theorem setTree_cbV (f : Status) : f.setTree.cbV = f.cbV := rfl
@[simp] theorem setTree_serV (f : Status) : f.setTree.serV = f.serV := rfl
@[simp] theorem setTree_encV (f : Status) : f.setTree.encV = f.encV := rfl
@[simp] theorem setTree_ciphV (f : Status) : f.setTree.ciphV = f.ciphV := rfl
@[simp] theorem setTree_ksV (f : Status) : f.setTree.ksV = f.ksV := rfl
@[simp] theorem setTree_fault (f : Status) : f.setTree.fault = f.fault := rfl
@[simp] theorem setCodebook_treeV (f : Status) : f.setCodebook.treeV = f.treeV := rfl
@[simp] theorem setCodebook_cbV (f : Status) : f.setCodebook.cbV = true := rfl
@[simp] theorem setCodebook_serV (f : Status) : f.setCodebook.serV = f.serV := rfl
@[simp] theorem setCodebook_encV (f : Status) : f.setCodebook.encV = f.encV := rfl
@[simp] theorem setCodebook_ciphV (f : Status) : f.setCodebook.ciphV = f.ciphV := rfl
@[simp] theorem setCodebook_ksV (f : Status) : f.setCodebook.ksV = f.ksV := rfl
@[simp] theorem setCodebook_fault (f : Status) : f.setCodebook.fault = f.fault := rfl
@[simp] theorem setSerialized_treeV (f : Status) : f.setSerialized.treeV = f.treeV := rfl
@[simp] theorem setSerialized_cbV (f : Status) : f.setSerialized.cbV = f.cbV := rfl
@[simp] theorem setSerialized_serV (f : Status) : f.setSerialized.serV = true := rfl
@[simp] theorem setSerialized_encV (f : Status) : f.setSerialized.encV = f.encV := rfl
@[simp] theorem setSerialized_ciphV (f : Status) : f.setSerialized.ciphV = f.ciphV := rfl
@[simp] theorem setSerialized_ksV (f : Status) : f.setSerialized.ksV = f.ksV := rfl
@[simp] theorem setSerialized_fault (f : Status) : f.setSerialized.fault = f.fault := rfl
@[simp] theorem setEncoded_treeV (f : Status) : f.setEncoded.treeV = f.treeV := rfl
@[simp] theorem setEncoded_cbV (f : Status) : f.setEncoded.cbV = f.cbV := rfl
@[simp] theorem setEncoded_serV (f : Status) : f.setEncoded.serV = f.serV := rfl
@[simp] theorem setEncoded_encV (f : Status) : f.setEncoded.encV = true := rfl
@[simp] theorem setEncoded_ciphV (f : Status) : f.setEncoded.ciphV = f.ciphV := rfl
@[simp] theorem setEncoded_ksV (f : Status) : f.setEncoded.ksV = f.ksV := rfl
@[simp] theorem setEncoded_fault (f : Status) : f.setEncoded.fault = f.fault := rfl
@[simp] theorem setCipher_treeV (f : Status) : f.setCipher.treeV = f.treeV := rfl
@[simp] theorem setCipher_cbV (f : Status) : f.setCipher.cbV = f.cbV := rfl
@[simp] theorem setCipher_serV (f : Status) : f.setCipher.serV = f.serV := rfl
@[simp] theorem setCipher_encV (f : Status) : f.setCipher.encV = f.encV := rfl
@[simp] theorem setCipher_ciphV (f : Status) : f.setCipher.ciphV = true := rfl
@[simp] theorem setCipher_ksV (f : Status) : f.setCipher.ksV = false := rfl
@[simp] theorem setCipher_fault (f : Status) : f.setCipher.fault = f.fault := rfl
@[simp] theorem setKeystream_treeV (f : Status) : f.setKeystream.treeV = f.treeV := rfl
@[simp] theorem setKeystream_cbV (f : Status) : f.setKeystream.cbV = f.cbV := rfl
@[simp] theorem setKeystream_serV (f : Status) : f.setKeystream.serV = f.serV := rfl
@[simp] theorem setKeystream_encV (f : Status) : f.setKeystream.encV = f.encV := rfl
@[simp] theorem setKeystream_ciphV (f : Status) : f.setKeystream.ciphV = f.ciphV := rfl
@[simp] theorem setKeystream_ksV (f : Status) : f.setKeystream.ksV = true := rfl
@[simp] theorem setKeystream_fault (f : Status) : f.setKeystream.fault = f.fault := rfl
@[simp] theorem setFault_treeV (f : Status) : f.setFault.treeV = f.treeV := rfl
@[simp] theorem setFault_cbV (f : Status) : f.setFault.cbV = f.cbV := rfl
@[simp] theorem setFault_serV (f : Status) : f.setFault.serV = f.serV := rfl
@[simp] theorem setFault_encV (f : Status) : f.setFault.encV = f.encV := rfl
@[simp] theorem setFault_ciphV (f : Status) : f.setFault.ciphV = f.ciphV := rfl
@[simp] theorem setFault_ksV (f : Status) : f.setFault.ksV = f.ksV := rfl
@[simp] theorem setFault_fault (f : Status) : f.setFault.fault = true := rfl

end Sys2Proof.Laws
end

