-- ==== Sys2Proof/Laws/Exec.lean ====
section
/-!
SUPPORT. What each command can do, once per command: if its meaning answers a next state, that state is one
of those listed. Proofs cite these and do not unfold a meaning.
-/

namespace Sys2Proof.Laws

open Sys2Proof.Machine

/-- Error entry in the form the statements use (R213). -/
theorem raise_eq_afterError (s : State) (e : CommandError) (w : Word) :
    s.raise e w = s.afterError e.code w e.info := rfl

/-- No error has code 0, so error entry always leaves the block in the FAULT state (R210, R214). -/
theorem code_ne_zero (e : CommandError) : e.code ≠ 0 := by
  cases e <;> simp [CommandError.code]

theorem code_le (e : CommandError) : e.code.toNat ≤ 5 := by
  cases e <;> simp [CommandError.code]

/-- The command words, by command (R92). -/
theorem encode_eq (i : Instr) : encode i =
    match i with
    | .clr => 0x00000001
    | .count => 0x00000002
    | .build => 0x00000003
    | .derive => 0x00000004
    | .encode => 0x00000005
    | .serialize => 0x00000006
    | .cinit => 0x00000007
    | .nextblk => 0x00000008
    | .mask .pmem => 0x00000009
    | .mask .tmem => 0x00000109
    | .mask .emem => 0x00000209
    | .mask .reserved => 0x00000309
    | .keygen => 0x0000000A := by
  cases i with
  | mask b => cases b <;> rfl
  | _ => rfl

theorem execClr_next {s t : State} (h : execClr s = .next t) : t = s.clear := by
  simpa [execClr] using h.symm

theorem execCount_next {s t : State} (h : execCount s = .next t) :
    (s.cfg.pmax < s.plen.toNat ∧ t = s.raise (.resourceExhaustion .payload) (encode .count)) ∨
    (s.plen.toNat ≤ s.cfg.pmax ∧ t = { s with freq := countBytes s.payload }) := by
  unfold execCount at h
  split at h <;> cases h
  · exact .inl ⟨by assumption, rfl⟩
  · exact .inr ⟨by omega, rfl⟩

theorem execBuild_next {s t : State} (h : execBuild s = .next t) :
    (totalLimit < freqTotal s.freq ∧ t = s.raise (.resourceExhaustion .frequency) (encode .build)) ∨
    (freqTotal s.freq ≤ totalLimit ∧
      t = { s with
        node := Table.ofFn fun i => (buildRecords s.freq).getD i.val Node.zero
        nnodes := BitVec.ofNat 32 (buildRecords s.freq).length
        nleaves := BitVec.ofNat 32 (leafBytes s.freq).length
        root := BitVec.ofNat 32 ((buildRecords s.freq).length - 1)
        status := s.status.setTree }) := by
  unfold execBuild at h
  split at h <;> cases h
  · exact .inl ⟨by assumption, rfl⟩
  · exact .inr ⟨by omega, rfl⟩

theorem execDerive_next {s t : State} (h : execDerive s = .next t) :
    (s.status.treeV = false ∧ t = s.raise .invalidInput (encode .derive)) ∨
    (s.status.treeV = true ∧ ∃ tree, s.tree? = some tree ∧
      t = { s with cb := codebookOf tree, status := s.status.setCodebook }) := by
  unfold execDerive at h
  split at h
  · split at h
    · cases h
      exact .inr ⟨by assumption, _, by assumption, rfl⟩
    · cases h
  · cases h
    exact .inl ⟨by simp_all, rfl⟩

theorem execEncode_next {s t : State} (h : execEncode s = .next t) :
    (s.cfg.pmax < s.plen.toNat ∧ t = s.raise (.resourceExhaustion .payload) (encode .encode)) ∨
    (s.plen.toNat ≤ s.cfg.pmax ∧ ∃ i, firstMissing s.cb s.payload = some i ∧
      t = s.raise (.encodingPrecondition i) (encode .encode)) ∨
    (s.plen.toNat ≤ s.cfg.pmax ∧ firstMissing s.cb s.payload = none ∧
      s.cfg.emax < ceil8 (encodeBits s.cb s.payload).length ∧
      t = s.raise (.resourceExhaustion .output) (encode .encode)) ∨
    (s.plen.toNat ≤ s.cfg.pmax ∧ firstMissing s.cb s.payload = none ∧
      ceil8 (encodeBits s.cb s.payload).length ≤ s.cfg.emax ∧
      t = { s with
        mem := s.mem.writeRun ememBase (pack (encodeBits s.cb s.payload))
        ebits := BitVec.ofNat 64 (encodeBits s.cb s.payload).length
        elen := BitVec.ofNat 32 (ceil8 (encodeBits s.cb s.payload).length)
        olen := s.plen
        status := s.status.setEncoded }) := by
  simp only [execEncode, Host.Outcome.next.injEq] at h
  split at h
  · exact .inl ⟨by assumption, h.symm⟩
  · rename_i h1
    have h1 := Nat.le_of_not_lt h1
    refine .inr ?_
    split at h
    · exact .inl ⟨h1, _, by assumption, h.symm⟩
    · split at h
      · exact .inr (.inl ⟨h1, by assumption, by assumption, h.symm⟩)
      · exact .inr (.inr ⟨h1, by assumption, by omega, h.symm⟩)

theorem execSerialize_next {s t : State} (h : execSerialize s = .next t) :
    (s.status.treeV = false ∧ t = s.raise .invalidInput (encode .serialize)) ∨
    (s.status.treeV = true ∧ ∃ tree, s.tree? = some tree ∧
      t = { s with
        mem := s.mem.writeRun tmemBase (pack tree.ser)
        tbits := BitVec.ofNat 32 tree.ser.length
        tlen := BitVec.ofNat 32 (ceil8 tree.ser.length)
        status := s.status.setSerialized }) := by
  unfold execSerialize at h
  split at h
  · split at h
    · cases h
      exact .inr ⟨by assumption, _, by assumption, rfl⟩
    · cases h
  · cases h
    exact .inl ⟨by simp_all, rfl⟩

theorem execCinit_next {s t : State} (h : execCinit s = .next t) :
    t = { s with
      key := s.keyin, nonce := s.noncein, ctr := 0, ksblk := Table.fill 64 0
      status := s.status.setCipher } := by
  simpa [execCinit] using h.symm

theorem execNextblk_next {s t : State} (h : execNextblk s = .next t) :
    (s.status.ciphV = false ∧ t = s.raise .cipherNotReady (encode .nextblk)) ∨
    (s.status.ciphV = true ∧ s.ctr.toNat = ctrLimit ∧
      t = s.raise (.resourceExhaustion .counter) (encode .nextblk)) ∨
    (s.status.ciphV = true ∧ s.ctr.toNat < ctrLimit ∧
      t = { s with
        ksblk := s.block s.ctr, ctr := s.ctr + 1, status := s.status.setKeystream }) := by
  simp only [execNextblk, Host.Outcome.next.injEq] at h
  split at h
  · exact .inl ⟨by assumption, h.symm⟩
  · rename_i h1
    rw [Bool.not_eq_false] at h1
    refine .inr ?_
    split at h
    · exact .inl ⟨h1, by assumption, h.symm⟩
    · have := s.ctr.isLt
      exact .inr ⟨h1, by rw [ctrLimit] at *; omega, h.symm⟩

theorem execMask_next {s t : State} {buf : BufSel} (h : execMask buf s = .next t) :
    (buf = .reserved ∧ t = s.raise (.badWord 2) (encode (.mask buf))) ∨
    ∃ base, maskBase buf = some base ∧
      ((s.status.ciphV = false ∧ t = s.raise .cipherNotReady (encode (.mask buf))) ∨
      (s.status.ciphV = true ∧ buf = .pmem ∧ s.cfg.pmax < s.plen.toNat ∧
        t = s.raise (.resourceExhaustion .payload) (encode (.mask buf))) ∨
      (s.status.ciphV = true ∧ (buf = .pmem → s.plen.toNat ≤ s.cfg.pmax) ∧
        ctrLimit < s.ctr.toNat + ceil64 (s.maskLength buf) ∧
        t = s.raise (.resourceExhaustion .counter) (encode (.mask buf))) ∨
      (s.status.ciphV = true ∧ (buf = .pmem → s.plen.toNat ≤ s.cfg.pmax) ∧
        s.ctr.toNat + ceil64 (s.maskLength buf) ≤ ctrLimit ∧
        t = s.maskBuffer base (s.maskLength buf))) := by
  simp only [execMask, Host.Outcome.next.injEq] at h
  split at h
  · cases buf <;> simp [maskBase] at *
    exact h.symm
  · rename_i base hb
    refine .inr ⟨base, hb, ?_⟩
    split at h
    · exact .inl ⟨by assumption, h.symm⟩
    · rename_i h1
      rw [Bool.not_eq_false] at h1
      refine .inr ?_
      split at h
      · rename_i h2
        exact .inl ⟨h1, h2.1, h2.2, h.symm⟩
      · rename_i h2
        have h2 : buf = .pmem → s.plen.toNat ≤ s.cfg.pmax := fun e =>
          Nat.le_of_not_lt fun hlt => h2 ⟨e, hlt⟩
        split at h
        · exact .inr (.inl ⟨h1, h2, by assumption, h.symm⟩)
        · exact .inr (.inr ⟨h1, h2, by omega, h.symm⟩)

theorem execKeygen_next {s t : State} (h : execKeygen s = .next t) :
    (s.rngAnswer = .fail ∧ t = s.drawn.raise .randomnessUnavailable (encode .keygen)) ∨
    ∃ r, s.rngAnswer = .bytes r ∧
      t = { s.drawn with keyin := answerKey r, noncein := answerNonce r } := by
  simp only [execKeygen, Host.Outcome.next.injEq] at h
  split at h
  · exact .inl ⟨by assumption, h.symm⟩
  · exact .inr ⟨_, by assumption, h.symm⟩

/-- The only stop: DERIVE or SERIALIZE with TREE_V set over an arena that is no tree (log 7). -/
theorem exec_stop {i : Instr} {s : State} (h : ¬ GoesOn (exec i s)) :
    (i = .derive ∨ i = .serialize) ∧ s.status.treeV = true ∧ s.tree? = none := by
  have no : ∀ t : State, ¬ ¬ GoesOn (.next t) := fun t hn => hn ⟨t, rfl⟩
  cases i with
  | derive =>
    refine ⟨.inl rfl, ?_⟩
    simp only [exec, execDerive] at h
    split at h
    · split at h
      · exact absurd h (no _)
      · exact ⟨by assumption, by assumption⟩
    · exact absurd h (no _)
  | serialize =>
    refine ⟨.inr rfl, ?_⟩
    simp only [exec, execSerialize] at h
    split at h
    · split at h
      · exact absurd h (no _)
      · exact ⟨by assumption, by assumption⟩
    · exact absurd h (no _)
  | _ => exact absurd h (no _)

end Sys2Proof.Laws
end

