-- ==== Sys2Proof/Laws/Memory.lean ====
section
/-! SUPPORT. The laws of the buffer memories: a read after a write, and the one form a memory has. -/

namespace Sys2Proof.Laws

open Sys2Proof.Machine

theorem lookup_filter_of_pos (m : Memory) (p : Host.Cell → Bool) (x : Nat)
    (h : ∀ b, p (x, b) = true) : (m.filter p).lookup x = m.lookup x := by
  induction m with
  | nil => rfl
  | cons c m ih =>
    obtain ⟨k, b⟩ := c
    by_cases hk : x = k
    · subst hk; simp [h]
    · have hne : (x == k) = false := by simp [hk]
      by_cases hp : p (k, b) = true
      · rw [List.filter_cons_of_pos hp, List.lookup_cons, List.lookup_cons, hne, ih]
      · rw [List.filter_cons_of_neg hp, List.lookup_cons, hne, ih]

theorem lookup_filter_of_neg (m : Memory) (p : Host.Cell → Bool) (x : Nat)
    (h : ∀ b, p (x, b) = false) : (m.filter p).lookup x = none := by
  induction m with
  | nil => rfl
  | cons c m ih =>
    obtain ⟨k, b⟩ := c
    by_cases hp : p (k, b) = true
    · have hk : x ≠ k := by rintro rfl; simp [h] at hp
      rw [List.filter_cons_of_pos hp, List.lookup_cons, beq_false_of_ne hk, ih]
    · rw [List.filter_cons_of_neg hp, ih]

theorem lookup_cellsAt (a : Nat) (bs : List Byte) (x : Nat) :
    (cellsAt a bs).lookup x = if a ≤ x ∧ x < a + bs.length then bs[x - a]? else none := by
  induction bs generalizing a with
  | nil => simp [cellsAt]
  | cons b bs ih =>
    rw [cellsAt, List.lookup_cons, ih]
    by_cases hx : x = a
    · subst hx; simp
    · rw [beq_false_of_ne hx]
      by_cases h : a ≤ x ∧ x < a + (b :: bs).length
      · rw [if_pos h, if_pos (by simp at h ⊢; omega)]
        obtain ⟨k, rfl⟩ : ∃ k, x = a + 1 + k := ⟨x - (a + 1), by omega⟩
        simp [show a + 1 + k - a = k + 1 by omega]
      · rw [if_neg h, if_neg (by simp at h ⊢; omega)]

/-- A read after a write of a run: the bytes written at their addresses, every other address as before. -/
theorem read_writeRun (m : Memory) (a : Nat) (bs : List Byte) (x : Nat) :
    (m.writeRun a bs).read x =
      if a ≤ x ∧ x < a + bs.length then bs[x - a]? else m.read x := by
  unfold Memory.read Memory.writeRun
  rw [List.lookup_append, List.lookup_append, lookup_cellsAt]
  by_cases h : a ≤ x ∧ x < a + bs.length
  · rw [if_pos h, lookup_filter_of_neg _ _ _ (by intro b; simp; omega)]
    have : x - a < bs.length := by omega
    simp [if_pos h, List.getElem?_eq_getElem this]
  · rw [if_neg h, if_neg h]
    by_cases hx : x < a
    · rw [lookup_filter_of_pos _ _ _ (by intro b; simpa using hx),
        lookup_filter_of_neg _ (fun c => decide (a + bs.length ≤ c.1)) _ (by intro b; simp; omega)]
      simp
    · rw [lookup_filter_of_neg _ (fun c => decide (c.1 < a)) _ (by intro b; simpa using hx),
        lookup_filter_of_pos _ (fun c => decide (a + bs.length ≤ c.1)) _ (by intro b; simp; omega)]
      simp

theorem mem_cellsAt {a : Nat} {bs : List Byte} {c : Host.Cell} (h : c ∈ cellsAt a bs) :
    a ≤ c.1 ∧ c.1 < a + bs.length := by
  induction bs generalizing a with
  | nil => simp [cellsAt] at h
  | cons b bs ih =>
    rw [cellsAt, List.mem_cons] at h
    rcases h with rfl | h
    · simp
    · have := ih h; simp; omega

theorem wf_cellsAt (a : Nat) (bs : List Byte) : Memory.wf (cellsAt a bs) := by
  induction bs generalizing a with
  | nil => exact List.Pairwise.nil
  | cons b bs ih =>
    refine List.Pairwise.cons (fun c hc => ?_) (ih _)
    have := mem_cellsAt hc
    show a < c.1
    omega

/-- Every cell after a write is a cell from before or one of those written. -/
theorem mem_writeRun {m : Memory} {a : Nat} {bs : List Byte} {c : Host.Cell}
    (h : c ∈ m.writeRun a bs) : c ∈ m ∨ (a ≤ c.1 ∧ c.1 < a + bs.length) := by
  unfold Memory.writeRun at h
  rw [List.mem_append, List.mem_append] at h
  rcases h with (h | h) | h
  · exact .inl (List.mem_filter.1 h).1
  · exact .inr (mem_cellsAt h)
  · exact .inl (List.mem_filter.1 h).1

/-- A write keeps the form of the memory. -/
theorem wf_writeRun {m : Memory} (h : m.wf) (a : Nat) (bs : List Byte) : (m.writeRun a bs).wf := by
  unfold Memory.wf Memory.writeRun
  rw [List.pairwise_append, List.pairwise_append]
  refine ⟨⟨h.filter _, wf_cellsAt a bs, fun x hx y hy => ?_⟩, h.filter _, fun x hx y hy => ?_⟩
  · have h1 := (List.mem_filter.1 hx).2
    have h2 := mem_cellsAt hy
    simp only [decide_eq_true_eq] at h1
    omega
  · have h2 := (List.mem_filter.1 hy).2
    simp only [decide_eq_true_eq] at h2
    rcases List.mem_append.1 hx with hx | hx
    · have h1 := (List.mem_filter.1 hx).2
      simp only [decide_eq_true_eq] at h1
      omega
    · have := mem_cellsAt hx
      omega

/-- Every operation on the memory is a run of bytes written, so it keeps the form from the empty memory on. -/
theorem wf_empty : Memory.wf [] := List.Pairwise.nil

/-- The byte a reader sees after a run of bytes is written (R39 to R41). -/
theorem byteAt_writeRun (s : State) (a : Nat) (bs : List Byte) (x : Nat) :
    ({ s with mem := s.mem.writeRun a bs } : State).byteAt x =
      if a ≤ x ∧ x < a + bs.length then bs.getD (x - a) 0 else s.byteAt x := by
  simp only [State.byteAt, read_writeRun]
  by_cases h : a ≤ x ∧ x < a + bs.length
  · have hx : x - a < bs.length := by omega
    rw [if_pos h, if_pos h, List.getElem?_eq_getElem hx, List.getD_eq_getElem _ _ hx,
      Option.getD_some]
  · rw [if_neg h, if_neg h]

/-- What a reader sees depends on the memory and the epoch alone. -/
theorem byteAt_congr {s t : State} (hm : s.mem = t.mem) (he : s.epoch = t.epoch) (a : Nat) :
    s.byteAt a = t.byteAt a := by
  simp [State.byteAt, hm, he]

/-- `byteAt_writeRun` for any state whose memory is the written one. -/
theorem byteAt_of_writeRun {s t : State} {a : Nat} {bs : List Byte} (hm : t.mem = s.mem.writeRun a bs)
    (he : t.epoch = s.epoch) (x : Nat) :
    t.byteAt x = if a ≤ x ∧ x < a + bs.length then bs.getD (x - a) 0 else s.byteAt x := by
  rw [← byteAt_writeRun s a bs x]
  exact byteAt_congr (t := { s with mem := s.mem.writeRun a bs }) hm he x

@[simp] theorem length_bytesAt (s : State) (a len : Nat) : (s.bytesAt a len).length = len := by
  simp [State.bytesAt]

theorem getD_bytesAt (s : State) (a : Nat) {len i : Nat} (h : i < len) (d : Byte) :
    (s.bytesAt a len).getD i d = s.byteAt (a + i) := by
  rw [List.getD_eq_getElem _ _ (by simpa using h)]
  simp [State.bytesAt]

theorem bytesAt_congr {s t : State} (a len : Nat)
    (h : ∀ i < len, s.byteAt (a + i) = t.byteAt (a + i)) : s.bytesAt a len = t.bytesAt a len := by
  unfold State.bytesAt
  exact List.map_congr_left fun i hi => h i (List.mem_range.1 hi)

theorem bytesAt_eq_iff (s : State) (a : Nat) (bs : List Byte) :
    s.bytesAt a bs.length = bs ↔ ∀ i < bs.length, s.byteAt (a + i) = bs.getD i 0 := by
  constructor
  · intro h i hi
    rw [← getD_bytesAt s a hi 0, h]
  · intro h
    apply List.ext_getElem (by simp)
    intro i h1 h2
    have := h i h2
    rw [List.getD_eq_getElem _ _ h2] at this
    simp [State.bytesAt, this]

/-- The run just written is what is read back. -/
theorem bytesAt_writeRun_self (s : State) (a : Nat) (bs : List Byte) :
    ({ s with mem := s.mem.writeRun a bs } : State).bytesAt a bs.length = bs := by
  rw [bytesAt_eq_iff]
  intro i hi
  rw [byteAt_writeRun, if_pos (by omega)]
  congr 1
  omega

/-- `bytesAt_writeRun_self` for any state whose memory is the written one. -/
theorem bytesAt_of_writeRun {s t : State} {a : Nat} {bs : List Byte} (hm : t.mem = s.mem.writeRun a bs)
    (he : t.epoch = s.epoch) : t.bytesAt a bs.length = bs := by
  rw [bytesAt_eq_iff]
  intro i hi
  rw [byteAt_of_writeRun hm he, if_pos (by omega)]
  congr 1
  omega

end Sys2Proof.Laws
end

