-- ==== Sys2Proof/Laws/Table.lean ====
section
/-! SUPPORT. The small lemmas of `Table`. -/

namespace Sys2Proof.Laws

open Sys2Proof.Machine

variable {α : Type} {n : Nat}

theorem table_ext {t u : Table α n} (h : t.cells = u.cells) : t = u := by
  cases t; cases u; cases h; rfl

/-- Two tables with the same entries are the same table. -/
theorem table_ext_getD {t u : Table α n} (d : α) (h : ∀ i < n, t.getD i d = u.getD i d) : t = u := by
  apply table_ext
  apply List.ext_getElem (t.size.trans u.size.symm)
  intro i h1 h2
  have hi := h i (t.size ▸ h1)
  rwa [Table.getD, Table.getD, List.getD_eq_getElem _ _ h1, List.getD_eq_getElem _ _ h2] at hi

theorem table_get_eq_getD (t : Table α n) (i : Fin n) (d : α) : t.get i = t.getD i.val d := by
  rw [Table.get, Table.getD, List.getD_eq_getElem _ _ (by rw [t.size]; exact i.isLt)]

@[simp] theorem table_ofFn_getD (f : Fin n → α) {i : Nat} (h : i < n) (d : α) :
    (Table.ofFn f).getD i d = f ⟨i, h⟩ := by
  rw [Table.getD, Table.ofFn, List.getD_eq_getElem _ _ (by rw [List.length_ofFn]; exact h),
    List.getElem_ofFn]

theorem table_getD_of_le (t : Table α n) {i : Nat} (h : n ≤ i) (d : α) : t.getD i d = d := by
  rw [Table.getD, List.getD_eq_default _ _ (by rw [t.size]; exact h)]

@[simp] theorem table_fill_getD (a d : α) {i : Nat} (h : i < n) : (Table.fill n a).getD i d = a := by
  rw [Table.getD, Table.fill, List.getD_eq_getElem _ _ (by rw [List.length_replicate]; exact h),
    List.getElem_replicate]

/-- A stored entry reads back, and no other entry changes. -/
theorem table_setNat_getD (t : Table α n) {i : Nat} (a d : α) (j : Nat) (h : i < n) :
    (t.setNat i a).getD j d = if j = i then a else t.getD j d := by
  unfold Table.setNat Table.getD
  by_cases hj : j = i
  · subst hj
    rw [if_pos rfl, List.getD_eq_getElem _ _ (by rw [List.length_set, t.size]; exact h),
      List.getElem_set_self]
  · rw [if_neg hj, List.getD_eq_getElem?_getD, List.getElem?_set_ne (Ne.symm hj),
      ← List.getD_eq_getElem?_getD]

end Sys2Proof.Laws
end

