-- ==== Sys2Proof/Laws/Bus.lean ====
section
/-!
SUPPORT. The address map and the bus: where an accepted access goes, what each host event can do, and the
cases of one step.
-/

namespace Sys2Proof.Laws

open Sys2Proof.Machine

/-! ### The address map -/

/-- Where the regions lie, as one condition on region, base and size (R60). -/
def RegionAt (p : Params) : Region → Nat → Nat → Prop
  | .csr, b, n => b = 0 ∧ n = 0x4C
  | .keyin, b, n => b = 0x80 ∧ n = 0x20
  | .noncein, b, n => b = 0xA0 ∧ n = 8
  | .ksblk, b, n => b = 0xC0 ∧ n = 0x40
  | .freq, b, n => b = 0x400 ∧ n = 0x400
  | .tmem, b, n => b = 0x800 ∧ n = 320
  | .node, b, n => b = 0x2000 ∧ n = 0x1FF0
  | .cb, b, n => b = 0x4000 ∧ n = 0x4000
  | .pmem, b, n => b = 0x40000000 ∧ n = p.pmax
  | .emem, b, n => b = 0x80000000 ∧ n = p.emax

theorem mem_addressMap_iff (p : Params) (row : MapRow) :
    row ∈ addressMap p ↔ RegionAt p row.region row.base row.size := by
  obtain ⟨r, b, n⟩ := row
  cases r <;> simp [addressMap, RegionAt, tmemBase, tmemSize, pmemBase, ememBase]

/-- The regions do not overlap, so the row that contains an address is the row found. -/
theorem rowOf_eq_some_iff {p : Params} (hv : p.Valid) (a : Nat) (row : MapRow) :
    rowOf p a = some row ↔ row ∈ addressMap p ∧ row.base ≤ a ∧ a < row.base + row.size := by
  constructor
  · intro h
    have h1 := List.find?_some h
    simp only [Bool.and_eq_true, decide_eq_true_eq] at h1
    exact ⟨List.mem_of_find?_eq_some h, h1⟩
  · rintro ⟨hm, h1, h2⟩
    rcases hr : rowOf p a with _ | row'
    · have := List.find?_eq_none.1 hr row hm
      simp only [Bool.and_eq_true, decide_eq_true_eq, not_and] at this
      exact absurd h2 (this h1)
    · have h1' := List.find?_some hr
      simp only [Bool.and_eq_true, decide_eq_true_eq] at h1'
      have hm' := List.mem_of_find?_eq_some hr
      rw [mem_addressMap_iff] at hm hm'
      obtain ⟨-, -, -, hpe, he⟩ := hv
      obtain ⟨r, b, n⟩ := row
      obtain ⟨r', b', n'⟩ := row'
      cases r <;> cases r' <;> simp only [RegionAt, Option.some.injEq, MapRow.mk.injEq] at * <;>
        (first | (exact ⟨trivial, by omega, by omega⟩) | omega)

theorem rowOf_eq_none_iff (p : Params) (a : Nat) :
    rowOf p a = none ↔ ∀ row ∈ addressMap p, ¬ (row.base ≤ a ∧ a < row.base + row.size) := by
  simp [rowOf, List.find?_eq_none]

/-- Where an accepted access goes (R60, R67). -/
theorem locate_eq_some_iff {p : Params} (hv : p.Valid) (a : Nat) (n : AccessSize) (r : Region) (off : Nat) :
    locate p a n = some (r, off) ↔
      ∃ b k, RegionAt p r b k ∧ a = b + off ∧ off + n.bytes ≤ k ∧ (n = .word → a % 4 = 0) ∧
        (n = .byte → r.isWord = false) := by
  have hn : 0 < n.bytes := by cases n <;> simp [AccessSize.bytes]
  unfold locate
  constructor
  · intro h
    split at h
    · cases h
    · rename_i row hrow
      obtain ⟨hm, h1, h2⟩ := (rowOf_eq_some_iff hv a row).1 hrow
      split at h
      · cases h
      · split at h
        · cases h
        · split at h
          · cases h
          · cases h
            refine ⟨row.base, row.size, (mem_addressMap_iff p row).1 hm, by omega, by omega, ?_, ?_⟩
            · intro e; subst e; simp_all
            · intro e; subst e; simp_all
  · rintro ⟨b, k, hr, rfl, hk, hw, hb⟩
    have hrow : rowOf p (b + off) = some ⟨r, b, k⟩ :=
      (rowOf_eq_some_iff hv _ _).2 ⟨(mem_addressMap_iff p ⟨r, b, k⟩).2 hr, by simp, by simp; omega⟩
    rw [hrow]
    simp only
    rw [if_neg (by omega), if_neg (by rintro ⟨e, h⟩; exact h (hw e)),
      if_neg (by rintro ⟨e, h⟩; simp [hb e] at h)]
    simp

/-- An access inside a region, aligned and of a size the region has, is accepted. -/
theorem locate_of_region {p : Params} {a : Nat} {n : AccessSize} (r : Region) {b k : Nat}
    (hv : p.Valid) (hr : RegionAt p r b k) (hb : b ≤ a) (hk : a + n.bytes ≤ b + k)
    (hw : n = .word → a % 4 = 0) (hbyte : n = .byte → r.isWord = false) :
    locate p a n = some (r, a - b) :=
  (locate_eq_some_iff hv ..).2 ⟨b, k, hr, by omega, by omega, hw, hbyte⟩

/-- R67 refuses exactly the accesses that are not addressable. -/
theorem locate_isSome_iff {p : Params} (hv : p.Valid) (a : Nat) (n : AccessSize) :
    (∃ r off, locate p a n = some (r, off)) ↔ Addressable p a n := by
  have hv' := hv
  obtain ⟨h1, h2, h3, h4, h5⟩ := hv'
  constructor
  · rintro ⟨r, off, h⟩
    obtain ⟨b, k, hr, rfl, hk, hw, hb⟩ := (locate_eq_some_iff hv ..).1 h
    clear h
    cases n <;> cases r <;>
      simp [RegionAt, Addressable, InByteRegion, InWordRegion, AccessSize.bytes, Region.isWord] at * <;>
      omega
  · intro h
    cases n with
    | byte =>
      have at_ : ∀ (r : Region) (b k : Nat), RegionAt p r b k → b ≤ a → a + 1 ≤ b + k →
          r.isWord = false → ∃ r off, locate p a .byte = some (r, off) := fun r b k hr hb hk hbyte =>
        ⟨r, a - b, locate_of_region r hv hr hb hk (by simp) fun _ => hbyte⟩
      simp only [Addressable, InByteRegion] at h
      rcases h with h | h | h | h | h
      · by_cases h' : a < 0xA0
        · exact at_ .keyin 0x80 0x20 ⟨rfl, rfl⟩ (by omega) (by omega) rfl
        · exact at_ .noncein 0xA0 8 ⟨rfl, rfl⟩ (by omega) (by omega) rfl
      · exact at_ .ksblk 0xC0 0x40 ⟨rfl, rfl⟩ (by omega) (by omega) rfl
      · exact at_ .tmem 0x800 320 ⟨rfl, rfl⟩ (by omega) (by omega) rfl
      · exact at_ .pmem 0x40000000 p.pmax ⟨rfl, rfl⟩ (by omega) (by omega) rfl
      · exact at_ .emem 0x80000000 p.emax ⟨rfl, rfl⟩ (by omega) (by omega) rfl
    | word =>
      simp only [Addressable, InByteRegion, InWordRegion] at h
      have at_ : ∀ (r : Region) (b k : Nat), RegionAt p r b k → b ≤ a → a + 4 ≤ b + k →
          ∃ r off, locate p a .word = some (r, off) := fun r b k hr hb hk =>
        ⟨r, a - b, locate_of_region r hv hr hb hk (fun _ => h.1) (by simp)⟩
      obtain ⟨h0, (h | h | h | h | h) | h | h | h | h⟩ := h
      · by_cases h' : a < 0xA0
        · exact at_ .keyin 0x80 0x20 ⟨rfl, rfl⟩ (by omega) (by omega)
        · exact at_ .noncein 0xA0 8 ⟨rfl, rfl⟩ (by omega) (by omega)
      · exact at_ .ksblk 0xC0 0x40 ⟨rfl, rfl⟩ (by omega) (by omega)
      · exact at_ .tmem 0x800 320 ⟨rfl, rfl⟩ (by omega) (by omega)
      · exact at_ .pmem 0x40000000 p.pmax ⟨rfl, rfl⟩ (by omega) (by omega)
      · exact at_ .emem 0x80000000 p.emax ⟨rfl, rfl⟩ (by omega) (by omega)
      · exact at_ .csr 0 0x4C ⟨rfl, rfl⟩ (by omega) (by omega)
      · exact at_ .freq 0x400 0x400 ⟨rfl, rfl⟩ (by omega) (by omega)
      · exact at_ .node 0x2000 0x1FF0 ⟨rfl, rfl⟩ (by omega) (by omega)
      · exact at_ .cb 0x4000 0x4000 ⟨rfl, rfl⟩ (by omega) (by omega)

/-- Where the host may write, and which accepted access goes to CMD (R61). -/
theorem locate_writable {p : Params} (hv : p.Valid) {a : Nat} {n : AccessSize} {r : Region} {off : Nat}
    (h : locate p a n = some (r, off)) :
    (hostWritable r off = true ↔ InWritable p a) ∧ ((r = .csr ∧ off = 0) ↔ a = 0) := by
  obtain ⟨b, k, hr, rfl, hk, hw, hb⟩ := (locate_eq_some_iff hv ..).1 h
  obtain ⟨h1, h2, h3, h4, h5⟩ := hv
  cases n <;> cases r <;>
    simp [RegionAt, InWritable, hostWritable, AccessSize.bytes, Region.isWord] at * <;> omega


/-- A run of bytes stored in a byte table, where it fits (R31). -/
theorem getD_storeBytes {k : Nat} (t : Table Byte k) (off : Nat) (bs : List Byte)
    (h : off + bs.length ≤ k) (j : Nat) (d : Byte) :
    (t.storeBytes off bs).getD j d =
      if off ≤ j ∧ j < off + bs.length then bs.getD (j - off) d else t.getD j d := by
  induction bs generalizing t off with
  | nil => simp [Table.storeBytes]
  | cons b bs ih =>
    rw [List.length_cons] at h
    rw [Table.storeBytes, ih _ _ (by omega), table_setNat_getD _ _ _ _ (by omega), List.length_cons]
    by_cases h1 : off = j
    · subst h1; simp
    · by_cases h2 : off + 1 ≤ j ∧ j < off + 1 + bs.length
      · rw [if_pos h2, if_pos (by omega), show j - off = j - (off + 1) + 1 by omega, List.getD_cons_succ]
      · rw [if_neg h2, if_neg (by omega), if_neg (by omega)]

/-- What an accepted write stores outside CMD touches PLEN, KEYIN, NONCEIN, FREQ and PMEM alone (R61). -/
theorem store_frame (s : State) (r : Region) (off : Nat) (n : AccessSize) (v : Word) :
    s.store r off n v =
      { s with
        plen := (s.store r off n v).plen
        keyin := (s.store r off n v).keyin
        noncein := (s.store r off n v).noncein
        freq := (s.store r off n v).freq
        mem := (s.store r off n v).mem } := by
  unfold State.store
  cases r with
  | csr => by_cases h : off = 0x014 <;> simp [h]
  | _ => rfl

/-- Where an accepted access lies, whatever the parameters are: inside one region, at its offset. -/
theorem locate_within {p : Params} {a : Nat} {n : AccessSize} {r : Region} {off : Nat}
    (h : locate p a n = some (r, off)) :
    ∃ b k, RegionAt p r b k ∧ a = b + off ∧ off + n.bytes ≤ k := by
  unfold locate at h
  split at h
  · cases h
  · rename_i row hrow
    have hm := (mem_addressMap_iff p row).1 (List.mem_of_find?_eq_some hrow)
    have hin := List.find?_some hrow
    simp only [Bool.and_eq_true, decide_eq_true_eq] at hin
    split at h
    · cases h
    · split at h
      · cases h
      · split at h
        · cases h
        · cases h
          exact ⟨row.base, row.size, hm, by omega, by omega⟩

/-- What an accepted write stores leaves every byte outside PMEM as it was: TMEM and EMEM are read-only to the
host (R61). -/
theorem byteAt_store {s : State} {a : Nat} {n : AccessSize} {v : Word} {r : Region} {off : Nat}
    (h : locate s.cfg a n = some (r, off)) {x : Nat} (hx : x < pmemBase ∨ pmemBase + s.cfg.pmax ≤ x) :
    (s.store r off n v).byteAt x = s.byteAt x := by
  obtain ⟨b, k, hr, -, hk⟩ := locate_within h
  cases r with
  | pmem =>
    have hl : (writeBytes n v).length = n.bytes := by cases n <;> rfl
    rw [State.store, byteAt_writeRun, hl, if_neg]
    simp only [RegionAt] at hr
    omega
  | csr => rw [State.store]; split <;> rfl
  | _ => rfl

/-- An accepted access goes to CMD only at address 0 (R22). -/
theorem locate_cmd {p : Params} {a : Nat} {n : AccessSize} (h : locate p a n = some (.csr, 0)) : a = 0 := by
  obtain ⟨b, k, hr, rfl, -⟩ := locate_within h
  simp only [RegionAt] at hr
  omega

/-- The access that goes to CMD is accepted (R22). -/
theorem locate_csr_zero (p : Params) : locate p 0 .word = some (.csr, 0) := rfl

/-! ### Events -/

theorem command_clr {s : State} (h : s.err ≠ 0) : s.command clrWord = exec .clr s := by
  rw [State.command, if_pos h, if_pos rfl]

theorem command_ignored {s : State} {w : Word} (h : s.err ≠ 0) (hw : w ≠ clrWord) :
    s.command w = .next s := by
  rw [State.command, if_pos h, if_neg hw]

theorem command_legal {s : State} {w : Word} {i : Instr} (h : s.err = 0) (hw : decode w = .command i) :
    s.command w = exec i s := by
  simp [State.command, h, hw]

theorem command_rejected {s : State} {w : Word} {e : DecodeError} (h : s.err = 0)
    (hw : decode w = .rejected e) :
    s.command w = .next (s.raise (.badWord (decodeErrorInfo e)) w) := by
  simp [State.command, h, hw]

/-- What a write to CMD can do (R93). -/
theorem command_next {s t : State} {w : Word} (h : s.command w = .next t) :
    (s.err ≠ 0 ∧ w = clrWord ∧ exec .clr s = .next t) ∨
    (s.err ≠ 0 ∧ w ≠ clrWord ∧ t = s) ∨
    (s.err = 0 ∧ ∃ i, decode w = .command i ∧ exec i s = .next t) ∨
    (s.err = 0 ∧ ∃ e, decode w = .rejected e ∧ t = s.raise (.badWord (decodeErrorInfo e)) w) := by
  unfold State.command at h
  split at h
  · rename_i he
    split at h
    · exact .inl ⟨he, by assumption, h⟩
    · cases h
      exact .inr (.inl ⟨he, by assumption, rfl⟩)
  · rename_i he
    simp only [ne_eq, Decidable.not_not] at he
    split at h
    · exact .inr (.inr (.inl ⟨he, _, by assumption, h⟩))
    · cases h
      exact .inr (.inr (.inr ⟨he, _, by assumption, rfl⟩))

/-- What a write of the host's can do (R63, R67). -/
theorem memWrite_next {s t : State} {a : Word} {n : AccessSize} {v : Word}
    (h : s.memWrite a n v = .next t) :
    ((∀ r off, locate s.cfg a.toNat n = some (r, off) → hostWritable r off = false) ∧
      t = s.respond ⟨false, 0⟩) ∨
    (∃ r off, locate s.cfg a.toNat n = some (r, off) ∧ hostWritable r off = true ∧
      ¬ (r = .csr ∧ off = 0) ∧ t = (s.respond ⟨true, 0⟩).store r off n v) ∨
    (locate s.cfg a.toNat n = some (.csr, 0) ∧ (s.respond ⟨true, 0⟩).command v = .next t) := by
  unfold State.memWrite at h
  split at h
  · cases h
    refine .inl ⟨fun r off h => ?_, rfl⟩
    simp_all
  · rename_i r off hl
    split at h
    · split at h
      · rename_i hc
        obtain ⟨rfl, rfl⟩ := hc
        exact .inr (.inr ⟨hl, h⟩)
      · cases h
        exact .inr (.inl ⟨r, off, hl, by assumption, by assumption, rfl⟩)
    · cases h
      refine .inl ⟨fun r' off' h' => ?_, rfl⟩
      rw [hl] at h'
      cases h'
      exact Bool.eq_false_iff.2 ‹¬ hostWritable r off = true›

/-- What one step can do. -/
theorem step_next {s t : State} (h : step s = .next t) :
    (s.pending = [] ∧ t = s) ∨
    (∃ a n rest, s.pending = .read a n :: rest ∧
      t = { s with pending := rest, resp := some (s.memRead a n) }) ∨
    (∃ rest, s.pending = .reset :: rest ∧ t = ({ s with pending := rest } : State).hardReset) ∨
    (∃ a n v rest, s.pending = .write a n v :: rest ∧
      ({ s with pending := rest } : State).memWrite a n v = .next t) := by
  unfold step State.serveNext at h
  split at h
  · cases h
    exact .inl ⟨by assumption, rfl⟩
  · rename_i e rest hp
    cases e with
    | read a n =>
      cases h
      exact .inr (.inl ⟨a, n, rest, hp, rfl⟩)
    | write a n v => exact .inr (.inr (.inr ⟨a, n, v, rest, hp, h⟩))
    | reset =>
      cases h
      exact .inr (.inr (.inl ⟨rest, hp, rfl⟩))

/-- The step that serves a command (R70). -/
theorem step_command {s : State} {w : Word} {rest : List HostEvent}
    (h : s.pending = .write 0 .word w :: rest) :
    step s = ({ s with pending := rest, resp := some ⟨true, 0⟩ } : State).command w := by
  unfold step State.serveNext
  rw [h]
  simp only [State.serve]
  unfold State.memWrite
  have : locate s.cfg (0 : Word).toNat .word = some (.csr, 0) := locate_csr_zero _
  simp only [this]
  simp [hostWritable, State.respond]

end Sys2Proof.Laws
end

