-- ==== Sys2Proof/Laws/Mask.lean ====
section
/-! SUPPORT. What masking a run of bytes does, byte by byte. -/

namespace Sys2Proof.Laws

open Sys2Proof.Machine

theorem length_maskBytes (k : Table Byte 32) (nonce : Table Byte 8) (n : Nat) (c : DWord) (d : List Byte)
    (h : d.length ≤ 64 * n) : (maskBytes k nonce n c d).length = d.length := by
  induction n generalizing c d with
  | zero => simp at h; simp [h, maskBytes]
  | succ n ih =>
    rw [maskBytes, List.length_append, ih _ _ (by simp; omega)]
    simp [(salsa20block k nonce c).size]
    omega

/-- Byte `i` is masked with byte `i mod 64` of block `c + i div 64` (R182). -/
theorem getD_maskBytes (k : Table Byte 32) (nonce : Table Byte 8) (n : Nat) (c : DWord) (d : List Byte)
    (h : d.length ≤ 64 * n) {i : Nat} (hi : i < d.length) :
    (maskBytes k nonce n c d).getD i 0 =
      d.getD i 0 ^^^ (salsa20block k nonce (c + BitVec.ofNat 64 (i / 64))).getD (i % 64) 0 := by
  induction n generalizing c d i with
  | zero => simp at h; simp [h] at hi
  | succ n ih =>
    have hs := (salsa20block k nonce c).size
    have hz : (List.zipWith (· ^^^ ·) (d.take 64) (salsa20block k nonce c).cells).length =
        min 64 d.length := by simp [hs]
    rw [maskBytes]
    by_cases h64 : i < 64
    · rw [List.getD_append _ _ _ _ (by rw [hz]; omega), Nat.div_eq_of_lt h64, Nat.mod_eq_of_lt h64]
      have h1 : i < (d.take 64).length := by simp; omega
      simp only [Table.getD, BitVec.ofNat_eq_ofNat, BitVec.add_zero]
      rw [List.getD_eq_getElem _ _ (by rw [hz]; omega), List.getElem_zipWith, List.getElem_take,
        List.getD_eq_getElem _ _ hi, List.getD_eq_getElem _ _ (by rw [hs]; omega)]
    · rw [List.getD_append_right _ _ _ _ (by rw [hz]; omega), hz, show min 64 d.length = 64 by omega]
      have := ih (c + 1) (d.drop 64) (i := i - 64) (by simp; omega) (by simp; omega)
      rw [this]
      have e1 : (d.drop 64).getD (i - 64) 0 = d.getD i 0 := by
        rw [List.getD_eq_getElem?_getD, List.getD_eq_getElem?_getD, List.getElem?_drop]
        congr 2; omega
      have e2 : c + 1 + BitVec.ofNat 64 ((i - 64) / 64) = c + BitVec.ofNat 64 (i / 64) := by
        rw [show i / 64 = (i - 64) / 64 + 1 by omega, BitVec.ofNat_add]
        rw [BitVec.add_assoc, BitVec.add_comm 1 (BitVec.ofNat 64 ((i - 64) / 64))]
        rfl
      rw [e1, e2, show (i - 64) % 64 = i % 64 by omega]

theorem length_le_ceil64 (n : Nat) : n ≤ 64 * ceil64 n := by
  unfold ceil64; omega

/-- What masking a buffer leaves at every address (R181, R182). -/
theorem byteAt_maskBuffer (s : State) (base len x : Nat) :
    (s.maskBuffer base len).byteAt x =
      if base ≤ x ∧ x < base + len then
        s.byteAt x ^^^
          (salsa20block s.key s.nonce (s.ctr + BitVec.ofNat 64 ((x - base) / 64))).getD ((x - base) % 64) 0
      else s.byteAt x := by
  have hl : (maskBytes s.key s.nonce (ceil64 len) s.ctr (s.bytesAt base len)).length = len := by
    rw [length_maskBytes _ _ _ _ _ (by simpa using length_le_ceil64 len)]; simp
  rw [byteAt_of_writeRun (s := s) (t := s.maskBuffer base len) rfl rfl, hl]
  split
  · rename_i h
    have hi : x - base < len := by omega
    rw [getD_maskBytes _ _ _ _ _ (by simpa using length_le_ceil64 len) (by simpa using hi),
      getD_bytesAt _ _ hi, show base + (x - base) = x by omega]
  · rfl

end Sys2Proof.Laws
end

