-- ==== Sys2Proof/Laws/PerInstr.lean ====
section
/-!
SUPPORT. A statement for all commands, proved command by command: the encoding of a legal command decodes to
it (spec/30_encoding.md R91, R92), and the encoding of MASK with the reserved selector does not decode.
-/

namespace Sys2Proof.Laws

open Sys2Proof

/-- The encoding of a legal command decodes to it; that of an illegal one is rejected. -/
def RoundTrip.Statement (i : Instr) : Prop :=
  decode (encode i) = if wellFormed i then .command i else .rejected .reservedBuffer

theorem RoundTrip.clr : RoundTrip.Statement .clr := by unfold RoundTrip.Statement; decide
theorem RoundTrip.count : RoundTrip.Statement .count := by unfold RoundTrip.Statement; decide
theorem RoundTrip.build : RoundTrip.Statement .build := by unfold RoundTrip.Statement; decide
theorem RoundTrip.derive : RoundTrip.Statement .derive := by unfold RoundTrip.Statement; decide
theorem RoundTrip.encode : RoundTrip.Statement .encode := by unfold RoundTrip.Statement; decide
theorem RoundTrip.serialize : RoundTrip.Statement .serialize := by unfold RoundTrip.Statement; decide
theorem RoundTrip.cinit : RoundTrip.Statement .cinit := by unfold RoundTrip.Statement; decide
theorem RoundTrip.nextblk : RoundTrip.Statement .nextblk := by unfold RoundTrip.Statement; decide
theorem RoundTrip.mask (buf : BufSel) : RoundTrip.Statement (.mask buf) := by
  unfold RoundTrip.Statement
  cases buf <;> decide
theorem RoundTrip.keygen : RoundTrip.Statement .keygen := by unfold RoundTrip.Statement; decide

end Sys2Proof.Laws
end

