-- ==== Sys2Proof/Tests/Slice0.lean ====
section
/-!
SUPPORT. Tests of the model against words and values of spec/ (each names its source), and for every statement
with hypotheses a witness: concrete states and operands that meet them together.
-/

namespace Sys2Proof.Tests

open Sys2Proof Sys2Proof.Machine

/-! ### Well-formedness -/

/-- The one ill-formed command: MASK with the reserved selector (R94). -/
theorem test_reserved_buffer_is_ill_formed : ¬ WellFormed (.mask .reserved) := by decide

theorem test_named_buffers_are_well_formed :
    WellFormed (.mask .pmem) ∧ WellFormed (.mask .tmem) ∧ WellFormed (.mask .emem) := by decide

/-! ### Decoding: each word written out from the fields of R91 and the opcodes of R92 -/

-- RSV 31:10 (22 bits), BUF 9:8, OPC 7:0
theorem test_decode_clr : decode 0b0000000000000000000000_00_00000001 = .command .clr := by decide
theorem test_decode_count : decode 0b0000000000000000000000_00_00000010 = .command .count := by decide
theorem test_decode_build : decode 0b0000000000000000000000_00_00000011 = .command .build := by decide
theorem test_decode_derive : decode 0b0000000000000000000000_00_00000100 = .command .derive := by decide
theorem test_decode_encode : decode 0b0000000000000000000000_00_00000101 = .command .encode := by decide
theorem test_decode_serialize : decode 0b0000000000000000000000_00_00000110 = .command .serialize := by
  decide
theorem test_decode_cinit : decode 0b0000000000000000000000_00_00000111 = .command .cinit := by decide
theorem test_decode_nextblk : decode 0b0000000000000000000000_00_00001000 = .command .nextblk := by decide
theorem test_decode_mask_pmem : decode 0b0000000000000000000000_00_00001001 = .command (.mask .pmem) := by
  decide
theorem test_decode_mask_tmem : decode 0b0000000000000000000000_01_00001001 = .command (.mask .tmem) := by
  decide
theorem test_decode_mask_emem : decode 0b0000000000000000000000_10_00001001 = .command (.mask .emem) := by
  decide
theorem test_decode_keygen : decode 0b0000000000000000000000_00_00001010 = .command .keygen := by decide

/-- Rejections (R93, vectors V60 and following): the reserved field is looked at first, then the opcode, then
BUF. -/
theorem test_decode_rejections :
    decode 0x00000000 = .rejected .undefinedOpcode ∧ decode 0x0000000B = .rejected .undefinedOpcode ∧
    decode 0x000003FF = .rejected .undefinedOpcode ∧ decode 0x00000102 = .rejected .bufOutsideMask ∧
    decode 0x00000309 = .rejected .reservedBuffer ∧ decode 0x00000409 = .rejected .reservedFieldSet ∧
    decode 0x80000000 = .rejected .reservedFieldSet := by decide

theorem test_decode_table_word :
    decodeTableWord 32 0x00000209 = some (.mask .emem) ∧ decodeTableWord 32 0x00000309 = none := by decide

/-! ### Small states -/

/-- A block with PMAX = EMAX = 4, right after reset. -/
def small : State := State.resetWith ⟨4, 4⟩

/-- `small` with the payload 41 41 41 43 (V29c). -/
def loaded : State := { small with plen := 4, mem := cellsAt pmemBase [0x41, 0x41, 0x41, 0x43] }

/-- A table of counts from entry 0 on, zeros after them. -/
def counts (l : List Word) : Table Word 256 :=
  (l.zipIdx).foldl (fun t p => t.setNat p.2 p.1) (Table.fill 256 0)

/-- The codebook of V29c: 0x43 has the code `0`, 0x41 the code `1`. -/
def codesAC : Table CodeEntry 256 :=
  ((Table.fill 256 none).setNat 0x43 (some [false])).setNat 0x41 (some [true])

/-- The tree of an empty table (V14): leaves 0x00 and 0x01 and the root above them. -/
def minimal : State :=
  { small with
    status := { Status.zero with treeV := true }
    nnodes := 3, nleaves := 2, root := 2
    node := (((Table.fill 511 Node.zero).setNat 0 (.leaf 0x00 0)).setNat 1 (.leaf 0x01 0)).setNat 2
      (.internal 0 0 1) }

/-- The key K0 = 00 01 .. 1F and the nonce N0 = 80 81 .. 87 of the vectors. -/
def k0 : Table Byte 32 := Table.ofFn fun j => BitVec.ofNat 8 j.val
def n0 : Table Byte 8 := Table.ofFn fun j => BitVec.ofNat 8 (0x80 + j.val)

/-- `loaded` with the cipher initialised for K0 and N0. -/
def ciphered : State :=
  { loaded with key := k0, nonce := n0, status := { Status.zero with ciphV := true } }

/-- An answer of the randomness service: K0, then N0. -/
def answer : Table Byte 40 :=
  Table.ofFn fun j => if j.val < 32 then BitVec.ofNat 8 j.val else BitVec.ofNat 8 (0x80 + (j.val - 32))

/-- The state one command leaves; the same state where it stops. -/
def after (i : Instr) (s : State) : State :=
  match exec i s with
  | .next t => t
  | .fault _ => s
  | .refused _ => s

/-! ### One step each -/

/-- CLR zeroes the registers and leaves the buffers (R191). -/
theorem test_clr : (after .clr ciphered).plen = 0 ∧ (after .clr ciphered).status = Status.zero ∧
    (after .clr ciphered).byteAt pmemBase = 0x41 := by decide +kernel

/-- COUNT on 41 41 41 43 (V29c): three and one. -/
theorem test_count : freqOf (after .count loaded).freq 0x41 = 3 ∧ freqOf (after .count loaded).freq 0x43 = 1 ∧
    freqOf (after .count loaded).freq 0x42 = 0 := by decide +kernel

/-- BUILD on the counts 1, 1, 2, 3, 5, 8 (V21): a leaf wins the tie against an older internal node. -/
theorem test_build_ties :
    (after .build { small with freq := counts [1, 1, 2, 3, 5, 8] }).nodeAt 7 = .internal 4 2 6 ∧
    (after .build { small with freq := counts [1, 1, 2, 3, 5, 8] }).nodeAt 10 = .internal 20 5 9 := by
  decide +kernel

/-- BUILD with one present byte (V15): FREQ[0x00] = 1 has the phantom on the left. -/
theorem test_build_phantom :
    (after .build { small with freq := counts [1] }).nodeAt 2 = .internal 1 1 0 ∧
    (after .build { small with freq := counts [1] }).nodeAt 1 = .leaf 0x01 0 := by decide +kernel

/-- DERIVE on the minimal tree (V25): 0x00 `0`, 0x01 `1`. -/
theorem test_derive : codeOf (after .derive minimal).cb 0x00 = some [false] ∧
    codeOf (after .derive minimal).cb 0x01 = some [true] ∧
    codeOf (after .derive minimal).cb 0x02 = none := by decide +kernel

/-- ENCODE of 41 41 41 43 with the codes of V29c: E0, 4 bits. -/
theorem test_encode :
    (after .encode { loaded with cb := codesAC }).byteAt ememBase = 0xE0 ∧
    (after .encode { loaded with cb := codesAC }).ebits = 4 ∧
    (after .encode { loaded with cb := codesAC }).olen = 4 := by decide +kernel

/-- ENCODE with a byte that has no code (V29c): EncodingPrecondition with its index. -/
theorem test_encode_missing :
    (after .encode { loaded with cb := codesAC.setNat 0x43 none }).err = 2 ∧
    (after .encode { loaded with cb := codesAC.setNat 0x43 none }).errinfo = 3 := by decide +kernel

/-- SERIALIZE of the minimal tree (V1): 40 20 20, 19 bits. -/
theorem test_serialize : (after .serialize minimal).bytesAt tmemBase 3 = [0x40, 0x20, 0x20] ∧
    (after .serialize minimal).tbits = 19 := by decide +kernel

/-- CINIT sets CIPH_V, clears KS_V, and copies the key (R165). -/
theorem test_cinit :
    (after .cinit { small with keyin := k0, ctr := 7 }).ctr = 0 ∧
    (after .cinit { small with keyin := k0, ctr := 7 }).key.getD 31 0 = 0x1F ∧
    (after .cinit { small with status := { Status.zero with ksV := true } }).status.word = 0x10 := by
  decide +kernel

/-- NEXTBLK with K0 and N0 (V45): block 0 begins B5 6D C5 00. -/
theorem test_nextblk :
    (after .nextblk ciphered).ksblk.cells.take 4 = [0xB5, 0x6D, 0xC5, 0x00] ∧
    (after .nextblk ciphered).ctr = 1 := by decide +kernel

/-- MASK PMEM over four zero bytes with K0 and N0 (program P4). -/
theorem test_mask :
    (after (.mask .pmem) { ciphered with mem := cellsAt pmemBase [0, 0, 0, 0] }).bytesAt pmemBase 4 =
      [0xB5, 0x6D, 0xC5, 0x00] := by decide +kernel

/-- MASK over an empty buffer uses no block (R181, program P2). -/
theorem test_mask_empty : (after (.mask .emem) ciphered).ctr = 0 ∧
    (after (.mask .emem) ciphered).status.ksV = false := by decide +kernel

/-- KEYGEN stores key and nonce (R193). -/
theorem test_keygen :
    (after .keygen { small with rng := [.bytes answer] }).keyin = k0 ∧
    (after .keygen { small with rng := [.bytes answer] }).noncein = n0 := by decide +kernel

/-- KEYGEN where the service fails: ERR = 3, ERRCMD = 0x0000000A (program P3). -/
theorem test_keygen_fails :
    (after .keygen { small with rng := [.fail] }).err = 3 ∧
    (after .keygen { small with rng := [.fail] }).errcmd = 0x0000000A := by decide +kernel

/-! ### Memory and the bus -/

theorem test_reset_memory_wf : Memory.wf State.reset.mem := List.Pairwise.nil

/-- A word read is little-endian (R64): 41 41 41 43 reads 0x43414141. -/
theorem test_word_read : loaded.memRead 0x40000000 .word = ⟨true, 0x43414141⟩ := by decide +kernel

/-- Refusals (R67): outside every region, misaligned, a byte of a word region, past the end of a region. -/
theorem test_refusals :
    loaded.memRead 0x0000004C .word = ⟨false, 0⟩ ∧ loaded.memRead 0x40000001 .word = ⟨false, 0⟩ ∧
    loaded.memRead 0x00000008 .byte = ⟨false, 0⟩ ∧ loaded.memRead 0x40000004 .byte = ⟨false, 0⟩ := by
  decide +kernel

/-! ### Witnesses: the bus and dispatch -/

/-- `small` with one event pending. -/
def withEvent (e : HostEvent) : State := { small with pending := [e] }

/-- `small` in the FAULT state with one event pending. -/
def faulted (e : HostEvent) : State :=
  { small with pending := [e], err := 5, errcmd := 0x00000309, errinfo := 2
               status := { Status.zero with fault := true } }

theorem witness_CommandWriteDispatches :
    (faulted (commandEvent 1)).pending = .write 0 .word 1 :: [] ∧ (faulted (commandEvent 1)).err ≠ 0 ∧
    (faulted (commandEvent 2)).pending = .write 0 .word 2 :: [] ∧ (faulted (commandEvent 2)).err ≠ 0 ∧
    (2 : Word) ≠ 1 ∧
    ∀ w ∈ ([0, 11, 0x30B, 0x3FF, 0x101, 0x30A, 0x309, 0x400, 0xFFFFFFFF, 1, 0x209] : List Word),
      (withEvent (commandEvent w)).pending = .write 0 .word w :: [] ∧
      (withEvent (commandEvent w)).err = 0 :=
  ⟨rfl, by simp [faulted], rfl, by simp [faulted], by decide, fun _ _ => ⟨rfl, rfl⟩⟩

/-- Each clause of that statement at the ends of its range of words. -/
theorem witness_CommandWriteDispatches_words :
    (1024 ≤ (0x400 : Word).toNat ∧ 1024 ≤ (0xFFFFFFFF : Word).toNat) ∧
    (∀ w ∈ ([0, 11, 0x30B, 0x3FF] : List Word),
      w.toNat < 1024 ∧ (w.toNat % 256 = 0 ∨ 10 < w.toNat % 256)) ∧
    (∀ w ∈ ([0x101, 0x30A] : List Word), w.toNat < 1024 ∧ 1 ≤ w.toNat % 256 ∧ w.toNat % 256 ≤ 10 ∧
      w.toNat % 256 ≠ 9 ∧ 256 ≤ w.toNat) ∧
    (0x309 : Word).toNat = 0x309 ∧
    (WellFormed .clr ∧ encode .clr = 1) ∧ (WellFormed (.mask .emem) ∧ encode (.mask .emem) = 0x209) := by
  refine ⟨by simp, by simp, by simp, by simp, by decide, by decide⟩

theorem witness_StepRunsDecodedCommand :
    (withEvent (commandEvent 0x109)).pending = .write 0 .word 0x109 :: [] ∧
    (withEvent (commandEvent 0x109)).err = 0 ∧ decode 0x109 = .command (.mask .tmem) := by decide

theorem witness_IdleStepWaits : small.pending = [] := rfl

theorem witness_ReadChangesNothing :
    (withEvent (.read 0x40000003 .byte)).pending = .read 0x40000003 .byte :: [] := rfl

theorem small_valid : small.cfg.Valid := by decide

theorem witness_ClrClearsInvocation :
    (faulted (commandEvent 1)).pending = .write 0 .word 0x00000001 :: [] := rfl

/-- Accesses at the ends of regions: the last byte and word of TMEM and PMEM, and the first address past them;
a write that is accepted, one to a location the host may not write, one that is refused. -/
theorem witness_RefusalIsExact :
    small.cfg.Valid ∧ Addressable small.cfg 0x93F .byte ∧ Addressable small.cfg 0x93C .word ∧
    Addressable small.cfg 0x40000003 .byte ∧ ¬ Addressable small.cfg 0x940 .byte ∧
    ¬ Addressable small.cfg 0x40000004 .byte ∧ ¬ Addressable small.cfg 0x04C .word ∧
    (Addressable small.cfg 0x014 .word ∧ InWritable small.cfg 0x014) ∧
    (Addressable small.cfg 0x010 .word ∧ ¬ InWritable small.cfg 0x010) ∧
    ((withEvent (.write 0x014 .word 3)).pending = .write 0x014 .word 3 :: [] ∧
      (withEvent (.read 0x93C .word)).pending = .read 0x93C .word :: []) := by
  refine ⟨by decide, ?_, ?_, ?_, ?_, ?_, ?_, ?_, ?_, rfl, rfl⟩ <;>
    simp [Addressable, InByteRegion, InWordRegion, InWritable, small, State.resetWith]

theorem witness_WordReadIsLittleEndian :
    InByteRegion small.cfg (0x0A4 : Word).toNat ∧ (0x0A4 : Word).toNat % 4 = 0 ∧
    InByteRegion small.cfg (0x93C : Word).toNat ∧ (0x93C : Word).toNat % 4 = 0 := by
  simp [InByteRegion]

theorem witness_HostWriteReadsBack :
    small.cfg.Valid ∧
    (Addressable small.cfg (0x400 : Word).toNat .word ∧ InWritable small.cfg (0x400 : Word).toNat ∧
      (0x400 : Word).toNat ≠ 0) ∧
    (Addressable small.cfg (0x40000003 : Word).toNat .byte ∧ InWritable small.cfg (0x40000003 : Word).toNat) ∧
    (withEvent (.write 0x40000003 .byte 0x1FF)).pending = .write 0x40000003 .byte 0x1FF :: [] := by
  refine ⟨by decide, ?_, ?_, rfl⟩ <;>
    simp [Addressable, InByteRegion, InWordRegion, InWritable, small, State.resetWith]

/-- A leaf at record 0, an internal record 2, and the last record of the arena. -/
theorem witness_NodeReadsReturnRecord :
    minimal.nodeAt 0 = .leaf 0x00 0 ∧ minimal.nodeAt 2 = .internal 0 0 1 ∧
    minimal.nodeAt 510 = .internal 0 0 0 ∧
    ∃ word : Nat → BusResp,
      ∀ k, word k = minimal.memRead (BitVec.ofNat 32 (0x2000 + 16 * 510 + 4 * k)) .word :=
  ⟨by decide +kernel, by decide +kernel, by decide +kernel, _, fun _ => rfl⟩

/-- No code, a code of one bit, and a code of 255 bits. -/
theorem witness_CodebookReadsReturnRecord :
    codeOf codesAC 0x42 = none ∧ codeOf codesAC 0x41 = some [true] ∧
    codeOf (codesAC.setNat 0xFF (some (List.replicate 255 true))) 0xFF = some (List.replicate 255 true) ∧
    (List.replicate 255 true).length ≤ 255 ∧
    ∃ word : Nat → BusResp,
      ∀ k, word k = small.memRead (BitVec.ofNat 32 (0x4000 + 64 * (0xFF : Byte).toNat + 4 * k)) .word :=
  ⟨by decide +kernel, by decide +kernel, by decide +kernel, le_of_eq List.length_replicate, _, fun _ => rfl⟩

theorem witness_BufferReadsReturnBytes : small.cfg.Valid := small_valid

theorem witness_ResetEventClearsBlock : (faulted .reset).pending = .reset :: [] := rfl

/-! ### Witnesses: COUNT and BUILD -/

/-- PLEN at PMAX, and just above it (V12). -/
theorem witness_CountCountsPayloadOrRaises :
    loaded.cfg.Valid ∧ loaded.plen.toNat ≤ loaded.cfg.pmax ∧
    ({ loaded with plen := 5 } : State).cfg.pmax < ({ loaded with plen := 5 } : State).plen.toNat := by
  decide

theorem witness_CountsSumToPayloadLength :
    loaded.cfg.Valid ∧ loaded.plen.toNat ≤ loaded.cfg.pmax ∧ ∃ t, exec .count loaded = .next t :=
  ⟨by decide, by decide, _, rfl⟩

/-- Counts that sum to 2^32 - 1, the largest total BUILD accepts (V22). -/
def largest : State := { small with freq := counts [0xFFFFFFFE, 1] }

theorem largest_total : freqTotal largest.freq = 2 ^ 32 - 1 := by decide +kernel

theorem witness_BuildMergesLeastTwoOrRaises :
    freqTotal largest.freq ≤ 2 ^ 32 - 1 ∧
    2 ^ 32 - 1 < freqTotal ({ small with freq := counts [0xFFFFFFFF, 1] } : State).freq :=
  ⟨le_of_eq largest_total, by decide +kernel⟩

theorem witness_BuildLeavesStrictTree : freqTotal largest.freq ≤ 2 ^ 32 - 1 := le_of_eq largest_total

theorem build_goes_on (s : State) : ∃ t, exec .build s = .next t := ⟨_, rfl⟩

theorem witness_RootWeightIsTotal :
    freqTotal largest.freq ≤ 2 ^ 32 - 1 ∧ ∃ t, exec .build largest = .next t :=
  ⟨le_of_eq largest_total, build_goes_on _⟩

/-- The largest total and one above it, each with another state of the same counts. -/
theorem witness_BuildDependsOnlyOnFreq :
    (freqTotal largest.freq ≤ 2 ^ 32 - 1 ∧ largest.freq = ({ largest with plen := 1 } : State).freq) ∧
    2 ^ 32 - 1 < freqTotal ({ small with freq := counts [0xFFFFFFFF, 1] } : State).freq :=
  ⟨⟨le_of_eq largest_total, rfl⟩, by decide +kernel⟩

/-- An even byte value and an odd one, with the largest count. -/
theorem witness_SingleByteTreeHasPhantom :
    ((∀ c, freqOf (counts [0xFFFFFFFF]) c ≠ 0 ↔ c = 0x00) ∧
      freqOf (counts [0xFFFFFFFF]) 0x00 = (0xFFFFFFFF : Word).toNat) ∧
    (∀ c, freqOf (counts [0, 1]) c ≠ 0 ↔ c = 0x01) ∧
      freqOf (counts [0, 1]) 0x01 = (1 : Word).toNat := by decide +kernel

theorem witness_EmptyTableTreeIsMinimal : ∀ c, freqOf small.freq c = 0 := by decide +kernel

/-! ### Witnesses: the tree -/

theorem minimal_nodeAt :
    minimal.nodeAt 0 = .leaf 0x00 0 ∧ minimal.nodeAt 1 = .leaf 0x01 0 ∧
    minimal.nodeAt 2 = .internal 0 0 1 := by decide +kernel

/-- The minimal tree meets the arena's invariant. -/
theorem minimal_arenaOk : minimal.ArenaOk := by
  obtain ⟨h0, h1, h2⟩ := minimal_nodeAt
  have three : ∀ i < 3, i = 0 ∨ i = 1 ∨ i = 2 := by omega
  have two : ∀ i < 2, i = 0 ∨ i = 1 := by omega
  have path : ∀ (i : Nat) (c : List Bool), follow minimal.nodeAt 2 c = some i → i < 2 →
      c = if i = 0 then [false] else [true] := by
    intro i c h hi
    match c with
    | [] => simp only [follow, Option.some.injEq] at h; omega
    | [x] =>
      simp only [follow, h2, Option.some.injEq] at h
      cases x <;> simp at h <;> subst h <;> rfl
    | x :: y :: c => cases x <;> simp [follow, h0, h1, h2] at h
  refine ⟨by decide, by decide, by decide, ?_, ?_, ?_, ?_, ?_, ?_, ?_⟩
  · intro i hi
    rcases two i hi with rfl | rfl
    · exact ⟨_, _, h0⟩
    · exact ⟨_, _, h1⟩
  · intro i j b c v w hij hj hb hc
    obtain ⟨rfl, rfl⟩ : i = 0 ∧ j = 1 := by
      have hj : j < 2 := hj
      omega
    rw [h0] at hb
    rw [h1] at hc
    cases hb; cases hc
    decide
  · intro i hi hi'
    obtain rfl : i = 2 := by
      have hi : 2 ≤ i := hi
      have hi' : i < 3 := hi'
      omega
    refine ⟨_, _, _, h2, by decide, by decide, by decide, ?_⟩
    show _ = (minimal.nodeAt 0).weight + (minimal.nodeAt 1).weight
    rw [h0, h1]
    rfl
  · intro i hi
    refine ⟨2, by decide, ?_, ?_⟩
    · rw [h2]
      rcases two i hi with rfl | rfl <;> decide
    · intro q hq hm
      rcases three q hq with rfl | rfl | rfl
      · rw [h0] at hm; simp [Node.children] at hm
      · rw [h1] at hm; simp [Node.children] at hm
      · rfl
  · intro i hi h
    have h : 3 ≤ i := h
    show ((((Table.fill 511 Node.zero).setNat 0 _).setNat 1 _).setNat 2 _).getD i Node.zero = _
    rw [Laws.table_setNat_getD _ _ _ _ (by omega), if_neg (by omega),
      Laws.table_setNat_getD _ _ _ _ (by omega), if_neg (by omega),
      Laws.table_setNat_getD _ _ _ _ (by omega), if_neg (by omega), Laws.table_fill_getD _ _ hi]
  · intro i hi
    refine ⟨if i = 0 then [false] else [true], ?_, fun d hd => path i d hd hi⟩
    show follow minimal.nodeAt 2 _ = _
    rcases two i hi with rfl | rfl <;> simp [follow, h2]
  · exact ⟨.node (.leaf 0x00) (.leaf 0x01), by decide +kernel⟩

theorem witness_DeriveGivesPathCodesOrRaises :
    small.status.treeV = false ∧ minimal.status.treeV = true ∧ minimal.ArenaOk :=
  ⟨rfl, rfl, minimal_arenaOk⟩

theorem minimal_tree : minimal.tree? = some (.node (.leaf 0x00) (.leaf 0x01)) := by decide +kernel

theorem witness_DerivedCodesArePrefixFree :
    minimal.status.treeV = true ∧ minimal.ArenaOk ∧ ∃ t, exec .derive minimal = .next t := by
  refine ⟨rfl, minimal_arenaOk, ?_⟩
  simp only [exec, execDerive, minimal_tree]
  exact ⟨_, rfl⟩

theorem witness_SerializeEmitsPreorderOrRaises :
    small.status.treeV = false ∧ minimal.status.treeV = true ∧ minimal.ArenaOk :=
  ⟨rfl, rfl, minimal_arenaOk⟩

theorem witness_SerializedSizeLaw :
    minimal.status.treeV = true ∧ minimal.ArenaOk ∧ ∃ t, exec .serialize minimal = .next t := by
  refine ⟨rfl, minimal_arenaOk, ?_⟩
  simp only [exec, execSerialize, minimal_tree]
  exact ⟨_, rfl⟩

theorem witness_SerializedTreeReadsBack :
    minimal.status.treeV = true ∧ minimal.ArenaOk ∧ ∃ t, exec .serialize minimal = .next t :=
  witness_SerializedSizeLaw

/-! ### Witnesses: ENCODE -/

/-- A codebook whose codes have ten bits, so that four bytes do not fit an EMEM of 4 bytes (V29d). -/
def longCodes : Table CodeEntry 256 := (Table.fill 256 none).setNat 0x41 (some (List.replicate 10 true))

/-- The same with eight bits, where they fit exactly. -/
def fittingCodes : Table CodeEntry 256 := (Table.fill 256 none).setNat 0x41 (some (List.replicate 8 true))

/-- The payload 41 41 41 41, PLEN = PMAX = EMAX = 4. -/
def fours : State := { small with plen := 4, mem := cellsAt pmemBase [0x41, 0x41, 0x41, 0x41] }

/-- ENCODE on a full EMEM; then each error: a payload one byte too long, a last byte without a code, an output
one byte too long. -/
theorem witness_EncodePacksCodesOrRaises :
    (let s : State := { fours with cb := fittingCodes }
     s.cfg.Valid ∧ s.plen.toNat ≤ s.cfg.pmax ∧
      (∀ i < s.plen.toNat, codeOf s.cb (s.byteAt (pmemBase + i)) ≠ none) ∧
      ceil8 ((List.range s.plen.toNat).map fun i =>
        (codeOf s.cb (s.byteAt (pmemBase + i))).getD []).flatten.length ≤ s.cfg.emax) ∧
    (({ fours with plen := 5 } : State).cfg.pmax < ({ fours with plen := 5 } : State).plen.toNat) ∧
    (let s : State := { loaded with cb := codesAC.setNat 0x43 none }
     s.plen.toNat ≤ s.cfg.pmax ∧ 3 < s.plen.toNat ∧ codeOf s.cb (s.byteAt (pmemBase + 3)) = none ∧
      ∀ j < 3, codeOf s.cb (s.byteAt (pmemBase + j)) ≠ none) ∧
    (let s : State := { fours with cb := longCodes }
     s.plen.toNat ≤ s.cfg.pmax ∧ (∀ i < s.plen.toNat, codeOf s.cb (s.byteAt (pmemBase + i)) ≠ none) ∧
      s.cfg.emax < ceil8 ((List.range s.plen.toNat).map fun i =>
        (codeOf s.cb (s.byteAt (pmemBase + i))).getD []).flatten.length) := by decide +kernel

theorem witness_PackPlacesBits :
    1 < ceil8 [false, true, true, false, true, true, true, false, true].length ∧
    9 ≤ 8 * [(0x6E : Byte), 0x80].length := by decide

/-- A payload that fills PMAX, with EMAX no larger. -/
theorem witness_HuffmanRoundTrip :
    loaded.cfg.Valid ∧ loaded.err = 0 ∧ [0x41, 0x41, 0x41, (0x43 : Byte)].length = loaded.plen.toNat ∧
    (∀ i < 4, loaded.byteAt (pmemBase + i) = [0x41, 0x41, 0x41, (0x43 : Byte)].getD i 0) ∧
    [0x41, 0x41, 0x41, (0x43 : Byte)].length ≤ loaded.cfg.pmax := by decide +kernel

theorem witness_EncodedPayloadNeverGrows :
    loaded.cfg.Valid ∧ loaded.plen.toNat ≤ loaded.cfg.pmax := by decide

theorem witness_PipelineRoundTrip :
    loaded.cfg.Valid ∧ loaded.err = 0 ∧ [0x41, 0x41, 0x41, (0x43 : Byte)].length = loaded.plen.toNat ∧
    (∀ i < 4, loaded.byteAt (pmemBase + i) = [0x41, 0x41, 0x41, (0x43 : Byte)].getD i 0) ∧
    [0x41, 0x41, 0x41, (0x43 : Byte)].length ≤ loaded.cfg.pmax := witness_HuffmanRoundTrip

/-- Eight bytes as a double word, from the words of vector V43: 6D 6E .. 74 (R17). -/
theorem test_le64 : le64 0x6D 0x6E 0x6F 0x70 0x71 0x72 0x73 0x74 = 0x74737271706F6E6D ∧
    le64bytes 0x74737271706F6E6D = [0x6D, 0x6E, 0x6F, 0x70, 0x71, 0x72, 0x73, 0x74] := by decide

/-! ### Witnesses: the cipher, MASK and KEYGEN -/

/-- CTR at the last value for which NEXTBLK generates a block, and at the value for which it does not. -/
theorem witness_NextblkGeneratesBlockOrRaises :
    small.status.ciphV = false ∧ ciphered.status.ciphV = true ∧
    ({ ciphered with ctr := 0xFFFFFFFFFFFFFFFE } : State).ctr.toNat < 2 ^ 64 - 1 ∧
    ({ ciphered with ctr := 0xFFFFFFFFFFFFFFFF } : State).ctr.toNat = 2 ^ 64 - 1 := by decide

/-- Lengths 0, 64 and 65 of TMEM with CTR at the end of its range, and a full PMEM. -/
theorem witness_MaskXorsKeystreamOrRaises :
    ciphered.status.ciphV = true ∧
    (∀ p ∈ ([(0, 0xFFFFFFFFFFFFFFFF), (64, 0xFFFFFFFFFFFFFFFE), (65, 0xFFFFFFFFFFFFFFFD)] :
        List (Word × DWord)),
      let s : State := { ciphered with tlen := p.1, ctr := p.2 }
      (BufSel.tmem, (0x00000109 : Word), 0x800, s.tlen.toNat) ∈
        [(BufSel.pmem, (0x00000009 : Word), 0x40000000, s.plen.toNat),
          (BufSel.tmem, (0x00000109 : Word), 0x800, s.tlen.toNat),
          (BufSel.emem, (0x00000209 : Word), 0x80000000, s.elen.toNat)] ∧
      s.ctr.toNat + (s.tlen.toNat + 63) / 64 ≤ 2 ^ 64 - 1) ∧
    ((BufSel.pmem = .pmem → ciphered.plen.toNat ≤ ciphered.cfg.pmax) ∧
      ciphered.ctr.toNat + (ciphered.plen.toNat + 63) / 64 ≤ 2 ^ 64 - 1) := by
  refine ⟨rfl, fun p hp => ⟨List.mem_cons_of_mem _ (List.mem_cons_self ..), ?_⟩, fun _ => by decide, ?_⟩
  · simp only [List.mem_cons, List.not_mem_nil, or_false] at hp
    rcases hp with rfl | rfl | rfl <;> simp
  · simp [ciphered, loaded, small, State.resetWith]

/-- Each error of MASK: no cipher state; a payload too long; one block too many. -/
theorem witness_MaskXorsKeystreamOrRaises_errors :
    loaded.status.ciphV = false ∧
    (let s : State := { ciphered with plen := 5 }
     s.status.ciphV = true ∧ s.cfg.pmax < s.plen.toNat) ∧
    (let s : State := { ciphered with tlen := 65, ctr := 0xFFFFFFFFFFFFFFFE }
     s.status.ciphV = true ∧ 2 ^ 64 - 1 < s.ctr.toNat + (s.tlen.toNat + 63) / 64) ∧
    (let s : State := { ciphered with ctr := 0xFFFFFFFFFFFFFFFF }
     s.status.ciphV = true ∧ s.plen.toNat ≤ s.cfg.pmax ∧
      2 ^ 64 - 1 < s.ctr.toNat + (s.plen.toNat + 63) / 64) := by decide +kernel

theorem witness_MaskTwiceRestoresBuffer :
    WellFormed (.mask .pmem) ∧ (BufSel.pmem = .pmem → loaded.plen.toNat ≤ loaded.cfg.pmax) := by decide

theorem witness_KeygenStoresAnswerOrRaises :
    ({ small with rng := [.bytes answer] } : State).rngAnswer = .bytes answer ∧
    ({ small with rng := [.fail] } : State).rngAnswer = .fail := ⟨rfl, rfl⟩

/-! ### Witnesses: the whole machine -/

/-- A command that ends with an error, and one that draws. -/
theorem witness_ErrorsArePrecise :
    (∃ t, small.err = 0 ∧ exec .derive small = .next t ∧ t.err ≠ 0) ∧
    ∃ t, exec .keygen { small with rng := [.fail] } = .next t ∧ t.err ≠ 0 :=
  ⟨⟨_, rfl, rfl, by decide⟩, ⟨_, rfl, by decide⟩⟩

/-- In the FAULT state: a command that is ignored, host writes that are not (to PLEN and to the last byte of
PMEM), a read, CLR, and reset; and addresses on either side of PMEM. -/
theorem witness_OnlyClrAndResetLeaveFault :
    (∀ e, (faulted e).err ≠ 0) ∧ (∃ t, step (faulted (commandEvent 2)) = .next t) ∧
    (∃ t, step (faulted (.write 0x014 .word 3)) = .next t) ∧
    (∃ t, step (faulted (.write 0x40000003 .byte 7)) = .next t) ∧
    (∃ t, step (faulted (.read 0x008 .word)) = .next t ∧
      ∀ a n v, (faulted (.read 0x008 .word)).pending.head? = some (.write a n v) → a = 0) ∧
    (pmemBase - 1 < pmemBase ∧ pmemBase + (faulted .reset).cfg.pmax ≤ 0x40000004) ∧
    (∃ t, step (faulted (commandEvent 1)) = .next t) ∧ ∃ t, step (faulted .reset) = .next t :=
  ⟨fun _ => by simp [faulted], ⟨_, rfl⟩, ⟨_, rfl⟩, ⟨_, rfl⟩, ⟨_, rfl, fun _ _ _ h => by cases h⟩, by decide,
    ⟨_, rfl⟩, ⟨_, rfl⟩⟩

theorem witness_CounterIsNeverRewound :
    (∃ t, exec .nextblk ciphered = .next t) ∧ Instr.nextblk ≠ .clr ∧ Instr.nextblk ≠ .cinit ∧
    ∃ t, exec .count loaded = .next t :=
  ⟨⟨_, rfl⟩, by decide, by decide, ⟨_, rfl⟩⟩

/-- For each flag a command that changes it. -/
theorem witness_FlagsAreSetByTheirCommand :
    (∃ t, exec .cinit small = .next t ∧ t.status.ciphV ≠ small.status.ciphV) ∧
    (∃ t, exec .nextblk ciphered = .next t ∧ t.status.ksV ≠ ciphered.status.ksV) ∧
    ∃ t, exec .derive minimal = .next t ∧ t.status.cbV ≠ minimal.status.cbV := by
  refine ⟨⟨_, rfl, by decide⟩, ⟨_, rfl, by decide⟩, ?_⟩
  simp only [exec, execDerive, minimal_tree]
  exact ⟨_, rfl, by decide⟩

theorem witness_RepeatedCommandChangesNothing :
    Instr.encode ∉ ([.nextblk, .keygen] : List Instr) ∧ (∀ b, Instr.encode ≠ .mask b) ∧ loaded.cfg.Valid ∧
    ∃ t, exec .encode loaded = .next t :=
  ⟨by decide, fun b => by cases b <;> decide, by decide, _, rfl⟩

/-- MASK over the four bytes of PMEM, and the addresses next to them. -/
theorem witness_KeystreamDoesNotSteer :
    (∃ t, exec (.mask .pmem) ciphered = .next t) ∧ maskBase .pmem = some 0x40000000 ∧
    (0x3FFFFFFF < 0x40000000 ∧ 0x40000000 + ciphered.maskLength .pmem ≤ 0x40000004) ∧
    (∃ t, exec .nextblk ciphered = .next t) ∧ ∀ b, Instr.nextblk ≠ .mask b :=
  ⟨⟨_, rfl⟩, rfl, by decide, ⟨_, rfl⟩, fun _ h => by cases h⟩

/-- The minimal tree with its DERIVE pending: a state that meets the invariant. -/
def deriving_ : State := { minimal with pending := [commandEvent 0x00000004] }

theorem witness_inv : deriving_.Inv := by
  have arena : deriving_.ArenaOk := by
    obtain ⟨h1, h2, h3, h4, h5, h6, h7, h8, h9, h10⟩ := minimal_arenaOk
    exact ⟨h1, h2, h3, h4, h5, h6, h7, h8, h9, h10⟩
  refine ⟨by decide, by decide, by simp [deriving_, minimal, small, State.resetWith], by decide, by decide,
    by decide, by decide, .inl rfl, by decide, by decide, by decide, by decide, fun _ => rfl, by decide,
    by decide, fun h => absurd h (by decide), fun _ => rfl, fun _ => ⟨rfl, rfl, rfl⟩, fun _ => arena, ?_⟩
  · have none_ : ∀ b, codeOf deriving_.cb b = none := fun b => Laws.table_fill_getD _ _ b.isLt
    constructor
    · intro b c h
      rw [none_] at h
      cases h
    · intro b b' c c' h
      rw [none_] at h
      cases h

theorem witness_StepKeepsInvariant : deriving_.Inv ∧ ∃ t, step deriving_ = .next t := by
  refine ⟨witness_inv, ?_⟩
  have h : ({ minimal with pending := [], resp := some ⟨true, 0⟩ } : State).tree? =
      some (.node (.leaf 0x00) (.leaf 0x01)) := minimal_tree
  show ∃ t, execDerive { minimal with pending := [], resp := some ⟨true, 0⟩ } = .next t
  unfold execDerive
  rw [h]
  exact ⟨_, rfl⟩

theorem witness_InvariantStepGoesOn : deriving_.Inv := witness_inv

end Sys2Proof.Tests
end

/-!
PROOFS of the family 00_scope: byte order (spec/00_scope.md R17), bit packing (R14) and precise errors (R16).
-/

namespace Sys2Proof.Proofs.Scope

open Sys2Proof Sys2Proof.Machine Sys2Proof.Laws

/-! ### Byte order -/

/-- Splitting undoes assembling: four bytes come back from their word (R17). -/
theorem le32bytes_le32 (b0 b1 b2 b3 : Byte) : le32bytes (le32 b0 b1 b2 b3) = [b0, b1, b2, b3] := by
  have byte_k (k : Nat) (b : Byte) (h : (le32 b0 b1 b2 b3).toNat / 2 ^ (8 * k) % 256 = b.toNat) :
      wordByte (le32 b0 b1 b2 b3) k = b :=
    BitVec.eq_of_toNat_eq ((wordByte_toNat _ k).trans h)
  have h0 := b0.isLt
  have h1 := b1.isLt
  have h2 := b2.isLt
  have h3 := b3.isLt
  rw [le32bytes, byte_k 0 b0, byte_k 1 b1, byte_k 2 b2, byte_k 3 b3] <;> rw [le32_toNat] <;> omega

/-- The weights of `le64`: its second word counts 2^32 times (R17). -/
theorem le64_toNat (b0 b1 b2 b3 b4 b5 b6 b7 : Byte) :
    (le64 b0 b1 b2 b3 b4 b5 b6 b7).toNat =
      2 ^ 32 * (le32 b4 b5 b6 b7).toNat + (le32 b0 b1 b2 b3).toNat := by
  rw [le64, BitVec.toNat_append, Nat.shiftLeft_eq, Nat.mul_comm,
    Nat.two_pow_add_eq_or_of_lt (le32 b0 b1 b2 b3).isLt]

/-- Splitting undoes assembling: eight bytes come back from their double word (R17). -/
theorem le64bytes_le64 (b0 b1 b2 b3 b4 b5 b6 b7 : Byte) :
    le64bytes (le64 b0 b1 b2 b3 b4 b5 b6 b7) = [b0, b1, b2, b3, b4, b5, b6, b7] := by
  rw [le64bytes, le64, BitVec.extractLsb'_append_eq_right, BitVec.extractLsb'_append_eq_left,
    le32bytes_le32, le32bytes_le32]
  rfl

/-- The two words of a double word, put together again. -/
theorem high_append_low (d : DWord) : d.extractLsb' 32 32 ++ d.extractLsb' 0 32 = d := by
  rw [BitVec.extractLsb'_append_extractLsb'_eq_extractLsb' (by rfl)]
  exact BitVec.extractLsb'_eq_self

/-- Settles O30: the weights of the bytes, and splitting and assembling inverse to each other, for words and
for double words as two words each. -/
theorem littleEndianBytes : Obligations.LittleEndianBytes := by
  refine ⟨fun b0 b1 b2 b3 => ⟨le32_toNat .., le32bytes_le32 ..⟩,
    fun w => ⟨_, _, _, _, rfl, le32_wordByte w⟩,
    fun b0 b1 b2 b3 b4 b5 b6 b7 => ⟨?weights, le64bytes_le64 ..⟩,
    fun d => ⟨_, _, _, _, _, _, _, _, rfl, ?assembled⟩⟩
  case weights =>
    rw [le64_toNat, le32_toNat, le32_toNat]
    omega
  case assembled =>
    rw [le64, le32_wordByte, le32_wordByte, high_append_low]

/-! ### Bit packing -/

/-- `bits8` lists bit 7 first (R13). -/
theorem getD_bits8 (b : Byte) {k : Nat} (hk : k < 8) : (bits8 b).getD k false = b.getLsbD (7 - k) := by
  rw [← getLsbD_byteOfBits (bits8 b) hk, byteOfBits_bits8]

/-- Bit number `i` of the bits of a byte list lies in byte `i / 8`; past the end both sides are 0. -/
theorem getD_flatMap_bits8 (bs : List Byte) (i : Nat) :
    (bs.flatMap bits8).getD i false = (bs.getD (i / 8) 0).getLsbD (7 - i % 8) := by
  induction bs generalizing i with
  | nil => simp
  | cons b bs ih =>
    rw [List.flatMap_cons]
    by_cases hi : i < 8
    · rw [List.getD_append _ _ _ _ (by rwa [length_bits8]), getD_bits8 b hi, Nat.div_eq_of_lt hi,
        Nat.mod_eq_of_lt hi, List.getD_cons_zero]
    · have hdiv : i / 8 = (i - 8) / 8 + 1 := by omega
      have hmod : i % 8 = (i - 8) % 8 := by omega
      rw [List.getD_append_right _ _ _ _ (by rw [length_bits8]; omega), length_bits8, ih, hdiv, hmod,
        List.getD_cons_succ]

theorem length_unpack (bs : List Byte) {n : Nat} (h : n ≤ 8 * bs.length) : (unpack bs n).length = n := by
  rw [unpack, List.length_take, length_flatMap_bits8, Nat.min_eq_left h]

/-- Where `unpack` reads each bit (R14). -/
theorem getD_unpack (bs : List Byte) {n i : Nat} (h : i < n) :
    (unpack bs n).getD i false = (bs.getD (i / 8) 0).getLsbD (7 - i % 8) := by
  rw [unpack, ← getD_flatMap_bits8, List.getD_eq_getElem?_getD, List.getElem?_take_of_lt h,
    List.getD_eq_getElem?_getD]

/-- Settles O31: where `pack` puts and `unpack` reads each bit, that `unpack` undoes `pack`, and the example. -/
theorem packPlacesBits : Obligations.PackPlacesBits :=
  ⟨fun s => ⟨length_pack s, fun _ _ hj hk => getLsbD_pack s hj hk, unpack_pack s⟩,
    fun bs _ hn => ⟨length_unpack bs hn, fun _ hi => getD_unpack bs hi⟩, by decide⟩

/-! ### Precise errors -/

/-- The state a command raises its errors from: KEYGEN has made its draw by then (R193), every other command
has done nothing. -/
def raisingState (i : Instr) (s : State) : State := if i = .keygen then s.drawn else s

theorem raisingState_of_ne {i : Instr} (h : i ≠ .keygen) (s : State) : raisingState i s = s := if_neg h

/-- What a command other than CLR can do to ERR: it leaves ERR as it is, or it ends with error entry (R213) and
has done nothing else. -/
theorem exec_keeps_err_or_raises {i : Instr} {s t : State} (h : exec i s = .next t) (hi : i ≠ .clr) :
    t.err = s.err ∨ ∃ e, t = (raisingState i s).raise e (encode i) := by
  cases i with
  | clr => exact absurd rfl hi
  | count =>
    obtain ⟨-, ht⟩ | ⟨-, rfl⟩ := execCount_next h
    · exact .inr ⟨_, ht⟩
    · exact .inl rfl
  | build =>
    obtain ⟨-, ht⟩ | ⟨-, rfl⟩ := execBuild_next h
    · exact .inr ⟨_, ht⟩
    · exact .inl rfl
  | derive =>
    obtain ⟨-, ht⟩ | ⟨-, tree, -, rfl⟩ := execDerive_next h
    · exact .inr ⟨_, ht⟩
    · exact .inl rfl
  | encode =>
    obtain ⟨-, ht⟩ | ⟨-, k, -, ht⟩ | ⟨-, -, -, ht⟩ | ⟨-, -, -, rfl⟩ := execEncode_next h
    · exact .inr ⟨_, ht⟩
    · exact .inr ⟨_, ht⟩
    · exact .inr ⟨_, ht⟩
    · exact .inl rfl
  | serialize =>
    obtain ⟨-, ht⟩ | ⟨-, tree, -, rfl⟩ := execSerialize_next h
    · exact .inr ⟨_, ht⟩
    · exact .inl rfl
  | cinit =>
    obtain rfl := execCinit_next h
    exact .inl rfl
  | nextblk =>
    obtain ⟨-, ht⟩ | ⟨-, -, ht⟩ | ⟨-, -, rfl⟩ := execNextblk_next h
    · exact .inr ⟨_, ht⟩
    · exact .inr ⟨_, ht⟩
    · exact .inl rfl
  | mask buf =>
    obtain ⟨-, ht⟩ | ⟨base, -, ⟨-, ht⟩ | ⟨-, -, -, ht⟩ | ⟨-, -, -, ht⟩ | ⟨-, -, -, rfl⟩⟩ := execMask_next h
    · exact .inr ⟨_, ht⟩
    · exact .inr ⟨_, ht⟩
    · exact .inr ⟨_, ht⟩
    · exact .inr ⟨_, ht⟩
    · exact .inl rfl
  | keygen =>
    obtain ⟨-, ht⟩ | ⟨r, -, rfl⟩ := execKeygen_next h
    · exact .inr ⟨_, ht⟩
    · exact .inl rfl

/-- A command that ends with a new error has done nothing but error entry. -/
theorem exec_eq_raise {i : Instr} {s t : State} (h : exec i s = .next t) (hs : s.err = 0) (ht : t.err ≠ 0) :
    ∃ e, t = (raisingState i s).raise e (encode i) := by
  have hi : i ≠ .clr := by
    rintro rfl
    obtain rfl := execClr_next h
    exact ht rfl
  obtain hkeep | hraise := exec_keeps_err_or_raises h hi
  · exact absurd (hkeep.trans hs) ht
  · exact hraise

/-- The draw touches only what lies outside the block, so error entry after it is error entry before it but for
the answers and their number. -/
theorem raise_raisingState (i : Instr) (s : State) (e : CommandError) (w : Word) :
    (raisingState i s).raise e w =
      { s.afterError e.code w e.info with
        rng := (raisingState i s).rng, draws := (raisingState i s).draws } := by
  unfold raisingState
  split <;> rfl

/-- Settles O46: a command that ends with an error ends with error entry, from the state before it or, for
KEYGEN, from the state after its draw. -/
theorem errorsArePrecise : Obligations.ErrorsArePrecise := by
  intro i s t hs h ht
  obtain ⟨e, rfl⟩ := exec_eq_raise h hs ht
  refine ⟨raise_raisingState i s e (encode i), fun hi => ?_⟩
  rw [raisingState_of_ne hi]
  exact ⟨rfl, rfl⟩

end Sys2Proof.Proofs.Scope

/-!
PROOFS of the family 20_memory: which host accesses are refused (spec/20_memory.md R67).
-/

namespace Sys2Proof.Proofs.Memory

open Sys2Proof Sys2Proof.Machine Sys2Proof.Laws

/-! ### What the response of a transaction is -/

/-- A command changes neither the parameters nor the model's own fields of the host's side: the response of the
write that delivers the command is its own from the start. -/
theorem exec_keeps_host_side {i : Instr} {s t : State} (h : exec i s = .next t) :
    t.cfg = s.cfg ∧ t.pending = s.pending ∧ t.resp = s.resp ∧ t.epoch = s.epoch := by
  cases i with
  | clr =>
    obtain rfl := execClr_next h
    exact ⟨rfl, rfl, rfl, rfl⟩
  | count => obtain ⟨-, rfl⟩ | ⟨-, rfl⟩ := execCount_next h <;> exact ⟨rfl, rfl, rfl, rfl⟩
  | build => obtain ⟨-, rfl⟩ | ⟨-, rfl⟩ := execBuild_next h <;> exact ⟨rfl, rfl, rfl, rfl⟩
  | derive => obtain ⟨-, rfl⟩ | ⟨-, -, -, rfl⟩ := execDerive_next h <;> exact ⟨rfl, rfl, rfl, rfl⟩
  | encode =>
    obtain ⟨-, rfl⟩ | ⟨-, -, -, rfl⟩ | ⟨-, -, -, rfl⟩ | ⟨-, -, -, rfl⟩ := execEncode_next h <;>
      exact ⟨rfl, rfl, rfl, rfl⟩
  | serialize => obtain ⟨-, rfl⟩ | ⟨-, -, -, rfl⟩ := execSerialize_next h <;> exact ⟨rfl, rfl, rfl, rfl⟩
  | cinit =>
    obtain rfl := execCinit_next h
    exact ⟨rfl, rfl, rfl, rfl⟩
  | nextblk =>
    obtain ⟨-, rfl⟩ | ⟨-, -, rfl⟩ | ⟨-, -, rfl⟩ := execNextblk_next h <;> exact ⟨rfl, rfl, rfl, rfl⟩
  | mask buf =>
    obtain ⟨-, rfl⟩ | ⟨-, -, ⟨-, rfl⟩ | ⟨-, -, -, rfl⟩ | ⟨-, -, -, rfl⟩ | ⟨-, -, -, rfl⟩⟩ := execMask_next h <;>
      exact ⟨rfl, rfl, rfl, rfl⟩
  | keygen => obtain ⟨-, rfl⟩ | ⟨-, -, rfl⟩ := execKeygen_next h <;> exact ⟨rfl, rfl, rfl, rfl⟩

theorem exec_resp {i : Instr} {s t : State} (h : exec i s = .next t) : t.resp = s.resp := by
  obtain ⟨-, -, hresp, -⟩ := exec_keeps_host_side h
  exact hresp

/-- Served, ignored or rejected (R93), a command word leaves the response of its write alone. -/
theorem command_resp {s t : State} {w : Word} (h : s.command w = .next t) : t.resp = s.resp := by
  obtain ⟨-, -, hclr⟩ | ⟨-, -, rfl⟩ | ⟨-, _, -, hi⟩ | ⟨-, _, -, rfl⟩ := command_next h
  · exact exec_resp hclr
  · rfl
  · exact exec_resp hi
  · exact raise_resp ..

theorem store_resp (s : State) (r : Region) (off : Nat) (n : AccessSize) (v : Word) :
    (s.store r off n v).resp = s.resp :=
  (congrArg State.resp (store_frame s r off n v)).trans rfl

/-! ### Reads -/

theorem locate_eq_none_iff {p : Params} (hv : p.Valid) (a : Nat) (n : AccessSize) :
    locate p a n = none ↔ ¬ Addressable p a n := by
  rw [← locate_isSome_iff hv, Option.eq_none_iff_forall_ne_some]
  simp

theorem memRead_refused {s : State} {a : Word} {n : AccessSize} (hv : s.cfg.Valid)
    (ha : ¬ Addressable s.cfg a.toNat n) : s.memRead a n = ⟨false, 0⟩ := by
  rw [State.memRead, (locate_eq_none_iff hv ..).2 ha]

theorem memRead_ok {s : State} {a : Word} {n : AccessSize} (hv : s.cfg.Valid)
    (ha : Addressable s.cfg a.toNat n) : (s.memRead a n).ok = true := by
  obtain ⟨r, off, hl⟩ := (locate_isSome_iff hv ..).2 ha
  rw [State.memRead, hl]

theorem step_read {s : State} {a : Word} {n : AccessSize} {rest : List HostEvent}
    (h : s.pending = .read a n :: rest) :
    step s = .next { s with pending := rest, resp := some (s.memRead a n) } := by
  rw [step, State.serveNext, h]
  rfl

/-! ### Writes -/

theorem step_write {s : State} {a : Word} {n : AccessSize} {v : Word} {rest : List HostEvent}
    (h : s.pending = .write a n v :: rest) :
    step s = ({ s with pending := rest } : State).memWrite a n v := by
  rw [step, State.serveNext, h]
  rfl

/-- What R67 (a) to (d) does not refuse has a location that the host may write. -/
theorem writable_location_iff {p : Params} (hv : p.Valid) (a : Nat) (n : AccessSize) :
    (∃ r off, locate p a n = some (r, off) ∧ hostWritable r off = true) ↔
      Addressable p a n ∧ InWritable p a := by
  rw [← locate_isSome_iff hv]
  constructor
  · rintro ⟨r, off, hl, hw⟩
    exact ⟨⟨r, off, hl⟩, (locate_writable hv hl).1.1 hw⟩
  · rintro ⟨⟨r, off, hl⟩, hw⟩
    exact ⟨r, off, hl, (locate_writable hv hl).1.2 hw⟩

theorem memWrite_refused {s : State} {a : Word} {n : AccessSize} (v : Word) (hv : s.cfg.Valid)
    (h : ¬ (Addressable s.cfg a.toNat n ∧ InWritable s.cfg a.toNat)) :
    s.memWrite a n v = .next (s.respond ⟨false, 0⟩) := by
  rw [← writable_location_iff hv] at h
  rcases hl : locate s.cfg a.toNat n with _ | ⟨r, off⟩
  · rw [State.memWrite, hl]
  · have hw : ¬ hostWritable r off = true := fun hw => h ⟨r, off, hl, hw⟩
    rw [State.memWrite, hl]
    exact if_neg hw

/-- Away from CMD an accepted write stores its value at its location and does nothing else. -/
theorem memWrite_store {s : State} {a : Word} {n : AccessSize} (v : Word) (hv : s.cfg.Valid)
    (ha : Addressable s.cfg a.toNat n) (hw : InWritable s.cfg a.toNat) (h0 : a.toNat ≠ 0) :
    ∃ r off, locate s.cfg a.toNat n = some (r, off) ∧
      s.memWrite a n v = .next ((s.respond ⟨true, 0⟩).store r off n v) := by
  obtain ⟨r, off, hl, hwr⟩ := (writable_location_iff hv ..).2 ⟨ha, hw⟩
  have hcmd : ¬ (r = .csr ∧ off = 0) := fun hc => h0 ((locate_writable hv hl).2.1 hc)
  refine ⟨r, off, hl, ?_⟩
  rw [State.memWrite, hl]
  exact (if_pos hwr).trans (if_neg hcmd)

/-- An accepted write answers ok, to CMD as anywhere else. -/
theorem memWrite_resp {s t : State} {a : Word} {n : AccessSize} {v : Word} (hv : s.cfg.Valid)
    (ha : Addressable s.cfg a.toNat n) (hw : InWritable s.cfg a.toNat) (h : s.memWrite a n v = .next t) :
    t.resp = some ⟨true, 0⟩ := by
  obtain ⟨r, off, hl, hwr⟩ := (writable_location_iff hv ..).2 ⟨ha, hw⟩
  obtain ⟨hno, -⟩ | ⟨_, _, -, -, -, rfl⟩ | ⟨-, hcmd⟩ := memWrite_next h
  · rw [hno r off hl] at hwr
    cases hwr
  · exact store_resp ..
  · exact command_resp hcmd

/-- Settles O8: a refused access by the cases of `locate` and `hostWritable`, an accepted one by what it stores
or, at CMD, by what its command leaves of the response. -/
theorem refusalIsExact : Obligations.RefusalIsExact := by
  intro s hv
  refine ⟨fun a n rest hp => ⟨fun ha => ?readRefused, fun ha => ?readOk⟩,
    fun a n v rest hp => ⟨fun hno => ?writeRefused, fun ha hw => ⟨fun t ht => ?writeOk, fun h0 => ?goesOn⟩⟩⟩
  case readRefused => rw [step_read hp, memRead_refused hv ha]
  case readOk => exact ⟨_, _, step_read hp, rfl, memRead_ok hv ha⟩
  case writeRefused =>
    rw [step_write hp]
    exact memWrite_refused v hv hno
  case writeOk =>
    rw [step_write hp] at ht
    exact memWrite_resp (s := { s with pending := rest }) hv ha hw ht
  case goesOn =>
    obtain ⟨r, off, -, hstore⟩ := memWrite_store (s := { s with pending := rest }) v hv ha hw h0
    rw [step_write hp]
    exact ⟨_, hstore⟩

end Sys2Proof.Proofs.Memory

/-!
PROOFS of the family 30_encoding: what a write to CMD does (spec/30_encoding.md R93).
-/

namespace Sys2Proof.Proofs.Encoding

open Sys2Proof Sys2Proof.Machine Sys2Proof.Laws Sys2Proof.Proofs.Memory

/-! ### The fields of a command word -/

theorem opcField_toNat (w : Word) : (opcField w).toNat = w.toNat % 256 := by
  simp [opcField, BitVec.extractLsb'_toNat]

theorem bufField_toNat (w : Word) : (bufField w).toNat = w.toNat / 256 % 4 := by
  simp [bufField, BitVec.extractLsb'_toNat, Nat.shiftRight_eq_div_pow]

theorem rsvField_toNat (w : Word) : (rsvField w).toNat = w.toNat / 1024 := by
  have hw := w.isLt
  rw [rsvField, BitVec.extractLsb'_toNat, Nat.shiftRight_eq_div_pow]
  omega

/-- RSV is zero exactly in the words below its lowest bit (R91). -/
theorem rsvField_eq_zero_iff (w : Word) : rsvField w = 0 ↔ w.toNat < 1024 := by
  rw [← BitVec.toNat_inj, rsvField_toNat]
  exact Nat.div_eq_zero_iff_lt (by decide)

theorem bufField_eq_zero_iff (w : Word) : bufField w = 0 ↔ w.toNat / 256 % 4 = 0 := by
  rw [← BitVec.toNat_inj, bufField_toNat]
  rfl

/-- The opcode map has no entry at 0 and none past 10 (R92). -/
theorem commandOf_eq_none {opc : Byte} (buf : BufSel) (h : opc.toNat = 0 ∨ 10 < opc.toNat) :
    commandOf opc buf = none := by
  unfold commandOf
  split
  case h_11 => rfl
  all_goals omega

/-- The opcode map has an entry at every opcode from 1 to 10 (R92). -/
theorem commandOf_eq_some {opc : Byte} (buf : BufSel) (h1 : 1 ≤ opc.toNat) (h10 : opc.toNat ≤ 10) :
    ∃ i, commandOf opc buf = some i := by
  unfold commandOf
  interval_cases opc.toNat <;> exact ⟨_, rfl⟩

/-! ### The checks of the decoder in their order -/

theorem decode_reservedFieldSet {w : Word} (h : 1024 ≤ w.toNat) : decode w = .rejected .reservedFieldSet :=
  if_pos fun h0 => by
    have hlt := (rsvField_eq_zero_iff w).1 h0
    omega

theorem decode_undefinedOpcode {w : Word} (hrsv : w.toNat < 1024)
    (hopc : w.toNat % 256 = 0 ∨ 10 < w.toNat % 256) : decode w = .rejected .undefinedOpcode := by
  rw [← opcField_toNat] at hopc
  rw [decode, if_neg (not_not.2 ((rsvField_eq_zero_iff w).2 hrsv)), commandOf_eq_none _ hopc]

theorem decode_bufOutsideMask {w : Word} (hrsv : w.toNat < 1024) (h1 : 1 ≤ w.toNat % 256)
    (h10 : w.toNat % 256 ≤ 10) (hmask : w.toNat % 256 ≠ 9) (hbuf : 256 ≤ w.toNat) :
    decode w = .rejected .bufOutsideMask := by
  have hopc : opcField w ≠ 0x09 := fun h => hmask (by rw [← opcField_toNat, h]; rfl)
  have hbuf0 : bufField w ≠ 0 := by
    rw [Ne, bufField_eq_zero_iff]
    omega
  rw [← opcField_toNat] at h1 h10
  obtain ⟨i, hi⟩ := commandOf_eq_some (bufSelOf (bufField w)) h1 h10
  rw [decode, if_neg (not_not.2 ((rsvField_eq_zero_iff w).2 hrsv)), hi]
  exact if_pos ⟨hopc, hbuf0⟩

/-- The one word whose only fault is its buffer selector is the encoding of MASK with that selector (R94). -/
theorem decode_reservedBuffer {w : Word} (h : w.toNat = 0x309) : decode w = .rejected .reservedBuffer := by
  obtain rfl : w = encode (.mask .reserved) := BitVec.eq_of_toNat_eq h
  exact RoundTrip.mask .reserved

/-- The round trips of the single commands, for the legal ones together. -/
theorem decode_encode {i : Instr} (h : WellFormed i) : decode (encode i) = .command i := by
  have roundTrip : RoundTrip.Statement i := by
    cases i with
    | clr => exact RoundTrip.clr
    | count => exact RoundTrip.count
    | build => exact RoundTrip.build
    | derive => exact RoundTrip.derive
    | encode => exact RoundTrip.encode
    | serialize => exact RoundTrip.serialize
    | cinit => exact RoundTrip.cinit
    | nextblk => exact RoundTrip.nextblk
    | mask buf => exact RoundTrip.mask buf
    | keygen => exact RoundTrip.keygen
  exact roundTrip.trans (if_pos h)

/-! ### Dispatch -/

/-- Outside the FAULT state a rejected word ends in BadCommand with the detail of its rejection (R93, R213). -/
theorem command_badWord {s : State} {w : Word} {e : DecodeError} (h : s.err = 0)
    (hw : decode w = .rejected e) : s.command w = .next (s.afterError 5 w (decodeErrorInfo e)) := by
  rw [command_rejected h hw, raise_eq_afterError]
  rfl

/-- Settles O4: the step at a CMD write is `State.command` with the response ok given; its branches are the
FAULT gate and, outside FAULT, the check of the decoder that comes first. -/
theorem commandWriteDispatches : Obligations.CommandWriteDispatches := by
  intro s w rest hp s1 hs1
  have hstep : step s = s1.command w := by rw [hs1, step_command hp]
  have herr : s1.err = s.err := by rw [hs1]
  have hresp : s1.resp = some ⟨true, 0⟩ := by rw [hs1]
  rw [hstep, ← herr]
  refine ⟨fun hf hw => ?clr, fun hf hw => command_ignored hf hw,
    fun h0 hrsv => command_badWord h0 (decode_reservedFieldSet hrsv),
    fun h0 hrsv hopc => command_badWord h0 (decode_undefinedOpcode hrsv hopc),
    fun h0 hrsv h1 h10 hmask hbuf => command_badWord h0 (decode_bufOutsideMask hrsv h1 h10 hmask hbuf),
    fun h0 hw => command_badWord h0 (decode_reservedBuffer hw), fun h0 i hi hw => ?legal,
    fun t ht => (command_resp ht).trans hresp⟩
  case clr =>
    rw [hw]
    exact command_clr hf
  case legal =>
    rw [← hw]
    exact command_legal h0 (decode_encode hi)

end Sys2Proof.Proofs.Encoding

/-!
PROOFS of the family 40_huffman_tree: COUNT (spec/40_huffman_tree.md R111), the merges of BUILD (R113, R114) and
what BUILD depends on (R116).
-/

namespace Sys2Proof.Proofs.Huffman

open Sys2Proof Sys2Proof.Machine Sys2Proof.Laws

/-! ### COUNT -/

theorem exec_count_raises {s : State} (h : s.cfg.pmax < s.plen.toNat) :
    exec .count s = .next (s.afterError 4 0x00000002 0) := by
  obtain ⟨t, ht⟩ : ∃ t, exec .count s = .next t := ⟨_, rfl⟩
  obtain ⟨-, rfl⟩ | ⟨hfits, -⟩ := execCount_next ht
  · exact ht
  · omega

theorem exec_count_counts {s : State} (h : s.plen.toNat ≤ s.cfg.pmax) :
    exec .count s = .next { s with freq := countBytes s.payload } := by
  obtain ⟨t, ht⟩ : ∃ t, exec .count s = .next t := ⟨_, rfl⟩
  obtain ⟨hover, -⟩ | ⟨-, rfl⟩ := execCount_next ht
  · omega
  · exact ht

/-- No count wraps in a table of 32-bit words when the byte list has fewer than 2^32 bytes. -/
theorem freqOf_countBytes {p : List Byte} (h : p.length < 2 ^ 32) (b : Byte) :
    freqOf (countBytes p) b = p.count b := by
  have hle : p.count b ≤ p.length := List.count_le_length
  rw [freqOf, countBytes, table_ofFn_getD _ b.isLt, BitVec.toNat_ofNat, BitVec.ofNat_toNat,
    BitVec.setWidth_eq, Nat.mod_eq_of_lt (by omega)]

/-- The occurrences of a byte in a run of the memory, by the indices that hold it. -/
theorem count_bytesAt (s : State) (a len : Nat) (b : Byte) :
    (s.bytesAt a len).count b = ((List.range len).filter fun i => s.byteAt (a + i) = b).length := by
  rw [State.bytesAt, List.count_eq_countP, List.countP_map, List.countP_eq_length_filter]
  rfl

/-- Settles O19: PLEN is a 32-bit word, so no count of the payload wraps. -/
theorem countCountsPayloadOrRaises : Obligations.CountCountsPayloadOrRaises := by
  refine fun s _ => ⟨fun h => ⟨_, exec_count_counts h, rfl, fun b => ?_⟩, exec_count_raises⟩
  have hlen : s.payload.length < 2 ^ 32 := by
    rw [State.payload, length_bytesAt]
    exact s.plen.isLt
  rw [freqOf_countBytes hlen, State.payload, count_bytesAt]

/-! ### The records of BUILD -/

/-- L leaves and L - 1 merges (R112). -/
theorem length_buildRecords {freq : Table Word 256} (h : freqTotal freq ≤ totalLimit) :
    (buildRecords freq).length = 2 * (leafBytes freq).length - 1 := by
  obtain ⟨⟨k, cost, -, hinv⟩, -⟩ := buildRecords_spec freq h
  have hsize := hinv.size
  rw [List.length_singleton] at hsize
  omega

/-- The leaf records stand in front, in the order of the leaf list. -/
theorem recordAt_leaf (freq : Table Word 256) {i : Nat} (hi : i < (leafBytes freq).length) :
    recordAt (buildRecords freq) i =
      .leaf (leafBytes freq)[i] (BitVec.ofNat 32 (freqOf freq (leafBytes freq)[i])) := by
  obtain ⟨rest, hrest⟩ : leafNodes freq <+: buildRecords freq := mergeLoop_prefix _ _ _
  have hlen : i < (leafNodes freq).length := by simpa [leafNodes] using hi
  rw [recordAt, ← hrest, List.getD_append _ _ _ _ hlen, List.getD_eq_getElem _ _ hlen]
  simp [leafNodes, freqOf]

/-- The last record is the one left in the queue: no record has it as a child, since children lie below. -/
theorem loopInv_root_index {L total cost : Nat} {lv : List Byte} {f : Byte → Nat} {arena : List Node}
    {k : QueueKey} (h : LoopInv L total lv f cost arena [k]) (hne : 0 < arena.length) :
    k.index = arena.length - 1 := by
  have hlast : UnmergedAt (recordAt arena) arena.length (arena.length - 1) := by
    refine ⟨by omega, fun p hp hchild => ?_⟩
    have hbelow := h.children_lt hp hchild
    omega
  obtain ⟨k', hk', hidx⟩ := (h.unmerged _).2 hlast
  rwa [List.mem_singleton.1 hk'] at hidx

/-- The records are one tree, rooted at the last of them, over the leaf bytes. -/
theorem buildRecords_tree {freq : Table Word 256} (h : freqTotal freq ≤ totalLimit) :
    ∃ t, IsTree (recordAt (buildRecords freq)) (buildRecords freq).length
        ((buildRecords freq).length - 1) t ∧ t.leaves.Perm (leafBytes freq) := by
  obtain ⟨⟨k, cost, -, hinv⟩, -⟩ := buildRecords_spec freq h
  obtain ⟨t, htree, hleaves, -⟩ := hinv.tree
  have hlen := length_buildRecords h
  have htwo := (leafBytes_length freq).1
  rw [loopInv_root_index hinv (by omega)] at htree
  exact ⟨t, htree, hleaves⟩

/-- A tree with the leaves of a leaf list has an internal root and at most 256 leaves. -/
theorem buildable_of_leaves {t : CodeTree} {freq : Table Word 256} (h : t.leaves.Perm (leafBytes freq)) :
    t.buildable = true := by
  obtain ⟨htwo, hfew⟩ := leafBytes_length freq
  rw [← h.length_eq] at htwo hfew
  cases t with
  | leaf b => simp [CodeTree.leaves] at htwo
  | node l r => simpa [CodeTree.buildable, CodeTree.leaves] using hfew

/-! ### The state BUILD leaves -/

/-- The state a BUILD that goes on leaves (R114); `exec_build_builds` says so. -/
def built (s : State) : State :=
  { s with
    node := Table.ofFn fun i => (buildRecords s.freq).getD i.val Node.zero
    nnodes := BitVec.ofNat 32 (buildRecords s.freq).length
    nleaves := BitVec.ofNat 32 (leafBytes s.freq).length
    root := BitVec.ofNat 32 ((buildRecords s.freq).length - 1)
    status := s.status.setTree }

theorem exec_build_raises {s : State} (h : totalLimit < freqTotal s.freq) :
    exec .build s = .next (s.afterError 4 0x00000003 1) := by
  obtain ⟨t, ht⟩ : ∃ t, exec .build s = .next t := ⟨_, rfl⟩
  obtain ⟨-, rfl⟩ | ⟨hfits, -⟩ := execBuild_next ht
  · exact ht
  · omega

theorem exec_build_builds {s : State} (h : freqTotal s.freq ≤ totalLimit) :
    exec .build s = .next (built s) := by
  obtain ⟨t, ht⟩ : ∃ t, exec .build s = .next t := ⟨_, rfl⟩
  obtain ⟨hover, -⟩ | ⟨-, rfl⟩ := execBuild_next ht
  · omega
  · exact ht

theorem built_nleaves (s : State) : (built s).nleaves.toNat = (leafBytes s.freq).length := by
  have hfew := (leafBytes_length s.freq).2
  rw [built, BitVec.toNat_ofNat, Nat.mod_eq_of_lt (by omega)]

theorem built_nnodes {s : State} (h : freqTotal s.freq ≤ totalLimit) :
    (built s).nnodes.toNat = (buildRecords s.freq).length := by
  have hlen := length_buildRecords h
  have hfew := (leafBytes_length s.freq).2
  rw [built, BitVec.toNat_ofNat, Nat.mod_eq_of_lt (by omega)]

theorem built_root {s : State} (h : freqTotal s.freq ≤ totalLimit) :
    (built s).root.toNat = (buildRecords s.freq).length - 1 := by
  have hlen := length_buildRecords h
  have hfew := (leafBytes_length s.freq).2
  rw [built, BitVec.toNat_ofNat, Nat.mod_eq_of_lt (by omega)]

/-- The arena holds the records and zeros above them: 2 * 256 - 1 records always fit. -/
theorem built_nodeAt {s : State} (h : freqTotal s.freq ≤ totalLimit) :
    (built s).nodeAt = recordAt (buildRecords s.freq) := by
  have hlen := length_buildRecords h
  have hfew := (leafBytes_length s.freq).2
  funext i
  rw [State.nodeAt, built]
  by_cases hi : i < 511
  · rw [table_ofFn_getD _ hi, recordAt]
  · rw [table_getD_of_le _ (by omega), recordAt, List.getD_eq_default _ _ (by omega)]

theorem built_leaf {s : State} (h : freqTotal s.freq ≤ totalLimit) {i : Nat}
    (hi : i < (leafBytes s.freq).length) :
    (built s).nodeAt i =
      .leaf (leafBytes s.freq)[i] (BitVec.ofNat 32 (freqOf s.freq (leafBytes s.freq)[i])) := by
  rw [built_nodeAt h, recordAt_leaf _ hi]

/-- A byte of the leaf set is the byte of a leaf record with its count, and conversely (R113). -/
theorem isLeafByte_iff_built_leaf {s : State} (h : freqTotal s.freq ≤ totalLimit) (b : Byte) :
    IsLeafByte s.freq b ↔ ∃ i < (built s).nleaves.toNat,
      (built s).nodeAt i = .leaf b (BitVec.ofNat 32 (freqOf s.freq b)) := by
  rw [← mem_leafBytes, List.mem_iff_getElem, built_nleaves]
  constructor
  · rintro ⟨i, hi, rfl⟩
    exact ⟨i, hi, built_leaf h hi⟩
  · rintro ⟨i, hi, hleaf⟩
    rw [built_leaf h hi] at hleaf
    exact ⟨i, hi, (Node.leaf.inj hleaf).1⟩

/-- No record among the first NLEAVES is anything but a leaf of the leaf set with its count (R113). -/
theorem built_leaf_isLeafByte {s : State} (h : freqTotal s.freq ≤ totalLimit) {i : Nat}
    (hi : i < (built s).nleaves.toNat) : ∃ b, IsLeafByte s.freq b ∧
      (built s).nodeAt i = .leaf b (BitVec.ofNat 32 (freqOf s.freq b)) := by
  rw [built_nleaves] at hi
  exact ⟨_, (mem_leafBytes _ _).1 (List.getElem_mem hi), built_leaf h hi⟩

/-- The leaf records ascend by byte value (R113). -/
theorem built_leaves_ascend {s : State} (h : freqTotal s.freq ≤ totalLimit) {i j : Nat} {b c : Byte}
    {v w : Word} (hij : i < j) (hj : j < (built s).nleaves.toNat) (hb : (built s).nodeAt i = .leaf b v)
    (hc : (built s).nodeAt j = .leaf c w) : b < c := by
  rw [built_nleaves] at hj
  rw [built_leaf h (by omega)] at hb
  rw [built_leaf h hj] at hc
  rw [← (Node.leaf.inj hb).1, ← (Node.leaf.inj hc).1]
  exact List.pairwise_iff_getElem.1 (leafBytes_sorted s.freq) i j (by omega) hj hij

/-- Every record above the leaves is the merge of the two least (R114, R115). -/
theorem built_mergesLeastTwo {s : State} (h : freqTotal s.freq ≤ totalLimit) {n : Nat}
    (hlow : (built s).nleaves.toNat ≤ n) (hhigh : n < (built s).nnodes.toNat) :
    MergesLeastTwo (built s).nodeAt n := by
  obtain ⟨⟨k, cost, -, hinv⟩, -⟩ := buildRecords_spec s.freq h
  rw [built_nleaves] at hlow
  rw [built_nnodes h] at hhigh
  rw [built_nodeAt h]
  exact hinv.merges n hlow hhigh

/-- Settles O21: the loop's invariant gives the number of records and the merges, the leaf list the leaf
records. -/
theorem buildMergesLeastTwoOrRaises : Obligations.BuildMergesLeastTwoOrRaises := by
  refine fun s => ⟨exec_build_raises, fun h => ?_⟩
  obtain ⟨htwo, hfew⟩ := leafBytes_length s.freq
  have hleaves := built_nleaves s
  have hnodes := built_nnodes h
  have hroot := built_root h
  refine ⟨built s, exec_build_builds h, rfl, hleaves ▸ htwo, hleaves ▸ hfew, ?_, hnodes ▸ hroot,
    isLeafByte_iff_built_leaf h, fun _ => built_leaf_isLeafByte h,
    fun _ _ _ _ _ _ => built_leaves_ascend h, fun _ => built_mergesLeastTwo h, fun i _ hi => ?_⟩
  · rw [hnodes, hleaves, length_buildRecords h]
  · rw [built_nodeAt h, recordAt, List.getD_eq_default _ _ (hnodes ▸ hi)]

/-! ### What BUILD and SERIALIZE depend on -/

/-- The walk from ROOT finds the tree that BUILD made. -/
theorem built_tree? {s : State} (h : freqTotal s.freq ≤ totalLimit) : ∃ t, (built s).tree? = some t := by
  obtain ⟨t, htree, hleaves⟩ := buildRecords_tree h
  refine ⟨t, (tree?_eq_some_iff _ _).2 ⟨?_, buildable_of_leaves hleaves⟩⟩
  rwa [built_nodeAt h, built_nnodes h, built_root h]

/-- The tree the arena holds is read from NODE, NNODES and ROOT alone. -/
theorem tree?_congr {s t : State} (hnode : s.node = t.node) (hcount : s.nnodes = t.nnodes)
    (hroot : s.root = t.root) : s.tree? = t.tree? := by
  have hat : s.nodeAt = t.nodeAt := by
    funext i
    rw [State.nodeAt, State.nodeAt, hnode]
  rw [State.tree?, State.tree?, hat, hcount, hroot]

/-- The bit form of a tree of at most 256 leaves is so short that TLEN does not wrap (R152). -/
theorem tlen_toNat {t : CodeTree} (h : t.buildable = true) :
    (BitVec.ofNat 32 (ceil8 t.ser.length)).toNat = (pack t.ser).length := by
  have hlen := length_ser t
  have hfew := (buildable_leaves h).2.1
  rw [length_pack, BitVec.toNat_ofNat, Nat.mod_eq_of_lt (by unfold ceil8; omega)]

/-- SERIALIZE of a state that holds the tree `tree` goes on, and leaves lengths and bytes that are functions of
`tree` alone (R151). -/
theorem exec_serialize_tree {s : State} {tree : CodeTree} (hv : s.status.treeV = true)
    (htree : s.tree? = some tree) :
    ∃ u, exec .serialize s = .next u ∧ u.tbits = BitVec.ofNat 32 tree.ser.length ∧
      u.tlen = BitVec.ofNat 32 (ceil8 tree.ser.length) ∧
      u.bytesAt tmemBase u.tlen.toNat = pack tree.ser := by
  have hbuildable := ((tree?_eq_some_iff s tree).1 htree).2
  refine ⟨_, by rw [exec, execSerialize, if_pos hv, htree], rfl, rfl, ?_⟩
  rw [tlen_toNat hbuildable]
  exact bytesAt_writeRun_self _ _ _

/-- Settles O24: what BUILD writes is written from FREQ, and SERIALIZE reads the tree of what BUILD wrote. -/
theorem buildDependsOnlyOnFreq : Obligations.BuildDependsOnlyOnFreq := by
  refine fun s s' hfreq => ⟨fun h => ⟨exec_build_raises h, exec_build_raises (hfreq ▸ h)⟩, fun h => ?_⟩
  have hnode : (built s).node = (built s').node := by rw [built, built, hfreq]
  have hnnodes : (built s).nnodes = (built s').nnodes := by rw [built, built, hfreq]
  have hnleaves : (built s).nleaves = (built s').nleaves := by rw [built, built, hfreq]
  have hroot : (built s).root = (built s').root := by rw [built, built, hfreq]
  refine ⟨built s, built s', exec_build_builds h, exec_build_builds (hfreq ▸ h), hnode, hnnodes, hnleaves,
    hroot, rfl, ?_⟩
  obtain ⟨tree, htree⟩ := built_tree? h
  obtain ⟨u, hu, hbits, hlen, hbytes⟩ := exec_serialize_tree (s := built s) rfl htree
  obtain ⟨u', hu', hbits', hlen', hbytes'⟩ := exec_serialize_tree (s := built s') rfl
    ((tree?_congr hnode hnnodes hroot).symm.trans htree)
  exact ⟨u, u', hu, hu', hbits.trans hbits'.symm, hlen.trans hlen'.symm, hbytes.trans hbytes'.symm⟩

end Sys2Proof.Proofs.Huffman

/-!
PROOFS of the family 41_codebook: what DERIVE writes into CB (spec/41_codebook.md R130, R131).
-/

namespace Sys2Proof.Proofs.Codebook

open Sys2Proof Sys2Proof.Machine Sys2Proof.Laws

theorem exec_derive_raises {s : State} (h : s.status.treeV = false) :
    exec .derive s = .next (s.afterError 1 0x00000004 0) := by
  rw [exec, execDerive, if_neg (by simp [h]), raise_eq_afterError]
  rfl

theorem exec_derive_derives {s : State} {tree : CodeTree} (hv : s.status.treeV = true)
    (htree : s.tree? = some tree) :
    exec .derive s = .next { s with cb := codebookOf tree, status := s.status.setCodebook } := by
  rw [exec, execDerive, if_pos hv, htree]

/-- Where the leaves are distinct, the entry of a byte is the path to its leaf (R131). -/
theorem codeOf_codebookOf_iff {tree : CodeTree} (h : tree.leaves.Nodup) (b : Byte) (c : List Bool) :
    codeOf (codebookOf tree) b = some c ↔ subtree tree c = some (.leaf b) := by
  rw [codeOf, codebookOf, table_ofFn_getD _ b.isLt, BitVec.ofNat_toNat, BitVec.setWidth_eq,
    lookup_codes_iff h]

/-- Settles O27: a well-formed arena holds one tree with distinct leaves, whose leaf paths are at once the
entries of the codebook and the paths through the records. -/
theorem deriveGivesPathCodesOrRaises : Obligations.DeriveGivesPathCodesOrRaises := by
  refine fun s => ⟨exec_derive_raises, fun hv harena => ?_⟩
  obtain ⟨tree, htree, hrecords, -, hdistinct, -⟩ := arena_tree harena
  refine ⟨_, exec_derive_derives hv htree, rfl, fun b c => ?_⟩
  calc codeOf (codebookOf tree) b = some c
      ↔ subtree tree c = some (.leaf b) := codeOf_codebookOf_iff hdistinct b c
    _ ↔ ∃ i w, follow s.nodeAt s.root.toNat c = some i ∧ s.nodeAt i = .leaf b w :=
        follow_leaf_iff hrecords c b

end Sys2Proof.Proofs.Codebook

/-!
PROOFS of the family 42_bitstream_encoder: what ENCODE writes, and which of its three errors it raises
(spec/42_bitstream_encoder.md R141).
-/

namespace Sys2Proof.Proofs.Encoder

open Sys2Proof Sys2Proof.Machine Sys2Proof.Laws

/-! ### The payload and its codes -/

/-- The index ENCODE reports is that of the first byte of the run without a code (R141). -/
theorem firstMissing_bytesAt_eq_some_iff (cb : Table CodeEntry 256) (s : State) (a len i : Nat) :
    firstMissing cb (s.bytesAt a len) = some i ↔
      i < len ∧ codeOf cb (s.byteAt (a + i)) = none ∧ ∀ j < i, codeOf cb (s.byteAt (a + j)) ≠ none := by
  rw [firstMissing, List.findIdx?_eq_some_iff_getElem]
  simp [State.bytesAt, and_left_comm]

theorem firstMissing_bytesAt_eq_none_iff (cb : Table CodeEntry 256) (s : State) (a len : Nat) :
    firstMissing cb (s.bytesAt a len) = none ↔ ∀ i < len, codeOf cb (s.byteAt (a + i)) ≠ none := by
  rw [firstMissing, List.findIdx?_eq_none_iff]
  simp [State.bytesAt, Option.isSome_iff_ne_none]

/-- The bits of a run of the memory, by the indices of its bytes (R142). -/
theorem encodeBits_bytesAt (cb : Table CodeEntry 256) (s : State) (a len : Nat) :
    encodeBits cb (s.bytesAt a len) =
      ((List.range len).map fun i => (codeOf cb (s.byteAt (a + i))).getD []).flatten := by
  rw [encodeBits, State.bytesAt, List.flatMap_map, List.flatMap_def]

/-! ### What ENCODE does, error by error in the order of its checks -/

theorem exec_encode_raises_payload {s : State} (h : s.cfg.pmax < s.plen.toNat) :
    exec .encode s = .next (s.afterError 4 0x00000005 0) := by
  rw [exec, execEncode, if_pos h]
  rfl

theorem exec_encode_raises_missing {s : State} {i : Nat} (hfits : s.plen.toNat ≤ s.cfg.pmax)
    (hmissing : firstMissing s.cb s.payload = some i) :
    exec .encode s = .next (s.afterError 2 0x00000005 (BitVec.ofNat 32 i)) := by
  rw [exec, execEncode, if_neg (by omega), hmissing]
  rfl

theorem exec_encode_raises_output {s : State} (hfits : s.plen.toNat ≤ s.cfg.pmax)
    (hcodes : firstMissing s.cb s.payload = none)
    (hover : s.cfg.emax < ceil8 (encodeBits s.cb s.payload).length) :
    exec .encode s = .next (s.afterError 4 0x00000005 2) := by
  rw [exec, execEncode, if_neg (by omega), hcodes]
  simp only [if_pos hover]
  rfl

/-- The state an ENCODE that goes on leaves (R141); `exec_encode_encodes` says so. -/
def encoded (s : State) : State :=
  { s with
    mem := s.mem.writeRun ememBase (pack (encodeBits s.cb s.payload))
    ebits := BitVec.ofNat 64 (encodeBits s.cb s.payload).length
    elen := BitVec.ofNat 32 (ceil8 (encodeBits s.cb s.payload).length)
    olen := s.plen
    status := s.status.setEncoded }

theorem exec_encode_encodes {s : State} (hfits : s.plen.toNat ≤ s.cfg.pmax)
    (hcodes : firstMissing s.cb s.payload = none)
    (hroom : ceil8 (encodeBits s.cb s.payload).length ≤ s.cfg.emax) :
    exec .encode s = .next (encoded s) := by
  rw [exec, execEncode, if_neg (by omega), hcodes]
  simp only [if_neg (Nat.not_lt.2 hroom)]
  rfl

/-! ### The state ENCODE leaves -/

/-- EMEM has at most 2^30 bytes (R9), so an output that fits wraps neither EBITS nor ELEN. -/
theorem encoded_lengths {s : State} (hcfg : s.cfg.Valid)
    (hroom : ceil8 (encodeBits s.cb s.payload).length ≤ s.cfg.emax) :
    (encoded s).ebits.toNat = (encodeBits s.cb s.payload).length ∧
      (encoded s).elen.toNat = ceil8 (encodeBits s.cb s.payload).length := by
  obtain ⟨-, -, -, -, hemax⟩ := hcfg
  have hbits : (encodeBits s.cb s.payload).length ≤ 8 * ceil8 (encodeBits s.cb s.payload).length := by
    unfold ceil8
    omega
  constructor
  · rw [encoded, BitVec.toNat_ofNat, Nat.mod_eq_of_lt (by omega)]
  · rw [encoded, BitVec.toNat_ofNat, Nat.mod_eq_of_lt (by omega)]

/-- EMEM starts with the packed bits (R141). -/
theorem encoded_bytesAt (s : State) :
    (encoded s).bytesAt ememBase (ceil8 (encodeBits s.cb s.payload).length) =
      pack (encodeBits s.cb s.payload) := by
  rw [← length_pack]
  exact bytesAt_of_writeRun rfl rfl

/-- No byte but those of the packed bits changes (R141). -/
theorem encoded_byteAt_of_outside (s : State) {a : Nat}
    (h : a < ememBase ∨ ememBase + ceil8 (encodeBits s.cb s.payload).length ≤ a) :
    (encoded s).byteAt a = s.byteAt a := by
  have hmem : (encoded s).mem = s.mem.writeRun ememBase (pack (encodeBits s.cb s.payload)) := rfl
  rw [byteAt_of_writeRun hmem rfl, if_neg (by rw [length_pack]; omega)]

/-- Settles O29: the statement's codes and bits are those of the payload ENCODE reads, so each of its four cases
is one of ENCODE's, and the last leaves `encoded s`. -/
theorem encodePacksCodesOrRaises : Obligations.EncodePacksCodesOrRaises := by
  intro s code bits hcfg hcode hbits
  obtain rfl : code = fun i => codeOf s.cb (s.byteAt (pmemBase + i)) := funext hcode
  obtain rfl : bits = encodeBits s.cb s.payload := hbits.trans (encodeBits_bytesAt ..).symm
  refine ⟨exec_encode_raises_payload, fun i hfits hi hnone hbefore => ?missing,
    fun hfits hall hover => ?output, fun hfits hall hroom => ?encodes⟩
  case missing =>
    exact exec_encode_raises_missing hfits
      ((firstMissing_bytesAt_eq_some_iff ..).2 ⟨hi, hnone, hbefore⟩)
  case output =>
    exact exec_encode_raises_output hfits ((firstMissing_bytesAt_eq_none_iff ..).2 hall) hover
  case encodes =>
    obtain ⟨hebits, helen⟩ := encoded_lengths hcfg hroom
    exact ⟨encoded s, exec_encode_encodes hfits ((firstMissing_bytesAt_eq_none_iff ..).2 hall) hroom, rfl,
      hebits, helen, encoded_bytesAt s, fun _ => encoded_byteAt_of_outside s⟩

end Sys2Proof.Proofs.Encoder

/-!
PROOFS of the family 43_tree_serializer: what SERIALIZE writes into TMEM, and the bit form of every record of the
arena (spec/43_tree_serializer.md R150, R151).
-/

namespace Sys2Proof.Proofs.Serializer

open Sys2Proof Sys2Proof.Machine Sys2Proof.Laws

/-! ### The tree below a record of a well-formed arena -/

/-- The children of an internal record stand below it (R36). -/
theorem children_lt {s : State} (h : s.ArenaOk) {i : Nat} (hi : i < s.nnodes.toNat) {w : Word}
    {l r : BitVec 9} (hn : s.nodeAt i = .internal w l r) : l.toNat < i ∧ r.toNat < i := by
  rcases Nat.lt_or_ge i s.nleaves.toNat with hleaf | hinternal
  · obtain ⟨b, v, hb⟩ := h.leaves i hleaf
    cases hn.symm.trans hb
  · obtain ⟨w', l', r', hn', hl, hr, -⟩ := h.internals i hinternal hi
    cases hn.symm.trans hn'
    exact ⟨hl, hr⟩

/-- Every record in use is the root of a tree, reached from ROOT or not. -/
theorem exists_isTree {s : State} (h : s.ArenaOk) {i : Nat} (hi : i < s.nnodes.toNat) :
    ∃ t, IsTree s.nodeAt s.nnodes.toNat i t := by
  induction i using Nat.strong_induction_on with
  | _ i ih =>
    rcases Nat.lt_or_ge i s.nleaves.toNat with hleaf | hinternal
    · obtain ⟨b, w, hb⟩ := h.leaves i hleaf
      exact ⟨.leaf b, hi, w, hb⟩
    · obtain ⟨w, l, r, hn, hl, hr, -⟩ := h.internals i hinternal hi
      obtain ⟨tl, htl⟩ := ih _ hl (by omega)
      obtain ⟨tr, htr⟩ := ih _ hr (by omega)
      exact ⟨.node tl tr, hi, w, l, r, hn, htl, htr⟩

/-- A path down from record `i` passes ever lower records, so it has at most `i` branches. -/
theorem depth_le_index {s : State} (h : s.ArenaOk) {i : Nat} {t : CodeTree}
    (ht : IsTree s.nodeAt s.nnodes.toNat i t) : t.depth ≤ i := by
  induction t generalizing i with
  | leaf b => exact Nat.zero_le i
  | node tl tr ihl ihr =>
    obtain ⟨hi, w, l, r, hn, htl, htr⟩ := ht
    obtain ⟨hl, hr⟩ := children_lt h hi hn
    have hdl := ihl htl
    have hdr := ihr htr
    simp only [CodeTree.depth]
    omega

/-! ### The bit form of a record -/

/-- The bit form of the tree below record `i`; `serAt_eq` ties it to the tree, `serAt_leaf` and `serAt_internal`
are the equations of R150. -/
def serAt (s : State) (i : Nat) : List Bool :=
  ((treeBelow s.nodeAt s.nnodes.toNat (i + 1) i).map CodeTree.ser).getD []

theorem serAt_eq {s : State} (h : s.ArenaOk) {i : Nat} {t : CodeTree}
    (ht : IsTree s.nodeAt s.nnodes.toNat i t) : serAt s i = t.ser := by
  have hwalk := (treeBelow_eq_some_iff _ _ (i + 1) _ _).2 ⟨ht, Nat.lt_succ_of_le (depth_le_index h ht)⟩
  rw [serAt, hwalk, Option.map_some, Option.getD_some]

theorem serAt_leaf {s : State} (h : s.ArenaOk) {i : Nat} (hi : i < s.nnodes.toNat) {b : Byte} {w : Word}
    (hn : s.nodeAt i = .leaf b w) : serAt s i = true :: bits8 b :=
  serAt_eq h (t := .leaf b) ⟨hi, w, hn⟩

theorem serAt_internal {s : State} (h : s.ArenaOk) {i : Nat} (hi : i < s.nnodes.toNat) {w : Word}
    {l r : BitVec 9} (hn : s.nodeAt i = .internal w l r) :
    serAt s i = false :: (serAt s l.toNat ++ serAt s r.toNat) := by
  obtain ⟨hl, hr⟩ := children_lt h hi hn
  obtain ⟨tl, htl⟩ := exists_isTree h (hl.trans hi)
  obtain ⟨tr, htr⟩ := exists_isTree h (hr.trans hi)
  rw [serAt_eq h htl, serAt_eq h htr]
  exact serAt_eq h (t := .node tl tr) ⟨hi, w, l, r, hn, htl, htr⟩

/-! ### What SERIALIZE does -/

theorem exec_serialize_raises {s : State} (h : s.status.treeV = false) :
    exec .serialize s = .next (s.afterError 1 0x00000006 0) := by
  rw [exec, execSerialize, if_neg (by simp [h]), raise_eq_afterError]
  rfl

/-- The state a SERIALIZE of the tree `tree` leaves (R151); `exec_serialize_serializes` says so. -/
def serialized (s : State) (tree : CodeTree) : State :=
  { s with
    mem := s.mem.writeRun tmemBase (pack tree.ser)
    tbits := BitVec.ofNat 32 tree.ser.length
    tlen := BitVec.ofNat 32 (ceil8 tree.ser.length)
    status := s.status.setSerialized }

theorem exec_serialize_serializes {s : State} {tree : CodeTree} (hv : s.status.treeV = true)
    (htree : s.tree? = some tree) : exec .serialize s = .next (serialized s tree) := by
  rw [exec, execSerialize, if_pos hv, htree]
  rfl

/-- At most 256 leaves take at most 2559 bits and 320 bytes (R152), so neither TBITS nor TLEN wraps. -/
theorem serialized_lengths (s : State) {tree : CodeTree} (h : tree.buildable = true) :
    (serialized s tree).tbits.toNat = tree.ser.length ∧
      (serialized s tree).tlen.toNat = ceil8 tree.ser.length ∧ ceil8 tree.ser.length ≤ tmemSize := by
  obtain ⟨-, hfew, -⟩ := buildable_leaves h
  have hlen := length_ser tree
  refine ⟨?tbits, (Huffman.tlen_toNat h).trans (length_pack _), ?fits⟩
  case tbits => rw [serialized, BitVec.toNat_ofNat, Nat.mod_eq_of_lt (by omega)]
  case fits =>
    unfold ceil8 tmemSize
    omega

/-- TMEM starts with the packed bit form (R151). -/
theorem serialized_bytesAt (s : State) (tree : CodeTree) :
    (serialized s tree).bytesAt tmemBase (ceil8 tree.ser.length) = pack tree.ser := by
  rw [← length_pack]
  exact bytesAt_of_writeRun rfl rfl

/-- No byte but those of the packed bit form changes (R151). -/
theorem serialized_byteAt_of_outside (s : State) (tree : CodeTree) {a : Nat}
    (h : a < tmemBase ∨ tmemBase + ceil8 tree.ser.length ≤ a) :
    (serialized s tree).byteAt a = s.byteAt a := by
  have hmem : (serialized s tree).mem = s.mem.writeRun tmemBase (pack tree.ser) := rfl
  rw [byteAt_of_writeRun hmem rfl, if_neg (by rw [length_pack]; omega)]

/-- Settles O33: a well-formed arena gives every record in use a bit form by the equations of R150, and SERIALIZE
writes that of ROOT. -/
theorem serializeEmitsPreorderOrRaises : Obligations.SerializeEmitsPreorderOrRaises := by
  refine fun s => ⟨exec_serialize_raises, fun hv harena => ?_⟩
  obtain ⟨tree, htree, hrecords, hbuildable, -⟩ := arena_tree harena
  obtain ⟨htbits, htlen, hfits⟩ := serialized_lengths s hbuildable
  refine ⟨serialized s tree, serAt s, fun i hi _ _ => serAt_leaf harena hi,
    fun i hi _ _ _ => serAt_internal harena hi, exec_serialize_serializes hv htree, rfl, ?_⟩
  rw [serAt_eq harena hrecords, htlen]
  exact ⟨htbits, rfl, serialized_bytesAt s tree, hfits, fun _ => serialized_byteAt_of_outside s tree⟩

end Sys2Proof.Proofs.Serializer

/-!
PROOFS of the family 44_stream_cipher: the Salsa20 function (spec/44_stream_cipher.md R161 to R164), CINIT (R165)
and NEXTBLK (R166).
-/

namespace Sys2Proof.Proofs.Cipher

open Sys2Proof Sys2Proof.Machine Sys2Proof.Laws

/-! ### The quarter-round -/

/-- The two shifts of `rotl32` are the library's rotation (R11). -/
theorem rotl32_eq_rotateLeft (v : Word) {k : Nat} (h : k < 32) : rotl32 v k = v.rotateLeft k := by
  rw [rotl32, BitVec.rotateLeft_def, Nat.mod_eq_of_lt h]

/-- The quarter-round with the library's rotation: its four words solve the equations of R161, and since each
equation gives its word from earlier ones, no others do. -/
theorem quarterround_eq_iff (y0 y1 y2 y3 z0 z1 z2 z3 : Word) :
    quarterround y0 y1 y2 y3 = (z0, z1, z2, z3) ↔
      z1 = y1 ^^^ (y0 + y3).rotateLeft 7 ∧ z2 = y2 ^^^ (z1 + y0).rotateLeft 9 ∧
      z3 = y3 ^^^ (z2 + z1).rotateLeft 13 ∧ z0 = y0 ^^^ (z3 + z2).rotateLeft 18 := by
  simp (disch := decide) only [← rotl32_eq_rotateLeft]
  constructor
  · intro h
    cases h
    exact ⟨rfl, rfl, rfl, rfl⟩
  · rintro ⟨rfl, rfl, rfl, rfl⟩
    rfl

/-- Settles O37: the four equations, and the printed examples by evaluation. -/
theorem quarterroundFollowsEquations : Obligations.QuarterroundFollowsEquations :=
  ⟨quarterround_eq_iff, by decide, by decide, by decide⟩

/-! ### The core -/

theorem doublerounds_eq_iterate (n : Nat) (x : Vector Word 16) : doublerounds n x = doubleround^[n] x := by
  induction n generalizing x with
  | zero => rfl
  | succ n ih => exact ih (doubleround x)

/-- The core adds word by word (R163). -/
theorem getElem_salsa20core (x : Vector Word 16) {i : Nat} (h : i < 16) :
    (salsa20core x)[i] = x[i] + (doubleround^[10] x)[i] := by
  rw [← doublerounds_eq_iterate]
  interval_cases i <;> rfl

/-! ### The input words -/

theorem low_word_eq (c : DWord) : c.extractLsb' 0 32 = BitVec.ofNat 32 (c.toNat % 2 ^ 32) :=
  BitVec.eq_of_toNat_eq (by simp [BitVec.extractLsb'_toNat])

theorem high_word_eq (c : DWord) : c.extractLsb' 32 32 = BitVec.ofNat 32 (c.toNat / 2 ^ 32) :=
  BitVec.eq_of_toNat_eq (by simp [BitVec.extractLsb'_toNat, Nat.shiftRight_eq_div_pow])

/-! ### The block -/

/-- Byte `j` of the block is byte `j mod 4` of word `j div 4` (R164). -/
theorem getD_salsa20block (k : Table Byte 32) (n : Table Byte 8) (c : DWord) {j : Nat} (h : j < 64) :
    (salsa20block k n c).getD j 0 =
      wordByte ((salsa20core (salsa20input k n c))[j / 4]) (j % 4) := by
  rw [salsa20block, table_ofFn_getD _ h, List.getD_eq_getElem _ _ (by rw [Vector.length_toList]; omega),
    Vector.getElem_toList]

/-- Listing byte `j mod 4` of word `j div 4` lists the words one after the other, least significant byte first. -/
theorem ofFn_wordByte (o : Vector Word 16) :
    (List.ofFn fun j : Fin 64 => wordByte (o.toList.getD (j.val / 4) 0) (j.val % 4)) =
      (o.toList.map le32bytes).flatten := by
  refine (List.ofFn_mul (m := 16) (n := 4) _).trans
    (congrArg List.flatten (List.ext_getElem (by simp) fun i hi _ => ?wordBytes))
  case wordBytes =>
    rw [List.length_ofFn] at hi
    have hdiv (b : Fin 4) : (i * 4 + b.val) / 4 = i := by omega
    have hmod (b : Fin 4) : (i * 4 + b.val) % 4 = b.val := by omega
    simp only [List.getElem_ofFn, List.getElem_map, Vector.getElem_toList, hdiv, hmod]
    rw [List.getD_eq_getElem _ _ (by simpa using hi), Vector.getElem_toList]
    rfl

/-- Settles O38: the rounds are their quarter-rounds by definition; the core, the counter's two words and the
bytes of the block by the lemmas above. -/
theorem salsaBlockFollowsEquations : Obligations.SalsaBlockFollowsEquations := by
  refine ⟨fun x => ⟨rfl, rfl, rfl, rfl⟩, fun y => ⟨rfl, rfl, rfl, rfl⟩, fun x => rfl,
    fun x i => getElem_salsa20core x, fun k n c => ⟨fun i hi => ?input, ofFn_wordByte _,
      fun j => getD_salsa20block k n c⟩⟩
  case input =>
    rw [← low_word_eq, ← high_word_eq]
    interval_cases i <;> rfl

/-! ### CINIT -/

/-- Settles O40: CINIT has no error branch, and all it writes is written out in its one outcome. -/
theorem cinitLoadsCipherState : Obligations.CinitLoadsCipherState := by
  intro s
  obtain ⟨t, ht⟩ : ∃ t, exec .cinit s = .next t := ⟨_, rfl⟩
  refine ⟨t, ht, ?_⟩
  obtain rfl := execCinit_next ht
  exact ⟨rfl, fun _ _ => rfl, fun _ _ => rfl, fun _ => table_fill_getD 0 0⟩

/-! ### NEXTBLK -/

theorem exec_nextblk_raises_notReady {s : State} (h : s.status.ciphV = false) :
    exec .nextblk s = .next (s.afterError 5 0x00000008 3) := by
  rw [exec, execNextblk, if_pos h, raise_eq_afterError]
  rfl

theorem exec_nextblk_raises_counter {s : State} (hv : s.status.ciphV = true) (h : s.ctr.toNat = ctrLimit) :
    exec .nextblk s = .next (s.afterError 4 0x00000008 3) := by
  rw [exec, execNextblk, if_neg (by simp [hv]), if_pos h, raise_eq_afterError]
  rfl

/-- The state a NEXTBLK that goes on leaves (R166); `exec_nextblk_generates` says so. -/
def generated (s : State) : State :=
  { s with ksblk := s.block s.ctr, ctr := s.ctr + 1, status := s.status.setKeystream }

theorem exec_nextblk_generates {s : State} (hv : s.status.ciphV = true) (h : s.ctr.toNat < ctrLimit) :
    exec .nextblk s = .next (generated s) := by
  rw [exec, execNextblk, if_neg (by simp [hv]), if_neg (Nat.ne_of_lt h)]
  rfl

/-- Below its last value the counter does not wrap (R167). -/
theorem generated_ctr_toNat {s : State} (h : s.ctr.toNat < ctrLimit) :
    (generated s).ctr.toNat = s.ctr.toNat + 1 := by
  have hroom : s.ctr.toNat + (1 : DWord).toNat < 2 ^ 64 := Nat.add_lt_of_lt_sub h
  exact BitVec.toNat_add_of_lt hroom

/-- Settles O41: the three cases of NEXTBLK. -/
theorem nextblkGeneratesBlockOrRaises : Obligations.NextblkGeneratesBlockOrRaises :=
  fun s => ⟨exec_nextblk_raises_notReady, exec_nextblk_raises_counter, fun hv hlt =>
    ⟨generated s, exec_nextblk_generates hv hlt, generated_ctr_toNat hlt, rfl⟩⟩

end Sys2Proof.Proofs.Cipher

/-!
PROOFS of the family 45_mask: what MASK does to the selected buffer and to the cipher state, and the order of its
errors (spec/45_mask.md R181, R182).
-/

namespace Sys2Proof.Proofs.Mask

open Sys2Proof Sys2Proof.Machine Sys2Proof.Laws

/-! ### The errors of MASK, in their order -/

theorem exec_mask_raises_notReady {s : State} {buf : BufSel} {base : Nat} (hb : maskBase buf = some base)
    (hv : s.status.ciphV = false) :
    exec (.mask buf) s = .next (s.afterError 5 (encode (.mask buf)) 3) := by
  simp only [exec, execMask, hb]
  rw [if_pos hv, raise_eq_afterError]
  rfl

theorem exec_mask_raises_payload {s : State} {buf : BufSel} {base : Nat} (hb : maskBase buf = some base)
    (hv : s.status.ciphV = true) (hp : buf = .pmem) (hover : s.cfg.pmax < s.plen.toNat) :
    exec (.mask buf) s = .next (s.afterError 4 (encode (.mask buf)) 0) := by
  simp only [exec, execMask, hb]
  rw [if_neg (by simp [hv]), if_pos ⟨hp, hover⟩, raise_eq_afterError]
  rfl

theorem exec_mask_raises_counter {s : State} {buf : BufSel} {base : Nat} (hb : maskBase buf = some base)
    (hv : s.status.ciphV = true) (hfits : buf = .pmem → s.plen.toNat ≤ s.cfg.pmax)
    (hover : ctrLimit < s.ctr.toNat + ceil64 (s.maskLength buf)) :
    exec (.mask buf) s = .next (s.afterError 4 (encode (.mask buf)) 3) := by
  simp only [exec, execMask, hb]
  rw [if_neg (by simp [hv]), if_neg fun ⟨hp, hlt⟩ => (hfits hp).not_gt hlt, if_pos hover, raise_eq_afterError]
  rfl

theorem exec_mask_masks {s : State} {buf : BufSel} {base : Nat} (hb : maskBase buf = some base)
    (hv : s.status.ciphV = true) (hfits : buf = .pmem → s.plen.toNat ≤ s.cfg.pmax)
    (hroom : s.ctr.toNat + ceil64 (s.maskLength buf) ≤ ctrLimit) :
    exec (.mask buf) s = .next (s.maskBuffer base (s.maskLength buf)) := by
  simp only [exec, execMask, hb]
  rw [if_neg (by simp [hv]), if_neg fun ⟨hp, hlt⟩ => (hfits hp).not_gt hlt, if_neg hroom.not_gt]

/-! ### What a masked buffer leaves of the cipher state -/

/-- Within its range the counter counts the blocks used and does not wrap (R167, R181). -/
theorem maskBuffer_ctr_toNat {s : State} (base : Nat) {len : Nat} (h : s.ctr.toNat + ceil64 len ≤ ctrLimit) :
    (s.maskBuffer base len).ctr.toNat = s.ctr.toNat + ceil64 len := by
  have hlimit : ctrLimit < 2 ^ 64 := by decide
  have hblocks : (BitVec.ofNat 64 (ceil64 len)).toNat = ceil64 len := Nat.mod_eq_of_lt (by omega)
  rw [State.maskBuffer, BitVec.toNat_add_of_lt (by omega), hblocks]

theorem ceil64_ne_zero {len : Nat} (h : 0 < len) : ceil64 len ≠ 0 := by
  unfold ceil64
  omega

/-- A buffer that is not empty leaves its last block in KSBLK (R181). -/
theorem maskBuffer_ksblk_of_pos (s : State) (base : Nat) {len : Nat} (h : 0 < len) :
    (s.maskBuffer base len).ksblk =
      salsa20block s.key s.nonce (s.ctr + BitVec.ofNat 64 (ceil64 len - 1)) :=
  if_neg (ceil64_ne_zero h)

theorem maskBuffer_status_of_pos (s : State) (base : Nat) {len : Nat} (h : 0 < len) :
    (s.maskBuffer base len).status = s.status.setKeystream :=
  if_neg (ceil64_ne_zero h)

/-- An empty buffer uses no block (R181). -/
theorem maskBuffer_ksblk_status_of_zero (s : State) (base : Nat) {len : Nat} (h : len = 0) :
    (s.maskBuffer base len).ksblk = s.ksblk ∧ (s.maskBuffer base len).status = s.status := by
  subst h
  exact ⟨rfl, rfl⟩

/-! ### What a masked buffer leaves in memory -/

/-- Byte `i` of the buffer, counted from its start (R182). -/
theorem maskBuffer_byteAt_of_lt (s : State) (base : Nat) {len i : Nat} (h : i < len) :
    (s.maskBuffer base len).byteAt (base + i) = s.byteAt (base + i) ^^^
      (salsa20block s.key s.nonce (s.ctr + BitVec.ofNat 64 (i / 64))).getD (i % 64) 0 := by
  rw [byteAt_maskBuffer, if_pos (by omega), Nat.add_sub_cancel_left]

/-- No byte but those of the buffer changes (R181). -/
theorem maskBuffer_byteAt_of_outside (s : State) {base len a : Nat} (h : a < base ∨ base + len ≤ a) :
    (s.maskBuffer base len).byteAt a = s.byteAt a := by
  rw [byteAt_maskBuffer, if_neg (by omega)]

/-! ### The three buffers -/

/-- The rows of the statement are what the selector stands for in the model: the command word, the first address
and the length register of its buffer (R91, R94). -/
theorem selector_of_row {s : State} {buf : BufSel} {w : Word} {base len : Nat}
    (h : (buf, w, base, len) ∈ [(BufSel.pmem, (0x00000009 : Word), 0x40000000, s.plen.toNat),
      (BufSel.tmem, (0x00000109 : Word), 0x800, s.tlen.toNat),
      (BufSel.emem, (0x00000209 : Word), 0x80000000, s.elen.toNat)]) :
    encode (.mask buf) = w ∧ maskBase buf = some base ∧ s.maskLength buf = len := by
  simp only [List.mem_cons, List.not_mem_nil, or_false] at h
  obtain h | h | h := h
  all_goals
    cases h
    exact ⟨rfl, rfl, rfl⟩

/-- Settles O42: for each row of buffers the four cases of MASK, and the last leaves `maskBuffer`. -/
theorem maskXorsKeystreamOrRaises : Obligations.MaskXorsKeystreamOrRaises := by
  intro s buf w base len hrow
  obtain ⟨rfl, hb, rfl⟩ := selector_of_row hrow
  exact ⟨exec_mask_raises_notReady hb, exec_mask_raises_payload hb, exec_mask_raises_counter hb,
    fun hv hfits hroom => ⟨s.maskBuffer base (s.maskLength buf), exec_mask_masks hb hv hfits hroom, rfl,
      maskBuffer_ctr_toNat base hroom, fun _ => maskBuffer_byteAt_of_lt s base,
      fun _ => maskBuffer_byteAt_of_outside s, maskBuffer_ksblk_status_of_zero s base,
      fun hpos => ⟨maskBuffer_ksblk_of_pos s base hpos, maskBuffer_status_of_pos s base hpos⟩⟩⟩

end Sys2Proof.Proofs.Mask

/-!
PROOFS of the family 46_system: what CLR clears and keeps, and that it runs in the FAULT state too
(spec/46_system.md R191).
-/

namespace Sys2Proof.Proofs.System

open Sys2Proof Sys2Proof.Machine Sys2Proof.Laws Sys2Proof.Proofs.Encoding

theorem exec_clr (s : State) : exec .clr s = .next s.clear := rfl

/-- With no flag set the STATUS register reads 0 (R44). -/
theorem status_zero_word : Status.zero.word = 0 := by decide

/-- The column "after CLR" of R44: the registers by the laws of `State.clear`, the tables entry by entry. -/
theorem clear_cleared (s : State) : s.clear.Cleared where
  status := ⟨status_zero_word, clear_status s⟩
  error := ⟨clear_err s, clear_errcmd s, clear_errinfo s⟩
  lengths := ⟨clear_plen s, clear_olen s, clear_ebits s, clear_elen s, clear_tbits s, clear_tlen s⟩
  tree := ⟨clear_nnodes s, clear_nleaves s, clear_root s⟩
  counter := clear_ctr s
  inputs := ⟨fun _ => table_fill_getD 0 0, fun _ => table_fill_getD 0 0⟩
  keystream := fun _ => table_fill_getD 0 0
  hidden := ⟨fun _ => table_fill_getD 0 0, fun _ => table_fill_getD 0 0⟩
  tables := ⟨fun _ => table_fill_getD 0 0, fun _ => table_fill_getD Node.zero Node.zero,
    fun _ => table_fill_getD none none⟩

/-- CLR keeps the written bytes and the epoch of the free ones, so every byte reads as before (R191). -/
theorem clear_byteAt (s : State) (a : Nat) : s.clear.byteAt a = s.byteAt a :=
  byteAt_congr (clear_mem s) (clear_epoch s) a

/-- The word of CLR passes the FAULT gate (R214), and outside the FAULT state it decodes to CLR (R92). -/
theorem command_clrWord (s : State) : s.command clrWord = exec .clr s := by
  by_cases hf : s.err = 0
  · have hdecode : decode clrWord = .command .clr := decode_encode (i := .clr) (by decide)
    exact command_legal hf hdecode
  · exact command_clr hf

/-- Settles O18: CLR leaves `State.clear`, and its word runs it on both sides of the FAULT gate. -/
theorem clrClearsInvocation : Obligations.ClrClearsInvocation := by
  refine fun s => ⟨⟨s.clear, exec_clr s, clear_cleared s, clear_byteAt s, ?frame⟩, fun rest hp => ?runs⟩
  case frame =>
    exact ⟨clear_mem s, clear_cfg s, clear_pending s, clear_resp s, clear_rng s, clear_draws s, clear_epoch s⟩
  case runs =>
    rw [step_command hp]
    exact command_clrWord _

end Sys2Proof.Proofs.System

/-!
PROOFS of the family 47_decoder_reference: the Huffman round trip (spec/47_decoder_reference.md R204).
-/

namespace Sys2Proof.Proofs.DecoderReference

open Sys2Proof Sys2Proof.Machine Sys2Proof.Laws Sys2Proof.Proofs.Huffman Sys2Proof.Proofs.Codebook
  Sys2Proof.Proofs.Encoder Sys2Proof.Proofs.Serializer

/-! ### The counts of a byte list -/

theorem freqOf_countBytes_eq {p : List Byte} (hlen : p.length < 2 ^ 32) :
    freqOf (countBytes p) = fun b => p.count b :=
  funext (freqOf_countBytes hlen)

/-- Every byte of a list that COUNT has counted is a leaf byte (R113). -/
theorem mem_leafBytes_countBytes {p : List Byte} (hlen : p.length < 2 ^ 32) {b : Byte} (hb : b ∈ p) :
    b ∈ leafBytes (countBytes p) := by
  have hpos : 0 < p.count b := List.count_pos_iff.2 hb
  have hfreq : freqOf (countBytes p) b ≠ 0 := by
    rw [freqOf_countBytes hlen]
    omega
  exact (mem_leafBytes _ _).2 (.inl hfreq)

/-- The counts of the leaf bytes sum to the length of the list, so BUILD accepts them. -/
theorem freqTotal_countBytes {p : List Byte} (hlen : p.length < 2 ^ 32) :
    freqTotal (countBytes p) = p.length := by
  calc freqTotal (countBytes p)
      = ((leafBytes (countBytes p)).map (freqOf (countBytes p))).sum := (sum_leafBytes _).symm
    _ = ((leafBytes (countBytes p)).map fun b => p.count b * 1).sum := by
        simp only [freqOf_countBytes_eq hlen, Nat.mul_one]
    _ = (p.map fun _ => 1).sum :=
        (sum_map_eq_sum_count (fun _ => 1) (leafBytes_nodup _) p fun _ => mem_leafBytes_countBytes hlen).symm
    _ = p.length := by simp

/-! ### The tree of BUILD -/

/-- The tree that BUILD leaves has the leaf bytes as its leaves, and its merges cost at most 8 times the total
(R144). -/
theorem exists_built_tree {s : State} (h : freqTotal s.freq ≤ totalLimit) :
    ∃ tree, (built s).tree? = some tree ∧ tree.leaves.Perm (leafBytes s.freq) ∧
      treeCost (freqOf s.freq) tree ≤ 8 * freqTotal s.freq := by
  obtain ⟨⟨k, cost, hcost, hinv⟩, -⟩ := buildRecords_spec s.freq h
  obtain ⟨tree, hrecords, hleaves, rfl⟩ := hinv.tree
  have hlen := length_buildRecords h
  have htwo := (leafBytes_length s.freq).1
  rw [loopInv_root_index hinv (by omega)] at hrecords
  refine ⟨tree, (tree?_eq_some_iff _ _).2 ⟨?_, buildable_of_leaves hleaves⟩, hleaves, hcost⟩
  rwa [built_nodeAt h, built_nnodes h, built_root h]

/-! ### Encoding with the codebook of a tree, and decoding with the tree -/

/-- A byte among the leaves has its leaf path as its code. -/
theorem exists_codeOf_codebookOf {tree : CodeTree} (hdistinct : tree.leaves.Nodup) {b : Byte}
    (hb : b ∈ tree.leaves) :
    ∃ c, codeOf (codebookOf tree) b = some c ∧ subtree tree c = some (.leaf b) := by
  obtain ⟨c, hc⟩ := (mem_leaves_iff tree b).1 hb
  exact ⟨c, (codeOf_codebookOf_iff hdistinct b c).2 hc, hc⟩

/-- ENCODE misses no code of a list whose bytes are all leaves. -/
theorem firstMissing_codebookOf {tree : CodeTree} (hdistinct : tree.leaves.Nodup) {p : List Byte}
    (hp : ∀ b ∈ p, b ∈ tree.leaves) : firstMissing (codebookOf tree) p = none := by
  rw [firstMissing, List.findIdx?_eq_none_iff]
  intro b hb
  obtain ⟨c, hc, -⟩ := exists_codeOf_codebookOf hdistinct (hp b hb)
  rw [hc, Option.isNone_some]

/-- The reference decoder undoes encoding and packing (R202). -/
theorem decodeBits_pack_encodeBits {tree : CodeTree} (hinternal : ∀ b, tree ≠ .leaf b)
    (hdistinct : tree.leaves.Nodup) {p : List Byte} (hp : ∀ b ∈ p, b ∈ tree.leaves) :
    decodeBits tree (pack (encodeBits (codebookOf tree) p)) (encodeBits (codebookOf tree) p).length
      p.length = some p := by
  have hwalk : walkBits tree tree (encodeBits (codebookOf tree) p) = some p := by
    refine walkBits_codes hinternal _ p fun b hb => ?_
    obtain ⟨c, hc, hpath⟩ := exists_codeOf_codebookOf hdistinct (hp b hb)
    rwa [hc, Option.getD_some]
  cases tree with
  | leaf b => exact absurd rfl (hinternal b)
  | node l r =>
    rw [decodeBits, if_pos (length_pack _), unpack_pack, hwalk]
    exact if_pos rfl

/-! ### The five commands -/

/-- The state a COUNT that goes on leaves (R111); `exec_count_counts` says so. -/
def counted (s : State) : State := { s with freq := countBytes s.payload }

/-- The state COUNT, BUILD and a DERIVE of the tree `tree` leave (R131); `exec_derive_derives` says so. -/
def coded (s : State) (tree : CodeTree) : State :=
  { built (counted s) with
    cb := codebookOf tree
    status := (built (counted s)).status.setCodebook }

theorem length_payload (s : State) : s.payload.length = s.plen.toNat := length_bytesAt ..

theorem length_payload_lt (s : State) : s.payload.length < 2 ^ 32 := by
  rw [length_payload]
  exact s.plen.isLt

/-- PLEN is a 32-bit word, so BUILD accepts the counts of every payload (R114). -/
theorem counted_total_le (s : State) : freqTotal (counted s).freq ≤ totalLimit := by
  have hlen := length_payload_lt s
  have htotal : freqTotal (counted s).freq = s.payload.length := freqTotal_countBytes hlen
  rw [htotal, totalLimit]
  omega

/-- COUNT and BUILD leave a tree with distinct leaves that has every byte of the payload, and its codes take at
most 8 bits a byte (R144). -/
theorem exists_payload_tree (s : State) :
    ∃ tree, (built (counted s)).tree? = some tree ∧ tree.leaves.Nodup ∧
      (∀ b ∈ s.payload, b ∈ tree.leaves) ∧
      (encodeBits (codebookOf tree) s.payload).length ≤ 8 * s.plen.toNat := by
  have hlen := length_payload_lt s
  obtain ⟨tree, htree, hleaves, hcost⟩ := exists_built_tree (counted_total_le s)
  have hdistinct : tree.leaves.Nodup := hleaves.nodup_iff.2 (leafBytes_nodup _)
  have hmem : ∀ b ∈ s.payload, b ∈ tree.leaves := fun b hb =>
    hleaves.mem_iff.2 (mem_leafBytes_countBytes hlen hb)
  have hcounts : freqOf (counted s).freq = fun b => s.payload.count b := freqOf_countBytes_eq hlen
  have htotal : freqTotal (counted s).freq = s.plen.toNat :=
    (freqTotal_countBytes hlen).trans (length_payload s)
  refine ⟨tree, htree, hdistinct, hmem, ?_⟩
  rwa [length_encodeBits hdistinct s.payload (codeOf_codebookOf_iff hdistinct) hmem, ← hcounts, ← htotal]

/-- At most 8 bits a byte pack into no more bytes than the payload has, and PMAX <= EMAX (R9, R144). -/
theorem ceil8_le_emax {s : State} (hcfg : s.cfg.Valid) (hfits : s.plen.toNat ≤ s.cfg.pmax) {n : Nat}
    (hn : n ≤ 8 * s.plen.toNat) : ceil8 n ≤ s.cfg.emax := by
  obtain ⟨-, -, -, hmax, -⟩ := hcfg
  unfold ceil8
  omega

/-- TMEM lies below EMEM, so SERIALIZE leaves every run of EMEM as ENCODE wrote it (R39 to R41). -/
theorem serialized_bytesAt_emem (s : State) {tree : CodeTree} (h : tree.buildable = true) (len : Nat) :
    (serialized s tree).bytesAt ememBase len = s.bytesAt ememBase len := by
  obtain ⟨-, -, hfits⟩ := serialized_lengths s h
  refine bytesAt_congr _ _ fun i _ => serialized_byteAt_of_outside s tree (.inr ?_)
  unfold tmemSize at hfits
  unfold tmemBase ememBase
  omega

/-- After SERIALIZE the reference reader finds the tree and consumes TBITS bits (R201). -/
theorem deserialize_serialized (s : State) {tree : CodeTree} (h : tree.buildable = true) :
    deserialize ((serialized s tree).bytesAt tmemBase (serialized s tree).tlen.toNat) =
      some (tree, (serialized s tree).tbits.toNat) := by
  obtain ⟨htbits, htlen, -⟩ := serialized_lengths s h
  rw [htlen, htbits, serialized_bytesAt, deserialize_pack_ser]

/-- Where CB is the codebook of a tree that has the payload's bytes, ENCODE leaves what the reference decoder
turns back into the payload (R202). -/
theorem decodeBits_encoded {s : State} {tree : CodeTree} (hcfg : s.cfg.Valid) (hcb : s.cb = codebookOf tree)
    (hinternal : ∀ b, tree ≠ .leaf b) (hdistinct : tree.leaves.Nodup)
    (hmem : ∀ b ∈ s.payload, b ∈ tree.leaves)
    (hroom : ceil8 (encodeBits s.cb s.payload).length ≤ s.cfg.emax) :
    decodeBits tree ((encoded s).bytesAt ememBase (encoded s).elen.toNat) (encoded s).ebits.toNat
      (encoded s).olen.toNat = some s.payload := by
  obtain ⟨hebits, helen⟩ := encoded_lengths hcfg hroom
  have holen : (encoded s).olen.toNat = s.payload.length := (length_payload s).symm
  rw [helen, hebits, holen, encoded_bytesAt, hcb]
  exact decodeBits_pack_encodeBits hinternal hdistinct hmem

/-- The bytes at PMEM are the payload when PLEN is their number (R25). -/
theorem payload_eq {s : State} {p : List Byte} (hlen : p.length = s.plen.toNat)
    (hp : ∀ i < p.length, s.byteAt (pmemBase + i) = p.getD i 0) : s.payload = p := by
  rw [State.payload, ← hlen]
  exact (bytesAt_eq_iff s pmemBase p).2 hp

/-- Settles O36: one tree runs through all five commands. COUNT and BUILD leave it in the arena, DERIVE and ENCODE
write its codes, which fit EMEM since PMAX <= EMAX, and SERIALIZE writes its bit form beside them. -/
theorem huffmanRoundTrip : Obligations.HuffmanRoundTrip := by
  intro s p hcfg herr hlen hp hfits
  obtain rfl := payload_eq hlen hp
  rw [length_payload] at hfits
  obtain ⟨tree, htree, hdistinct, hmem, hbits⟩ := exists_payload_tree s
  obtain ⟨-, hbuildable⟩ := (tree?_eq_some_iff _ _).1 htree
  obtain ⟨-, -, hinternal⟩ := buildable_leaves hbuildable
  have hroom := ceil8_le_emax hcfg hfits hbits
  have hkept : (encoded (coded s tree)).tree? = some tree := (tree?_congr rfl rfl rfl).trans htree
  refine ⟨counted s, built (counted s), coded s tree, encoded (coded s tree),
    serialized (encoded (coded s tree)) tree, exec_count_counts hfits,
    exec_build_builds (counted_total_le s), exec_derive_derives rfl htree,
    exec_encode_encodes hfits (firstMissing_codebookOf hdistinct hmem) hroom,
    exec_serialize_serializes rfl hkept, herr, tree, deserialize_serialized _ hbuildable, ?decoded⟩
  case decoded =>
    rw [serialized_bytesAt_emem _ hbuildable]
    exact decodeBits_encoded (s := coded s tree) hcfg rfl hinternal hdistinct hmem hroom

end Sys2Proof.Proofs.DecoderReference

/-!
PROOFS of the family other, the decoder: decoding and encoding are inverse on the legal words
(spec/30_encoding.md R91, R92, R95).
-/

namespace Sys2Proof.Proofs.Decoding

open Sys2Proof Sys2Proof.Machine Sys2Proof.Laws Sys2Proof.Proofs.Encoding

/-! ### A word and its fields -/

/-- A word is its three fields, one after the other (R91). -/
theorem fields_append (w : Word) : rsvField w ++ bufField w ++ opcField w = w := by
  rw [rsvField, bufField, opcField, BitVec.extractLsb'_append_extractLsb'_eq_extractLsb' (by rfl),
    BitVec.extractLsb'_append_extractLsb'_eq_extractLsb' (by rfl)]
  exact BitVec.extractLsb'_eq_self

theorem bufBits_bufSelOf (b : BitVec 2) : bufBits (bufSelOf b) = b := by
  revert b
  decide

theorem bufSelOf_eq_reserved_iff (b : BitVec 2) : bufSelOf b = .reserved ↔ b = 3 := by
  revert b
  decide

/-- An entry of the opcode map stands at the opcode of its command (R92). -/
theorem opcodeOf_of_commandOf {opc : Byte} {buf : BufSel} {i : Instr} (h : commandOf opc buf = some i) :
    opcodeOf i = opc := by
  unfold commandOf at h
  split at h
  case h_11 => cases h
  all_goals
    cases h
    exact BitVec.eq_of_toNat_eq (Eq.symm ‹_›)

/-- MASK takes the selector it was given, and no other command has its opcode (R92, R94). -/
theorem commandOf_mask_or_ne {opc : Byte} {buf : BufSel} {i : Instr} (h : commandOf opc buf = some i) :
    (opc = 0x09 ∧ i = .mask buf) ∨ (opc ≠ 0x09 ∧ ∀ b, i ≠ .mask b) := by
  have hopc := opcodeOf_of_commandOf h
  subst hopc
  cases i with
  | mask b => exact .inl ⟨rfl, (Option.some.inj h).symm⟩
  | _ => exact .inr ⟨by decide, fun b hb => by cases hb⟩

/-- What the decoder accepts, check by check (R93). -/
theorem decode_eq_command {w : Word} {i : Instr} (h : decode w = .command i) :
    rsvField w = 0 ∧ commandOf (opcField w) (bufSelOf (bufField w)) = some i ∧
      (opcField w ≠ 0x09 → bufField w = 0) ∧ (opcField w = 0x09 → bufField w ≠ 3) := by
  unfold decode at h
  split at h
  · cases h
  · rename_i hrsv
    split at h
    · cases h
    · rename_i j hj
      split at h
      · cases h
      · rename_i houtside
        split at h
        · cases h
        · rename_i hreserved
          cases h
          exact ⟨not_not.1 hrsv, hj, fun hopc => not_not.1 fun hbuf => houtside ⟨hopc, hbuf⟩,
            fun hopc hbuf => hreserved ⟨hopc, hbuf⟩⟩

/-- An accepted word is the encoding of a legal command: its fields are those of the command. -/
theorem encode_of_decode {w : Word} {i : Instr} (h : decode w = .command i) : WellFormed i ∧ encode i = w := by
  obtain ⟨hrsv, hcmd, hother, hmask⟩ := decode_eq_command h
  have hfields : wellFormed i = true ∧ bufFieldOf i = bufField w := by
    obtain ⟨hopc, rfl⟩ | ⟨hopc, hne⟩ := commandOf_mask_or_ne hcmd
    · refine ⟨?_, bufBits_bufSelOf _⟩
      rw [wellFormed, bne_iff_ne, Ne, bufSelOf_eq_reserved_iff]
      exact hmask hopc
    · rw [hother hopc]
      cases i with
      | mask b => exact absurd rfl (hne b)
      | _ => exact ⟨rfl, rfl⟩
  obtain ⟨hwf, hbuf⟩ := hfields
  refine ⟨hwf, ?_⟩
  rw [encode, hbuf, opcodeOf_of_commandOf hcmd, ← hrsv, fields_append]

/-- Settles O1: the round trip of each legal command one way, the fields of an accepted word the other. -/
theorem decodeIsInverseOfEncode : Obligations.DecodeIsInverseOfEncode := by
  refine fun w i => ⟨encode_of_decode, ?_⟩
  rintro ⟨hwf, rfl⟩
  exact decode_encode hwf

/-- Settles O2: the words are the encodings of the legal commands (R95). -/
theorem exactlyTwelveWordsAreLegal : Obligations.ExactlyTwelveWordsAreLegal := by
  intro w
  simp only [decodeIsInverseOfEncode w]
  constructor
  · rintro ⟨i, hwf, rfl⟩
    cases i with
    | mask b =>
      cases b with
      | reserved => cases hwf
      | _ => decide
    | _ => decide
  · intro hw
    simp only [List.mem_cons, List.not_mem_nil, or_false] at hw
    obtain rfl | rfl | rfl | rfl | rfl | rfl | rfl | rfl | rfl | rfl | rfl | rfl := hw
    · exact ⟨.clr, rfl, rfl⟩
    · exact ⟨.count, rfl, rfl⟩
    · exact ⟨.build, rfl, rfl⟩
    · exact ⟨.derive, rfl, rfl⟩
    · exact ⟨.encode, rfl, rfl⟩
    · exact ⟨.serialize, rfl, rfl⟩
    · exact ⟨.cinit, rfl, rfl⟩
    · exact ⟨.nextblk, rfl, rfl⟩
    · exact ⟨.mask .pmem, rfl, rfl⟩
    · exact ⟨.mask .tmem, rfl, rfl⟩
    · exact ⟨.mask .emem, rfl, rfl⟩
    · exact ⟨.keygen, rfl, rfl⟩

/-- Settles O3: each word is the encoding of its command, bit for bit. -/
theorem commandWordsDecode : Obligations.CommandWordsDecode :=
  ⟨decode_encode (i := .clr) rfl, decode_encode (i := .count) rfl, decode_encode (i := .build) rfl,
    decode_encode (i := .derive) rfl, decode_encode (i := .encode) rfl, decode_encode (i := .serialize) rfl,
    decode_encode (i := .cinit) rfl, decode_encode (i := .nextblk) rfl, decode_encode (i := .mask .pmem) rfl,
    decode_encode (i := .mask .tmem) rfl, decode_encode (i := .mask .emem) rfl,
    decode_encode (i := .keygen) rfl⟩

/-! ### A step and the command it serves -/

/-- Outside the FAULT state the step at a CMD write runs the decoded command (R70, R93). -/
theorem step_runs {s : State} {w : Word} {i : Instr} {rest : List HostEvent}
    (hp : s.pending = .write 0 .word w :: rest) (h : s.err = 0) (hw : decode w = .command i) :
    step s = exec i { s with pending := rest, resp := some ⟨true, 0⟩ } := by
  rw [step_command hp]
  exact command_legal h hw

/-- A 32-bit table row queues its word as the next write to CMD (log 4). -/
theorem withFetchWord_pending (s : State) (w : Word) :
    (s.withFetchWord 32 w.toNat).pending = .write 0 .word w :: s.pending := by
  rw [State.withFetchWord, Nat.mod_eq_of_lt w.isLt, BitVec.ofNat_toNat, BitVec.setWidth_eq]
  rfl

/-- Settles O5: the step at a CMD write, and `withFetchWord` as one more such write. -/
theorem stepRunsDecodedCommand : Obligations.StepRunsDecodedCommand :=
  ⟨fun _ _ _ _ => step_runs, fun s w _ h hw => step_runs (withFetchWord_pending s w) h hw⟩

end Sys2Proof.Proofs.Decoding

/-!
PROOFS of the family other, the tree of BUILD: the arena it leaves is a strict tree (spec/10_state.md R29, R36), no
weight wraps (spec/40_huffman_tree.md R118), and the two smallest trees (R113, R119).
-/

namespace Sys2Proof.Proofs.Tree

open Sys2Proof Sys2Proof.Machine Sys2Proof.Laws Sys2Proof.Proofs.Huffman Sys2Proof.Proofs.DecoderReference

/-! ### COUNT -/

/-- Settles O20: the counts of a byte list sum to its length, and the payload has PLEN bytes. -/
theorem countsSumToPayloadLength : Obligations.CountsSumToPayloadLength := by
  intro s t _ hfits ht
  obtain ⟨hover, -⟩ | ⟨-, rfl⟩ := execCount_next ht
  · omega
  · exact (freqTotal_countBytes (length_payload_lt s)).trans (length_payload s)

/-! ### The arena BUILD leaves -/

section

variable {s : State}

/-- An internal record has two different children below it and the sum of their weights (R36). -/
theorem built_internal (h : freqTotal s.freq ≤ totalLimit) {i : Nat} (hlow : (built s).nleaves.toNat ≤ i)
    (hhigh : i < (built s).nnodes.toNat) :
    ∃ w l r, (built s).nodeAt i = .internal w l r ∧ l.toNat < i ∧ r.toNat < i ∧ l ≠ r ∧
      w.toNat = ((built s).nodeAt l.toNat).weight + ((built s).nodeAt r.toNat).weight := by
  obtain ⟨w, l, r, hn, hw, ⟨hl, -⟩, ⟨hr, -⟩, hbefore, -⟩ := built_mergesLeastTwo h hlow hhigh
  refine ⟨w, l, r, hn, hl, hr, ?distinct, hw⟩
  case distinct =>
    rintro rfl
    simp [Before] at hbefore

/-- Every record but the root has exactly one parent: it has been merged, and each merge takes new records. -/
theorem built_oneParent (h : freqTotal s.freq ≤ totalLimit) {i : Nat} (hi : i < (built s).root.toNat) :
    ∃ p, p < (built s).nnodes.toNat ∧ i ∈ ((built s).nodeAt p).children ∧
      ∀ q < (built s).nnodes.toNat, i ∈ ((built s).nodeAt q).children → q = p := by
  obtain ⟨⟨k, cost, -, hinv⟩, -⟩ := buildRecords_spec s.freq h
  rw [built_root h] at hi
  rw [built_nnodes h, built_nodeAt h]
  have hroot := loopInv_root_index hinv (by omega)
  have hmerged : ¬ UnmergedAt (recordAt (buildRecords s.freq)) (buildRecords s.freq).length i := by
    intro hun
    obtain ⟨k', hk', rfl⟩ := (hinv.unmerged i).2 hun
    rw [List.mem_singleton.1 hk'] at hi
    omega
  have hparent : ∃ p < (buildRecords s.freq).length,
      i ∈ (recordAt (buildRecords s.freq) p).children := by
    by_contra hnone
    push Not at hnone
    exact hmerged ⟨by omega, hnone⟩
  obtain ⟨p, hp, hchild⟩ := hparent
  exact ⟨p, hp, hchild, fun q hq hchild' => hinv.oneParent i q p hq hp hchild' hchild⟩

/-- Two leaf records with one byte are one record, since the leaf bytes ascend. -/
theorem built_leaf_index_unique (h : freqTotal s.freq ≤ totalLimit) {i j : Nat} {b : Byte} {v w : Word}
    (hi : i < (built s).nleaves.toNat) (hj : j < (built s).nnodes.toNat)
    (hbi : (built s).nodeAt i = .leaf b v) (hbj : (built s).nodeAt j = .leaf b w) : j = i := by
  have hjleaf : j < (built s).nleaves.toNat := by
    by_contra hge
    obtain ⟨w', l, r, hn, -⟩ := built_internal h (Nat.le_of_not_lt hge) hj
    cases hn.symm.trans hbj
  rcases Nat.lt_trichotomy j i with hlt | heq | hgt
  · exact absurd (built_leaves_ascend h hlt hi hbj hbi) (BitVec.lt_irrefl _)
  · exact heq
  · exact absurd (built_leaves_ascend h hgt hjleaf hbi hbj) (BitVec.lt_irrefl _)

/-- Every leaf record is reached along exactly one path: that of its byte in the tree of the records (R36). -/
theorem built_reached (h : freqTotal s.freq ≤ totalLimit) {i : Nat} (hi : i < (built s).nleaves.toNat) :
    ∃ c, follow (built s).nodeAt (built s).root.toNat c = some i ∧
      ∀ d, follow (built s).nodeAt (built s).root.toNat d = some i → d = c := by
  obtain ⟨tree, htree, hleaves, -⟩ := exists_built_tree h
  obtain ⟨hrecords, -⟩ := (tree?_eq_some_iff _ _).1 htree
  have hdistinct : tree.leaves.Nodup := hleaves.nodup_iff.2 (leafBytes_nodup _)
  obtain ⟨b, hb, hleaf⟩ := built_leaf_isLeafByte h hi
  have hmem : b ∈ tree.leaves := hleaves.mem_iff.2 ((mem_leafBytes _ _).2 hb)
  obtain ⟨c, hc⟩ := (mem_leaves_iff tree b).1 hmem
  obtain ⟨j, w, hfollow, hj⟩ := (follow_leaf_iff hrecords c b).1 hc
  obtain rfl := built_leaf_index_unique h hi (follow_lt hrecords hfollow) hleaf hj
  exact ⟨c, hfollow, fun d hd =>
    leaf_path_unique hdistinct ((follow_leaf_iff hrecords d b).2 ⟨j, w, hd, hj⟩) hc⟩

/-- The arena BUILD leaves meets R29 and R36. -/
theorem built_arenaOk (h : freqTotal s.freq ≤ totalLimit) : (built s).ArenaOk where
  leafCount := built_nleaves s ▸ leafBytes_length s.freq
  nodeCount := by rw [built_nnodes h, built_nleaves, length_buildRecords h]
  rootLast := by rw [built_root h, built_nnodes h]
  leaves := fun _ hi =>
    let ⟨b, _, hleaf⟩ := built_leaf_isLeafByte h hi
    ⟨b, _, hleaf⟩
  ascending := fun _ _ _ _ _ _ => built_leaves_ascend h
  internals := fun _ => built_internal h
  oneParent := fun _ => built_oneParent h
  unused := fun i _ hi => by
    rw [built_nnodes h] at hi
    rw [built_nodeAt h, recordAt, List.getD_eq_default _ _ hi]
  reached := fun _ => built_reached h
  walks := built_tree? h

end

/-- Settles O22: the state a BUILD that goes on leaves has a well-formed arena. -/
theorem buildLeavesStrictTree : Obligations.BuildLeavesStrictTree :=
  fun s h => ⟨built s, exec_build_builds h, built_arenaOk h⟩

/-- Settles O23: the root is the one element left in the queue, which holds the whole total at every pass, and the
total bounds every record. -/
theorem rootWeightIsTotal : Obligations.RootWeightIsTotal := by
  intro s t h ht
  obtain rfl : built s = t := Host.Outcome.next.inj ((exec_build_builds h).symm.trans ht)
  obtain ⟨⟨k, cost, -, hinv⟩, -⟩ := buildRecords_spec s.freq h
  have hlen := length_buildRecords h
  have htwo := (leafBytes_length s.freq).1
  have hroot := loopInv_root_index hinv (by omega)
  have hweight := hinv.weights k (List.mem_singleton_self k)
  have hsum : k.weight = freqTotal s.freq := by simpa using hinv.sum
  rw [built_nodeAt h, built_root h, built_nnodes h, ← hroot, ← hweight]
  exact ⟨hsum, hinv.bounded⟩

/-! ### The smallest trees -/

/-- The records of two leaves: one merge, the lighter leaf to the left, the first on a tie (R114, R115). -/
theorem buildRecords_pair {freq : Table Word 256} {x y : Byte} (h : leafBytes freq = [x, y]) :
    buildRecords freq = [.leaf x (freq.getD x.toNat 0), .leaf y (freq.getD y.toNat 0),
      if freqOf freq y < freqOf freq x then .internal (BitVec.ofNat 32 (freqOf freq y + freqOf freq x)) 1 0
      else .internal (BitVec.ofNat 32 (freqOf freq x + freqOf freq y)) 0 1] := by
  rw [buildRecords, leafNodes, leafQueue, h]
  by_cases hlt : freqOf freq y < freqOf freq x
  · simp [mergeLoop, queuePop, queueLeast, QueueKey.before, hlt]
  · simp [mergeLoop, queuePop, queueLeast, QueueKey.before, hlt]

/-- What BUILD leaves of two leaves (R112, R114). -/
theorem built_pair {s : State} {x y : Byte} (h : freqTotal s.freq ≤ totalLimit)
    (hleaves : leafBytes s.freq = [x, y]) :
    (built s).nnodes = 3 ∧ (built s).nleaves = 2 ∧ (built s).root = 2 ∧
      (built s).nodeAt 0 = .leaf x (s.freq.getD x.toNat 0) ∧
      (built s).nodeAt 1 = .leaf y (s.freq.getD y.toNat 0) ∧
      (built s).nodeAt 2 =
        if freqOf s.freq y < freqOf s.freq x then
          .internal (BitVec.ofNat 32 (freqOf s.freq y + freqOf s.freq x)) 1 0
        else .internal (BitVec.ofNat 32 (freqOf s.freq x + freqOf s.freq y)) 0 1 := by
  rw [built_nodeAt h]
  simp only [built, buildRecords_pair hleaves, hleaves]
  exact ⟨rfl, rfl, rfl, rfl, rfl, rfl⟩

/-- Settles O26: with no byte present the leaf list is the two phantoms (R113), both of weight 0. -/
theorem emptyTableTreeIsMinimal : Obligations.EmptyTableTreeIsMinimal := by
  intro s hzero
  have hleaves : leafBytes s.freq = [0x00, 0x01] := by
    rw [leafBytes, (presentBytes_eq_nil_iff _).2 hzero]
  have htotal : freqTotal s.freq = 0 := by
    rw [← sum_leafBytes, hleaves]
    simp [hzero]
  have h : freqTotal s.freq ≤ totalLimit := htotal ▸ Nat.zero_le _
  have hentry (b : Byte) : s.freq.getD b.toNat 0 = 0 := BitVec.eq_of_toNat_eq (hzero b)
  obtain ⟨hnodes, hcount, hroot, h0, h1, h2⟩ := built_pair h hleaves
  rw [hentry] at h0 h1
  rw [hzero, hzero, if_neg (lt_irrefl 0)] at h2
  exact ⟨built s, exec_build_builds h, hnodes, hcount, hroot, h0, h1, h2⟩

/-- Settles O25: the phantom differs in bit 0, so it stands above an even byte and below an odd one (R113); its
weight 0 is the smaller one, so it becomes the left child (R115). -/
theorem singleByteTreeHasPhantom : Obligations.SingleByteTreeHasPhantom := by
  intro s b w hone hw
  have hleaves : leafBytes s.freq = if b < b ^^^ 1 then [b, b ^^^ 1] else [b ^^^ 1, b] := by
    rw [leafBytes, (presentBytes_eq_singleton_iff _ b).2 hone]
  have hphantom : freqOf s.freq (b ^^^ 1) = 0 := not_not.1 fun hne => xor_one_ne b ((hone _).1 hne)
  have hpos : 0 < freqOf s.freq b := Nat.pos_of_ne_zero ((hone b).2 rfl)
  have hentry : s.freq.getD b.toNat 0 = w := BitVec.eq_of_toNat_eq hw
  have hentry' : s.freq.getD (b ^^^ 1).toNat 0 = 0 := BitVec.eq_of_toNat_eq hphantom
  have htotal : freqTotal s.freq = w.toNat := by
    rw [← sum_presentBytes, (presentBytes_eq_singleton_iff _ b).2 hone, ← hw]
    simp
  have h : freqTotal s.freq ≤ totalLimit := by
    have hlt := w.isLt
    rw [htotal, totalLimit]
    omega
  refine ⟨built s, exec_build_builds h, ?_⟩
  simp only [(lt_or_xor_one_lt b).1] at hleaves
  by_cases heven : b.toNat % 2 = 0
  · rw [if_pos heven] at hleaves ⊢
    obtain ⟨hnodes, hcount, hroot, h0, h1, h2⟩ := built_pair h hleaves
    rw [hphantom, if_pos hpos, hw, Nat.zero_add, BitVec.ofNat_toNat, BitVec.setWidth_eq] at h2
    exact ⟨hnodes, hcount, hroot, hentry ▸ h0, hentry' ▸ h1, h2⟩
  · rw [if_neg heven] at hleaves ⊢
    obtain ⟨hnodes, hcount, hroot, h0, h1, h2⟩ := built_pair h hleaves
    rw [hphantom, if_neg (Nat.not_lt_zero _), hw, Nat.zero_add, BitVec.ofNat_toNat, BitVec.setWidth_eq] at h2
    exact ⟨hnodes, hcount, hroot, hentry' ▸ h0, hentry ▸ h1, h2⟩

end Sys2Proof.Proofs.Tree

/-!
PROOFS of the family other, the products of the tree: the codes of DERIVE (spec/41_codebook.md R132, R133), the size
of ENCODE's output (spec/42_bitstream_encoder.md R144) and the bit form SERIALIZE leaves
(spec/43_tree_serializer.md R152, R153).
-/

namespace Sys2Proof.Proofs.Products

open Sys2Proof Sys2Proof.Machine Sys2Proof.Laws Sys2Proof.Proofs.Huffman Sys2Proof.Proofs.Codebook
  Sys2Proof.Proofs.Encoder Sys2Proof.Proofs.Serializer Sys2Proof.Proofs.DecoderReference

/-! ### DERIVE -/

/-- A path to a leaf of a tree BUILD can make has 1 to 255 branches (R132). -/
theorem leaf_path_length {tree : CodeTree} (h : tree.buildable = true) {b : Byte} {c : List Bool}
    (hc : subtree tree c = some (.leaf b)) : 1 ≤ c.length ∧ c.length ≤ 255 := by
  obtain ⟨-, hfew, hinternal⟩ := buildable_leaves h
  have hdepth := length_le_depth hc
  have hleaves := depth_lt_leaves tree
  refine ⟨List.length_pos_iff.2 ?nonempty, by omega⟩
  case nonempty =>
    rintro rfl
    exact hinternal b (Option.some.inj hc)

/-- The codes of a tree with distinct leaves are those of R37 and R38. -/
theorem codebookOf_ok {tree : CodeTree} (hbuildable : tree.buildable = true) (hdistinct : tree.leaves.Nodup)
    {s : State} (hcb : s.cb = codebookOf tree) : s.CodebookOk where
  lengths := fun b c hc => by
    rw [hcb, codeOf_codebookOf_iff hdistinct] at hc
    exact leaf_path_length hbuildable hc
  prefixFree := fun b b' c c' hc hc' hne hprefix => by
    rw [hcb, codeOf_codebookOf_iff hdistinct] at hc hc'
    exact hne (leaf_path_prefix hprefix hc hc').2

/-- A byte has a code exactly where it is a leaf (R131). -/
theorem codeOf_codebookOf_ne_none_iff {tree : CodeTree} (hdistinct : tree.leaves.Nodup) (b : Byte) :
    codeOf (codebookOf tree) b ≠ none ↔ b ∈ tree.leaves := by
  rw [Option.ne_none_iff_exists', mem_leaves_iff]
  simp only [codeOf_codebookOf_iff hdistinct]

/-- What DERIVE leaves of a well-formed arena: the codebook of its tree. -/
theorem exec_derive_codebook {s t : State} (hv : s.status.treeV = true) (harena : s.ArenaOk)
    (ht : exec .derive s = .next t) :
    ∃ tree, tree.buildable = true ∧ tree.leaves.Nodup ∧ t.cb = codebookOf tree ∧
      ∀ b, b ∈ tree.leaves ↔ ∃ i < s.nleaves.toNat, ∃ w, s.nodeAt i = .leaf b w := by
  obtain ⟨tree, htree, -, hbuildable, hdistinct, -, hmem⟩ := arena_tree harena
  rw [exec_derive_derives hv htree] at ht
  cases ht
  exact ⟨tree, hbuildable, hdistinct, rfl, hmem⟩

/-- Settles O28: the codes are the leaf paths of one tree with distinct leaves. -/
theorem derivedCodesArePrefixFree : Obligations.DerivedCodesArePrefixFree := by
  intro s t hv harena ht
  obtain ⟨tree, hbuildable, hdistinct, hcb, hmem⟩ := exec_derive_codebook hv harena ht
  obtain ⟨hlengths, hfree⟩ := codebookOf_ok hbuildable hdistinct hcb
  refine ⟨fun b => ?_, hlengths, hfree⟩
  rw [hcb, codeOf_codebookOf_ne_none_iff hdistinct, hmem]

/-! ### ENCODE -/

/-- At most 8 bits a byte pack into no more bytes than there are (R144). -/
theorem ceil8_le {n k : Nat} (h : n ≤ 8 * k) : ceil8 n ≤ k := by
  unfold ceil8
  omega

/-- Settles O32: the tree of the counted payload has all its bytes, and its codes take at most 8 bits a byte. -/
theorem encodedPayloadNeverGrows : Obligations.EncodedPayloadNeverGrows := by
  intro s hcfg hfits
  obtain ⟨tree, htree, hdistinct, hmem, hbits⟩ := exists_payload_tree s
  have hroom := ceil8_le_emax hcfg hfits hbits
  obtain ⟨hebits, helen⟩ := encoded_lengths (s := coded s tree) hcfg hroom
  refine ⟨counted s, built (counted s), coded s tree, encoded (coded s tree), exec_count_counts hfits,
    exec_build_builds (counted_total_le s), exec_derive_derives rfl htree,
    exec_encode_encodes hfits (firstMissing_codebookOf hdistinct hmem) hroom, rfl, ?_⟩
  rw [hebits, helen]
  exact ⟨hbits, ceil8_le hbits⟩

/-! ### SERIALIZE -/

/-- What SERIALIZE leaves of a well-formed arena: the bit form of its tree, which has NLEAVES leaves. -/
theorem exec_serialize_arena {s t : State} (hv : s.status.treeV = true) (harena : s.ArenaOk)
    (ht : exec .serialize s = .next t) :
    ∃ tree, s.tree? = some tree ∧ tree.buildable = true ∧ tree.leaves.length = s.nleaves.toNat ∧
      t = serialized s tree := by
  obtain ⟨tree, htree, -, hbuildable, -, hcount, -⟩ := arena_tree harena
  rw [exec_serialize_serializes hv htree] at ht
  exact ⟨tree, htree, hbuildable, hcount, (Host.Outcome.next.inj ht).symm⟩

/-- Settles O34: 10 bits for each leaf but one bit less in all. -/
theorem serializedSizeLaw : Obligations.SerializedSizeLaw := by
  intro s t hv harena ht
  obtain ⟨tree, -, hbuildable, hcount, rfl⟩ := exec_serialize_arena hv harena ht
  obtain ⟨htbits, htlen, hfits⟩ := serialized_lengths s hbuildable
  have hbits : tree.ser.length = 10 * s.nleaves.toNat - 1 := by
    have hlen := length_ser tree
    omega
  rw [htbits, htlen, ← hbits]
  exact ⟨rfl, rfl, hfits⟩

/-- Settles O35: the reader undoes the bit form of the arena's tree. -/
theorem serializedTreeReadsBack : Obligations.SerializedTreeReadsBack := by
  intro s t hv harena ht
  obtain ⟨tree, htree, hbuildable, -, rfl⟩ := exec_serialize_arena hv harena ht
  exact ⟨tree, htree, deserialize_serialized s hbuildable⟩

end Sys2Proof.Proofs.Products

/-!
PROOFS of the family other, the invariant of the machine: it holds after reset, every step keeps it, and no step from
a state that meets it stops (spec/10_state.md R36, R38, R44, R45; spec/60_exceptions.md R218).
-/

namespace Sys2Proof.Proofs.Invariant

open Sys2Proof Sys2Proof.Machine Sys2Proof.Laws Sys2Proof.Proofs.Huffman Sys2Proof.Proofs.Codebook
  Sys2Proof.Proofs.Encoder Sys2Proof.Proofs.Serializer Sys2Proof.Proofs.Products Sys2Proof.Proofs.Tree
  Sys2Proof.Proofs.Mask

/-! ### Reset -/

/-- An empty codebook has no code, so R38 asks nothing of it. -/
theorem codebookOk_of_empty {s : State} (h : s.cb = Table.fill 256 none) : s.CodebookOk := by
  have hnone (b : Byte) : codeOf s.cb b = none := by
    rw [codeOf, h]
    exact table_fill_getD none none b.isLt
  constructor
  · intro b c hc
    cases (hnone b).symm.trans hc
  · intro b b' c c' hc
    cases (hnone b).symm.trans hc

/-- The bounds of R9 hold for the parameters of every machine. -/
theorem machine_valid : Config.machine.Valid := by
  unfold Config.machine Params.Valid
  dsimp only
  have hchoice : Config.pmaxChoice % 2 ^ 28 < 2 ^ 28 := Nat.mod_lt _ (by decide)
  generalize Config.pmaxChoice % 2 ^ 28 = n at hchoice
  have hroom : Config.emaxChoice % ((2 ^ 30 - 4 * (n + 1)) / 4 + 1) < (2 ^ 30 - 4 * (n + 1)) / 4 + 1 :=
    Nat.mod_lt _ (Nat.succ_pos _)
  generalize Config.emaxChoice % ((2 ^ 30 - 4 * (n + 1)) / 4 + 1) = m at hroom
  omega

theorem resetWith_inv {p : Params} (hp : p.Valid) : (State.resetWith p).Inv where
  params := hp
  memForm := wf_empty
  memPlace := fun _ hc => by cases hc
  encodedBytes := (by decide : (0 : Word).toNat = ceil8 (0 : DWord).toNat)
  treeBytes := (by decide : (0 : Word).toNat = ceil8 (0 : Word).toNat)
  encodedFits := Nat.zero_le _
  treeFits := Nat.zero_le _
  treeBits := .inl rfl
  faultFlag := iff_of_false Bool.false_ne_true fun h => h rfl
  errRange := Nat.zero_le _
  noError := fun _ => ⟨rfl, rfl⟩
  keystreamFlag := fun h => by cases h
  noKeystream := fun _ => rfl
  noEncoding := fun _ => ⟨rfl, rfl⟩
  noSerialized := fun _ => rfl
  noTree := fun _ => ⟨rfl, rfl, rfl, rfl⟩
  noCodebook := fun _ => rfl
  noCipher := fun _ => ⟨rfl, rfl, rfl⟩
  arena := fun h => by cases h
  codebook := codebookOk_of_empty rfl

/-- Settles O52: the state after reset, with the parameters of the machine. -/
theorem resetMeetsInvariant : Obligations.ResetMeetsInvariant := resetWith_inv machine_valid

/-! ### What the invariant does not speak of, and the buffer memories -/

/-- The inputs of the host and the model's own fields do not enter the invariant. -/
theorem inv_of_frame {s t : State} (h : s.Inv)
    (ht : t = { s with
      plen := t.plen, keyin := t.keyin, noncein := t.noncein, freq := t.freq, pending := t.pending
      resp := t.resp, rng := t.rng, draws := t.draws, epoch := t.epoch }) : t.Inv := by
  rw [ht]
  exact { h with
    arena := fun hv => arenaOk_congr (s := s) rfl rfl rfl rfl (h.arena hv)
    codebook := codebookOk_congr (s := s) rfl h.codebook }

/-- Of the buffer memories the invariant asks their one form and their place alone. -/
theorem inv_of_mem {s : State} (h : s.Inv) {m : Memory} (hform : m.wf)
    (hplace : ∀ c ∈ m, InBuffers s.cfg c.1) : ({ s with mem := m } : State).Inv :=
  { h with
    memForm := hform
    memPlace := hplace
    arena := fun hv => arenaOk_congr (s := s) rfl rfl rfl rfl (h.arena hv)
    codebook := codebookOk_congr (s := s) rfl h.codebook }

/-- A run of bytes written inside the buffers keeps the invariant. -/
theorem inv_writeRun {s : State} (h : s.Inv) {a : Nat} {bs : List Byte}
    (hin : ∀ x, a ≤ x → x < a + bs.length → InBuffers s.cfg x) :
    ({ s with mem := s.mem.writeRun a bs } : State).Inv := by
  refine inv_of_mem h (wf_writeRun h.memForm a bs) fun c hc => ?_
  obtain hold | ⟨hlow, hhigh⟩ := mem_writeRun hc
  · exact h.memPlace c hold
  · exact hin c.1 hlow hhigh

/-! ### Error entry and the return from it -/

/-- Error entry sets FAULT with a code from 1 to 5 (R210, R213). -/
theorem raise_inv {s : State} (h : s.Inv) (e : CommandError) (w : Word) : (s.raise e w).Inv :=
  { h with
    faultFlag := iff_of_true rfl (code_ne_zero e)
    errRange := code_le e
    noError := fun h0 => absurd h0 (code_ne_zero e)
    arena := fun hv => arenaOk_congr (s := s) rfl rfl rfl rfl (h.arena hv)
    codebook := codebookOk_congr (s := s) rfl h.codebook }

/-- CLR leaves the state after reset but for the buffer memories and the model's own fields (R44). -/
theorem clear_inv {s : State} (h : s.Inv) : s.clear.Inv :=
  inv_of_frame (inv_of_mem (resetWith_inv h.params) h.memForm h.memPlace) rfl

theorem hardReset_inv {s : State} (h : s.Inv) : s.hardReset.Inv :=
  inv_of_frame (resetWith_inv h.params) rfl

/-! ### The products of the tree -/

theorem built_inv {s : State} (h : s.Inv) (htotal : freqTotal s.freq ≤ totalLimit) : (built s).Inv :=
  { h with
    noTree := fun hv => by cases hv
    arena := fun _ => built_arenaOk htotal
    codebook := codebookOk_congr (s := s) rfl h.codebook }

/-- The state DERIVE leaves of a well-formed arena. -/
theorem derived_inv {s : State} {tree : CodeTree} (h : s.Inv) (hv : s.status.treeV = true)
    (htree : s.tree? = some tree) :
    ({ s with cb := codebookOf tree, status := s.status.setCodebook } : State).Inv := by
  obtain ⟨tree', htree', -, hbuildable, hdistinct, -⟩ := arena_tree (h.arena hv)
  obtain rfl : tree' = tree := Option.some.inj (htree'.symm.trans htree)
  exact { h with
    noCodebook := fun hc => by cases hc
    arena := fun hv => arenaOk_congr (s := s) rfl rfl rfl rfl (h.arena hv)
    codebook := codebookOf_ok hbuildable hdistinct rfl }

theorem encoded_inv {s : State} (h : s.Inv)
    (hroom : ceil8 (encodeBits s.cb s.payload).length ≤ s.cfg.emax) : (encoded s).Inv := by
  obtain ⟨hebits, helen⟩ := encoded_lengths h.params hroom
  have hmem : ({ s with mem := (encoded s).mem } : State).Inv := inv_writeRun h fun x hlow hhigh => by
    rw [length_pack] at hhigh
    exact .inr (.inr ⟨hlow, by omega⟩)
  exact { hmem with
    encodedBytes := by rw [hebits, helen]
    encodedFits := helen ▸ hroom
    noEncoding := fun hv => by cases hv
    arena := fun hv => arenaOk_congr (s := s) rfl rfl rfl rfl (h.arena hv)
    codebook := codebookOk_congr (s := s) rfl h.codebook }

/-- TBITS is 10 L - 1 for the L leaves of the tree (R152). -/
theorem serialized_inv {s : State} {tree : CodeTree} (h : s.Inv) (htree : s.tree? = some tree) :
    (serialized s tree).Inv := by
  obtain ⟨-, hbuildable⟩ := (tree?_eq_some_iff s tree).1 htree
  obtain ⟨htbits, htlen, hfits⟩ := serialized_lengths s hbuildable
  obtain ⟨htwo, hfew, -⟩ := buildable_leaves hbuildable
  have hser := length_ser tree
  have hmem : ({ s with mem := (serialized s tree).mem } : State).Inv :=
    inv_writeRun h fun x hlow hhigh => by
      rw [length_pack] at hhigh
      exact .inl ⟨hlow, by omega⟩
  exact { hmem with
    treeBytes := by rw [htbits, htlen]
    treeFits := htlen ▸ hfits
    treeBits := .inr ⟨_, htwo, hfew, by omega⟩
    noSerialized := fun hv => by cases hv
    arena := fun hv => arenaOk_congr (s := s) rfl rfl rfl rfl (h.arena hv)
    codebook := codebookOk_congr (s := s) rfl h.codebook }

/-! ### The cipher -/

theorem cinit_inv {s t : State} (h : s.Inv) (ht : exec .cinit s = .next t) : t.Inv := by
  obtain rfl := execCinit_next ht
  exact { h with
    keystreamFlag := fun hv => by cases hv
    noKeystream := fun _ => rfl
    noCipher := fun hv => by cases hv
    arena := fun hv => arenaOk_congr (s := s) rfl rfl rfl rfl (h.arena hv)
    codebook := codebookOk_congr (s := s) rfl h.codebook }

/-- Where CIPH_V is set, KSBLK and CTR are free as soon as KS_V says that a block was generated (R166, R181). -/
theorem keystream_inv {s : State} (h : s.Inv) (hv : s.status.ciphV = true) (block : Table Byte 64)
    (ctr : DWord) :
    ({ s with ksblk := block, ctr := ctr, status := s.status.setKeystream } : State).Inv :=
  { h with
    keystreamFlag := fun _ => hv
    noKeystream := fun hk => by cases hk
    noCipher := fun hc => absurd (hv.symm.trans hc) (by decide)
    arena := fun hv => arenaOk_congr (s := s) rfl rfl rfl rfl (h.arena hv)
    codebook := codebookOk_congr (s := s) rfl h.codebook }

/-- A buffer whose length the invariant or MASK's check bounds lies in the buffer memories (R39 to R41). -/
theorem inBuffers_of_mask {s : State} (h : s.Inv) {buf : BufSel} {base : Nat}
    (hb : maskBase buf = some base) (hfits : buf = .pmem → s.plen.toNat ≤ s.cfg.pmax) {x : Nat}
    (hlow : base ≤ x) (hhigh : x < base + s.maskLength buf) : InBuffers s.cfg x := by
  have htree := h.treeFits
  have hencoded := h.encodedFits
  cases buf with
  | pmem =>
    cases hb
    have hpay := hfits rfl
    exact .inr (.inl ⟨hlow, by simp only [State.maskLength] at hhigh; omega⟩)
  | tmem =>
    cases hb
    exact .inl ⟨hlow, by simp only [State.maskLength] at hhigh; omega⟩
  | emem =>
    cases hb
    exact .inr (.inr ⟨hlow, by simp only [State.maskLength] at hhigh; omega⟩)
  | reserved => cases hb

/-- Masking an empty buffer writes nothing and uses no block (R181). -/
theorem maskBuffer_empty (s : State) (base : Nat) :
    s.maskBuffer base 0 = { s with mem := (s.maskBuffer base 0).mem } := by
  have hctr : s.ctr + BitVec.ofNat 64 (ceil64 0) = s.ctr := BitVec.add_zero s.ctr
  simp only [State.maskBuffer, hctr]
  rfl

theorem maskBuffer_of_pos (s : State) (base : Nat) {len : Nat} (h : 0 < len) :
    s.maskBuffer base len =
      { s with
        mem := (s.maskBuffer base len).mem, ksblk := (s.maskBuffer base len).ksblk
        ctr := (s.maskBuffer base len).ctr, status := s.status.setKeystream } := by
  rw [← maskBuffer_status_of_pos s base h]
  rfl

theorem maskBuffer_inv {s : State} (h : s.Inv) {buf : BufSel} {base : Nat} (hb : maskBase buf = some base)
    (hv : s.status.ciphV = true) (hfits : buf = .pmem → s.plen.toNat ≤ s.cfg.pmax) :
    (s.maskBuffer base (s.maskLength buf)).Inv := by
  have hlen : (maskBytes s.key s.nonce (ceil64 (s.maskLength buf)) s.ctr
      (s.bytesAt base (s.maskLength buf))).length = s.maskLength buf := by
    rw [length_maskBytes _ _ _ _ _ (by rw [length_bytesAt]; exact length_le_ceil64 _), length_bytesAt]
  have hmem : ({ s with mem := (s.maskBuffer base (s.maskLength buf)).mem } : State).Inv :=
    inv_writeRun h fun x hlow hhigh => inBuffers_of_mask h hb hfits hlow (hlen ▸ hhigh)
  rcases Nat.eq_zero_or_pos (s.maskLength buf) with hzero | hpos
  · rw [hzero] at hmem ⊢
    rw [maskBuffer_empty]
    exact hmem
  · rw [maskBuffer_of_pos s base hpos]
    exact keystream_inv hmem hv _ _

/-! ### Every command -/

theorem exec_keeps_inv {i : Instr} {s t : State} (h : s.Inv) (ht : exec i s = .next t) : t.Inv := by
  cases i with
  | clr =>
    obtain rfl := execClr_next ht
    exact clear_inv h
  | count =>
    obtain ⟨-, rfl⟩ | ⟨-, rfl⟩ := execCount_next ht
    · exact raise_inv h _ _
    · exact inv_of_frame h rfl
  | build =>
    obtain ⟨-, rfl⟩ | ⟨htotal, rfl⟩ := execBuild_next ht
    · exact raise_inv h _ _
    · exact built_inv h htotal
  | derive =>
    obtain ⟨-, rfl⟩ | ⟨hv, tree, htree, rfl⟩ := execDerive_next ht
    · exact raise_inv h _ _
    · exact derived_inv h hv htree
  | encode =>
    obtain ⟨-, rfl⟩ | ⟨-, _, -, rfl⟩ | ⟨-, -, -, rfl⟩ | ⟨-, -, hroom, rfl⟩ := execEncode_next ht
    · exact raise_inv h _ _
    · exact raise_inv h _ _
    · exact raise_inv h _ _
    · exact encoded_inv h hroom
  | serialize =>
    obtain ⟨-, rfl⟩ | ⟨-, tree, htree, rfl⟩ := execSerialize_next ht
    · exact raise_inv h _ _
    · exact serialized_inv h htree
  | cinit => exact cinit_inv h ht
  | nextblk =>
    obtain ⟨-, rfl⟩ | ⟨-, -, rfl⟩ | ⟨hv, -, rfl⟩ := execNextblk_next ht
    · exact raise_inv h _ _
    · exact raise_inv h _ _
    · exact keystream_inv h hv _ _
  | mask buf =>
    obtain ⟨-, rfl⟩ | ⟨base, hb, ⟨-, rfl⟩ | ⟨-, -, -, rfl⟩ | ⟨-, -, -, rfl⟩ | ⟨hv, hfits, -, rfl⟩⟩ :=
      execMask_next ht
    · exact raise_inv h _ _
    · exact raise_inv h _ _
    · exact raise_inv h _ _
    · exact raise_inv h _ _
    · exact maskBuffer_inv h hb hv hfits
  | keygen =>
    obtain ⟨-, rfl⟩ | ⟨r, -, rfl⟩ := execKeygen_next ht
    · exact raise_inv (inv_of_frame h rfl) _ _
    · exact inv_of_frame h rfl

theorem command_keeps_inv {s t : State} {w : Word} (h : s.Inv) (ht : s.command w = .next t) : t.Inv := by
  obtain ⟨-, -, hclr⟩ | ⟨-, -, rfl⟩ | ⟨-, _, -, hi⟩ | ⟨-, _, -, rfl⟩ := command_next ht
  · exact exec_keeps_inv h hclr
  · exact h
  · exact exec_keeps_inv h hi
  · exact raise_inv h _ _

/-! ### Every step -/

/-- What the host stores outside CMD is an input, or a run of bytes inside PMEM (R61). -/
theorem store_keeps_inv {s : State} (h : s.Inv) {a : Nat} {n : AccessSize} {r : Region} {off : Nat}
    (hl : locate s.cfg a n = some (r, off)) (v : Word) : (s.store r off n v).Inv := by
  cases r with
  | pmem =>
    obtain ⟨b, k, ⟨rfl, rfl⟩, -, hk⟩ := locate_within hl
    have hlen : (writeBytes n v).length = n.bytes := by cases n <;> rfl
    refine inv_writeRun h fun x hlow hhigh => .inr (.inl ?_)
    rw [hlen] at hhigh
    omega
  | csr =>
    rw [State.store]
    split
    · exact inv_of_frame h rfl
    · exact h
  | _ => exact inv_of_frame h rfl

theorem memWrite_keeps_inv {s t : State} {a : Word} {n : AccessSize} {v : Word} (h : s.Inv)
    (ht : s.memWrite a n v = .next t) : t.Inv := by
  have hanswered (r : BusResp) : (s.respond r).Inv := inv_of_frame h rfl
  obtain ⟨-, rfl⟩ | ⟨r, off, hl, -, -, rfl⟩ | ⟨-, hcmd⟩ := memWrite_next ht
  · exact hanswered _
  · exact store_keeps_inv (hanswered _) hl v
  · exact command_keeps_inv (hanswered _) hcmd

/-- Settles O53: a step serves a read, a reset or a write, and each part of a write keeps the invariant. -/
theorem stepKeepsInvariant : Obligations.StepKeepsInvariant := by
  intro s t h ht
  obtain ⟨-, rfl⟩ | ⟨_, _, _, -, rfl⟩ | ⟨rest, -, rfl⟩ | ⟨_, _, _, rest, -, hw⟩ := step_next ht
  · exact h
  · exact inv_of_frame h rfl
  · exact hardReset_inv (inv_of_frame h rfl)
  · exact memWrite_keeps_inv (s := { s with pending := rest }) (inv_of_frame h rfl) hw

/-! ### No step stops -/

/-- The only commands that can stop walk the arena, and a well-formed one holds a tree. -/
theorem exec_goesOn {s : State} (h : s.Inv) (i : Instr) : GoesOn (exec i s) := by
  by_contra hstop
  obtain ⟨-, hv, hnone⟩ := exec_stop hstop
  obtain ⟨tree, htree⟩ := (h.arena hv).walks
  cases hnone.symm.trans htree

theorem command_goesOn {s : State} (h : s.Inv) (w : Word) : GoesOn (s.command w) := by
  unfold State.command
  split
  · split
    · exact exec_goesOn h .clr
    · exact ⟨s, rfl⟩
  · split
    · exact exec_goesOn h _
    · exact ⟨_, rfl⟩

theorem memWrite_goesOn {s : State} (h : s.Inv) (a : Word) (n : AccessSize) (v : Word) :
    GoesOn (s.memWrite a n v) := by
  unfold State.memWrite
  split
  · exact ⟨_, rfl⟩
  · split
    · split
      · exact command_goesOn (s := s.respond ⟨true, 0⟩) (inv_of_frame h rfl) v
      · exact ⟨_, rfl⟩
    · exact ⟨_, rfl⟩

/-- Settles O54: of the events a step can serve only a write to CMD runs a command, and none of them stops. -/
theorem invariantStepGoesOn : Obligations.InvariantStepGoesOn := by
  intro s h
  unfold step State.serveNext
  split
  · exact ⟨s, rfl⟩
  · rename_i e rest _
    cases e with
    | read a n => exact ⟨_, rfl⟩
    | write a n v => exact memWrite_goesOn (s := { s with pending := rest }) (inv_of_frame h rfl) a n v
    | reset => exact ⟨_, rfl⟩

end Sys2Proof.Proofs.Invariant

/-!
PROOFS of the family other, host reads: what a read of every region returns (spec/20_memory.md R60, R62, R64;
spec/10_state.md R22 to R41).
-/

namespace Sys2Proof.Proofs.Reads

open Sys2Proof Sys2Proof.Machine Sys2Proof.Laws Sys2Proof.Proofs.Scope Sys2Proof.Proofs.Memory

/-! ### Steps that change nothing of the block -/

/-- Settles O6: with nothing pending there is no event to serve. -/
theorem idleStepWaits : Obligations.IdleStepWaits := by
  intro s hp
  rw [step, State.serveNext, hp]

/-- Settles O7: the step at a read records the response and takes the event. -/
theorem readChangesNothing : Obligations.ReadChangesNothing := fun _ _ _ _ => step_read

/-- A read depends on the address map and on the data of the one place it goes to. -/
theorem memRead_congr {s t : State} {a : Word} {n : AccessSize} (hcfg : t.cfg = s.cfg)
    (h : ∀ r off, locate s.cfg a.toNat n = some (r, off) → t.readData r off n = s.readData r off n) :
    t.memRead a n = s.memRead a n := by
  rw [State.memRead, State.memRead, hcfg]
  rcases hl : locate s.cfg a.toNat n with _ | ⟨r, off⟩
  · rfl
  · exact congrArg (BusResp.mk true) (h r off hl)

/-- No region shows K or N (R33). -/
theorem readData_of_key (s : State) (k : Table Byte 32) (n : Table Byte 8) (r : Region) (off : Nat)
    (m : AccessSize) : ({ s with key := k, nonce := n } : State).readData r off m = s.readData r off m := by
  cases r <;> rfl

/-- Settles O15: neither the address map nor the data of a read has K or N in it. -/
theorem hiddenKeyIsNotReadable : Obligations.HiddenKeyIsNotReadable :=
  fun s k n _ m => memRead_congr rfl fun r off _ => readData_of_key s k n r off m

/-! ### Where a region lies -/

/-- Regions are made of whole words and end within the 32-bit address space (R9, R60). -/
theorem regionAt_bounds {p : Params} (hv : p.Valid) {r : Region} {b k : Nat} (hr : RegionAt p r b k) :
    b % 4 = 0 ∧ k % 4 = 0 ∧ b + k ≤ 2 ^ 32 := by
  obtain ⟨hpmod, hemod, -, hpe, he⟩ := hv
  cases r <;> obtain ⟨rfl, rfl⟩ := hr <;> omega

/-- The rows of the address map that no parameter enters (R60). -/
def lowRows : List MapRow :=
  [⟨.csr, 0x000, 0x4C⟩, ⟨.keyin, 0x080, 0x20⟩, ⟨.noncein, 0x0A0, 8⟩, ⟨.ksblk, 0x0C0, 0x40⟩,
   ⟨.freq, 0x400, 0x400⟩, ⟨.tmem, tmemBase, tmemSize⟩, ⟨.node, 0x2000, 0x1FF0⟩, ⟨.cb, 0x4000, 0x4000⟩]

/-- Below PMEM the address map has the fixed rows alone. -/
theorem rowOf_of_lt {p : Params} {a : Nat} (h : a < pmemBase) :
    rowOf p a = lowRows.find? fun r => decide (r.base ≤ a) && decide (a < r.base + r.size) := by
  have hmap : addressMap p = lowRows ++ [⟨.pmem, pmemBase, p.pmax⟩, ⟨.emem, ememBase, p.emax⟩] := rfl
  have hemem : a < ememBase := Nat.lt_trans h (by decide)
  have hhigh : [(⟨.pmem, pmemBase, p.pmax⟩ : MapRow), ⟨.emem, ememBase, p.emax⟩].find?
      (fun r => decide (r.base ≤ a) && decide (a < r.base + r.size)) = none := by
    simp [h, hemem]
  rw [rowOf, hmap, List.find?_append, hhigh, Option.or_none]

/-- So an access below PMEM goes where it goes under any other parameters. -/
theorem locate_congr_of_lt (p q : Params) {a : Nat} (h : a < pmemBase) (n : AccessSize) :
    locate p a n = locate q a n := by
  rw [locate, locate, rowOf_of_lt h, rowOf_of_lt h]

/-- A word of a region below PMEM is found whatever the parameters are. -/
theorem locate_low_word (p : Params) {q : Params} (hq : q.Valid) (r : Region) {b k off : Nat}
    (hr : RegionAt q r b k) (hlow : b + k ≤ pmemBase) (hoff : off + 4 ≤ k) (halign : off % 4 = 0) :
    locate p (b + off) .word = some (r, off) := by
  obtain ⟨hb, -, -⟩ := regionAt_bounds hq hr
  rw [locate_congr_of_lt p q (by omega)]
  exact (locate_eq_some_iff hq ..).2 ⟨b, k, hr, rfl, hoff, fun _ => by omega, fun h => by cases h⟩

theorem memRead_of_locate {s : State} {a : Word} {n : AccessSize} {r : Region} {off : Nat}
    (h : locate s.cfg a.toNat n = some (r, off)) : s.memRead a n = ⟨true, s.readData r off n⟩ := by
  rw [State.memRead, h]

/-- The same at an address given as a number. -/
theorem memRead_ofNat_of_locate {s : State} {a : Nat} {n : AccessSize} {r : Region} {off : Nat}
    (ha : a < 2 ^ 32) (h : locate s.cfg a n = some (r, off)) :
    s.memRead (BitVec.ofNat 32 a) n = ⟨true, s.readData r off n⟩ :=
  memRead_of_locate (by rwa [BitVec.toNat_ofNat, Nat.mod_eq_of_lt ha])

theorem readData_of_word (s : State) {r : Region} (h : r.isWord = true) (off : Nat) (n : AccessSize) :
    s.readData r off n = s.regionWord r off := if_pos h

theorem readData_byte (s : State) {r : Region} (h : r.isWord = false) (off : Nat) :
    s.readData r off .byte = (s.regionByte r off).setWidth 32 := if_neg (by simp [h])

/-- Four bytes at once, the lowest address least significant (R64). -/
theorem readData_word (s : State) {r : Region} (h : r.isWord = false) (off : Nat) :
    s.readData r off .word = le32 (s.regionByte r off) (s.regionByte r (off + 1)) (s.regionByte r (off + 2))
      (s.regionByte r (off + 3)) := if_neg (by simp [h])

/-! ### The CSR words -/

theorem getLsbD_flagAt (b : Bool) {j : Nat} (hj : j < 32) (k : Nat) :
    (flagAt b j).getLsbD k = (decide (k = j) && b) := by
  rw [Bool.eq_iff_iff, flagAt, BitVec.getLsbD_shiftLeft]
  cases b with
  | false => simp
  | true =>
    simp
    omega

/-- The STATUS bits, and zeros in the reserved ones (R23). -/
theorem getLsbD_status_word (f : Status) (k : Nat) :
    f.word.getLsbD k =
      match k with
      | 0 => f.treeV
      | 1 => f.cbV
      | 2 => f.serV
      | 3 => f.encV
      | 4 => f.ciphV
      | 5 => f.ksV
      | 7 => f.fault
      | _ => false := by
  simp only [Status.word, BitVec.getLsbD_or]
  rw [getLsbD_flagAt _ (by decide), getLsbD_flagAt _ (by decide), getLsbD_flagAt _ (by decide),
    getLsbD_flagAt _ (by decide), getLsbD_flagAt _ (by decide), getLsbD_flagAt _ (by decide),
    getLsbD_flagAt _ (by decide)]
  split
  case h_8 h0 h1 h2 h3 h4 h5 h7 =>
    simp only [decide_eq_false h0, decide_eq_false h1, decide_eq_false h2, decide_eq_false h3,
      decide_eq_false h4, decide_eq_false h5, decide_eq_false h7, Bool.false_and, Bool.or_false]
  all_goals simp

/-- A double word is its low half and 2^32 times its high half. -/
theorem halves_toNat (d : DWord) :
    (d.extractLsb' 0 32).toNat + 2 ^ 32 * (d.extractLsb' 32 32).toNat = d.toNat := by
  have hd := d.isLt
  simp only [BitVec.extractLsb'_toNat, Nat.shiftRight_eq_div_pow]
  omega

/-- Settles O11: the address map sends each CSR address to its offset, and the word there is the register's. -/
theorem csrReadsReturnRegisters : Obligations.CsrReadsReturnRegisters := by
  intro s
  refine ⟨rfl, fun a ha => ?ok, getLsbD_status_word s.status, ⟨rfl, ?err⟩, rfl, rfl, rfl, rfl,
    halves_toNat s.ebits, rfl, rfl, rfl, rfl, rfl, rfl, halves_toNat s.ctr, rfl, rfl⟩
  case ok =>
    simp only [List.mem_cons, List.not_mem_nil, or_false] at ha
    obtain rfl | rfl | rfl | rfl | rfl := ha
    all_goals rfl
  case err => exact BitVec.toNat_setWidth_of_le (w := 3) (by decide)

/-! ### The tables of records -/

/-- The value of two fields, one after the other. -/
theorem append_toNat {m n : Nat} (x : BitVec m) (y : BitVec n) :
    (x ++ y).toNat = 2 ^ n * x.toNat + y.toNat := by
  rw [BitVec.toNat_append, Nat.shiftLeft_eq, Nat.mul_comm, Nat.two_pow_add_eq_or_of_lt y.isLt]

/-- Parameters to find the fixed regions with. -/
theorem four_valid : (⟨4, 4⟩ : Params).Valid := by decide

/-- Word `k` of record `i` of the arena at its address (R35). -/
theorem memRead_node (s : State) {i k : Nat} (hi : i < 511) (hk : k < 4) :
    s.memRead (BitVec.ofNat 32 (0x2000 + 16 * i + 4 * k)) .word = ⟨true, (s.nodeAt i).word k⟩ := by
  have hl : locate s.cfg (0x2000 + (16 * i + 4 * k)) .word = some (.node, 16 * i + 4 * k) :=
    locate_low_word s.cfg four_valid .node ⟨rfl, rfl⟩ (by decide) (by omega) (by omega)
  have hrecord : (16 * i + 4 * k) / 16 = i := by omega
  have hword : (16 * i + 4 * k) % 16 / 4 = k := by omega
  rw [Nat.add_assoc, memRead_ofNat_of_locate (by omega) hl]
  show (⟨true, s.nodeWord (16 * i + 4 * k)⟩ : BusResp) = _
  rw [State.nodeWord, hrecord, hword, State.nodeAt]

/-- Settles O12: the words of a record by its variant. -/
theorem nodeReadsReturnRecord : Obligations.NodeReadsReturnRecord := by
  intro s i hi word hword
  have hread (k : Nat) (hk : k < 4) : word k = ⟨true, (s.nodeAt i).word k⟩ :=
    (hword k).trans (memRead_node s hi hk)
  rw [hread 0 (by decide), hread 1 (by decide), hread 2 (by decide), hread 3 (by decide)]
  refine ⟨fun k hk => by rw [hread k hk], fun b w hn => ?leaf, fun w l r hn => ?internal⟩
  case leaf =>
    rw [hn]
    refine ⟨?_, rfl, rfl, rfl⟩
    rw [Node.word, append_toNat, append_toNat]
    exact rfl
  case internal =>
    rw [hn]
    refine ⟨rfl, rfl, ?_, rfl⟩
    rw [Node.word, append_toNat, append_toNat, append_toNat]
    simp
    omega

/-- Word `k` of the codebook record of byte `b` at its address (R37). -/
theorem memRead_cb (s : State) (b : Byte) {k : Nat} (hk : k < 16) :
    s.memRead (BitVec.ofNat 32 (0x4000 + 64 * b.toNat + 4 * k)) .word =
      ⟨true, codeEntryWord k (codeOf s.cb b)⟩ := by
  have hb := b.isLt
  have hl : locate s.cfg (0x4000 + (64 * b.toNat + 4 * k)) .word = some (.cb, 64 * b.toNat + 4 * k) :=
    locate_low_word s.cfg four_valid .cb ⟨rfl, rfl⟩ (by decide) (by omega) (by omega)
  have hrecord : (64 * b.toNat + 4 * k) / 64 = b.toNat := by omega
  have hword : (64 * b.toNat + 4 * k) % 64 / 4 = k := by omega
  rw [Nat.add_assoc, memRead_ofNat_of_locate (by omega) hl]
  show (⟨true, s.cbWord (64 * b.toNat + 4 * k)⟩ : BusResp) = _
  rw [State.cbWord, hrecord, hword, codeOf]

/-- Byte `k` of a word assembled from four bytes (R17). -/
theorem wordByte_le32 (f : Nat → Byte) (j : Nat) {k : Nat} (hk : k < 4) :
    wordByte (le32 (f j) (f (j + 1)) (f (j + 2)) (f (j + 3))) k = f (j + k) := by
  have hbytes := le32bytes_le32 (f j) (f (j + 1)) (f (j + 2)) (f (j + 3))
  simp only [le32bytes, List.cons.injEq, and_true] at hbytes
  obtain ⟨h0, h1, h2, h3⟩ := hbytes
  interval_cases k
  · exact h0
  · exact h1
  · exact h2
  · exact h3

/-- The header of a valid entry: VALID, and the length in eight bits (R37). -/
theorem codeEntryWord_header {c : List Bool} (hc : c.length ≤ 255) :
    (codeEntryWord 0 (some c)).toNat = 2 ^ 31 + c.length := by
  have hlen : (BitVec.ofNat 8 c.length).toNat = c.length := Nat.mod_eq_of_lt (by omega)
  rw [codeEntryWord, if_pos rfl, append_toNat, append_toNat, hlen]
  rfl

/-- Byte `j` of the packed code, zero past its end (R37). -/
theorem wordByte_codeEntryWord (c : List Bool) {j : Nat} (hj : j < 32) :
    wordByte (codeEntryWord (1 + j / 4) (some c)) (j % 4) = (pack c).getD j 0 := by
  have hstart : 4 * (1 + j / 4 - 1) + j % 4 = j := by omega
  rw [codeEntryWord, if_neg (by omega), if_pos (by omega)]
  exact (wordByte_le32 (fun i => (pack c).getD i 0) _ (by omega)).trans (by rw [hstart])

theorem codeEntryWord_tail (c : List Bool) {k : Nat} (hk : 9 ≤ k) : codeEntryWord k (some c) = 0 := by
  rw [codeEntryWord, if_neg (by omega), if_neg (by omega)]

/-- Settles O13: the words of an entry that is not valid, and the header, the code bytes and the tail of one that
is. -/
theorem codebookReadsReturnRecord : Obligations.CodebookReadsReturnRecord := by
  intro s b word hword
  have hread (k : Nat) (hk : k < 16) : word k = ⟨true, codeEntryWord k (codeOf s.cb b)⟩ :=
    (hword k).trans (memRead_cb s b hk)
  refine ⟨fun k hk => by rw [hread k hk], fun hnone k hk => ?empty,
    fun c hc hlen => ⟨?header, fun j hj => ?code, fun k hlow hhigh => ?tail⟩⟩
  case empty =>
    rw [hread k hk, hnone]
    rfl
  case header =>
    rw [hread 0 (by decide), hc]
    exact codeEntryWord_header hlen
  case code =>
    rw [hread _ (by omega), hc]
    exact wordByte_codeEntryWord c hj
  case tail =>
    rw [hread k hhigh, hc]
    exact codeEntryWord_tail c hlow

/-! ### The tables and buffers of bytes, and FREQ -/

/-- An access of a region at its address, from the row of the region (R60). -/
theorem memRead_region {s : State} (hv : s.cfg.Valid) {n : AccessSize} (r : Region) {b k off : Nat}
    (hr : RegionAt s.cfg r b k) (hoff : off + n.bytes ≤ k) (hw : n = .word → off % 4 = 0)
    (hb : n = .byte → r.isWord = false) :
    s.memRead (BitVec.ofNat 32 (b + off)) n = ⟨true, s.readData r off n⟩ := by
  obtain ⟨hbase, -, hend⟩ := regionAt_bounds hv hr
  have hbytes : 0 < n.bytes := by cases n <;> decide
  refine memRead_ofNat_of_locate (by omega) ((locate_eq_some_iff hv ..).2 ⟨b, k, hr, rfl, hoff, fun h => ?_, hb⟩)
  have halign := hw h
  omega

/-- A byte of a byte region at its address. -/
theorem memRead_byte {s : State} (hv : s.cfg.Valid) (r : Region) {b k off : Nat}
    (hr : RegionAt s.cfg r b k) (hword : r.isWord = false) (hoff : off < k) :
    s.memRead (BitVec.ofNat 32 (b + off)) .byte = ⟨true, (s.regionByte r off).setWidth 32⟩ := by
  rw [memRead_region hv r hr hoff (fun h => by cases h) fun _ => hword, readData_byte s hword]

/-- Settles O14: each table and buffer is a region, and its entries are what the region shows. -/
theorem bufferReadsReturnBytes : Obligations.BufferReadsReturnBytes := by
  refine fun s hv => ⟨fun b => ?freq, fun _ => memRead_byte hv .keyin ⟨rfl, rfl⟩ rfl,
    fun _ => memRead_byte hv .noncein ⟨rfl, rfl⟩ rfl, fun _ => memRead_byte hv .ksblk ⟨rfl, rfl⟩ rfl,
    fun _ => memRead_byte hv .tmem ⟨rfl, rfl⟩ rfl, fun _ => memRead_byte hv .pmem ⟨rfl, rfl⟩ rfl,
    fun _ => memRead_byte hv .emem ⟨rfl, rfl⟩ rfl⟩
  case freq =>
    have hb := b.isLt
    have hentry : 4 * b.toNat / 4 = b.toNat := Nat.mul_div_cancel_left _ (by decide)
    rw [memRead_region hv .freq ⟨rfl, rfl⟩ (by simp only [AccessSize.bytes]; omega) (fun _ => by omega)
      (fun h => by cases h)]
    show (⟨true, s.freq.getD (4 * b.toNat / 4) 0⟩ : BusResp) = _
    rw [hentry, freqOf, BitVec.ofNat_toNat, BitVec.setWidth_eq]

/-- An aligned address of a byte region has four bytes of that region from it on (R60, R64). -/
theorem byteRegion_of_aligned {p : Params} (hv : p.Valid) {a : Nat} (h : InByteRegion p a)
    (halign : a % 4 = 0) :
    ∃ r b k off, RegionAt p r b k ∧ r.isWord = false ∧ a = b + off ∧ off + 4 ≤ k := by
  obtain ⟨r, off, hl⟩ := (locate_isSome_iff hv a .byte).2 h
  obtain ⟨b, k, hr, rfl, hoff, -, hbyte⟩ := (locate_eq_some_iff hv ..).1 hl
  obtain ⟨hb, hk, -⟩ := regionAt_bounds hv hr
  simp only [AccessSize.bytes] at hoff
  exact ⟨r, b, k, off, hr, hbyte rfl, rfl, by omega⟩

/-- Settles O9: the word read and the four byte reads fall in one region, and a word of it is its bytes. -/
theorem wordReadIsLittleEndian : Obligations.WordReadIsLittleEndian := by
  intro s a hv hin halign
  obtain ⟨r, b, k, off, hr, hword, ha, hoff⟩ := byteRegion_of_aligned hv hin halign
  obtain ⟨hb, -, -⟩ := regionAt_bounds hv hr
  have haddr (i : Nat) : a + BitVec.ofNat 32 i = BitVec.ofNat 32 (b + (off + i)) := by
    rw [← Nat.add_assoc, ← ha, BitVec.ofNat_add, BitVec.ofNat_toNat, BitVec.setWidth_eq]
  have hbyte (i : Nat) (hi : i < 4) :
      s.memRead (a + BitVec.ofNat 32 i) .byte = ⟨true, (s.regionByte r (off + i)).setWidth 32⟩ := by
    rw [haddr]
    exact memRead_byte hv r hr hword (by omega)
  have hvalue (x : Byte) : (x.setWidth 32).toNat = x.toNat := BitVec.toNat_setWidth_of_le (by decide)
  have hwordRead : s.memRead a .word = ⟨true, le32 (s.regionByte r off) (s.regionByte r (off + 1))
      (s.regionByte r (off + 2)) (s.regionByte r (off + 3))⟩ := by
    have h0 : a = BitVec.ofNat 32 (b + off) := by rw [← ha, BitVec.ofNat_toNat, BitVec.setWidth_eq]
    rw [h0, memRead_region hv r hr hoff (fun _ => by omega) (fun h => by cases h), readData_word s hword]
  have h0 := hbyte 0 (by decide)
  have h1 : s.memRead (a + 1) .byte = _ := hbyte 1 (by decide)
  have h2 : s.memRead (a + 2) .byte = _ := hbyte 2 (by decide)
  have h3 : s.memRead (a + 3) .byte = _ := hbyte 3 (by decide)
  rw [BitVec.add_zero] at h0
  rw [hwordRead, h0, h1, h2, h3]
  exact ⟨rfl, by simp only [hvalue, le32_toNat, Nat.add_zero]⟩

end Sys2Proof.Proofs.Reads

/-!
PROOFS of the family other, host writes: what an accepted write other than to CMD stores, and that every read finds it
there and nowhere else (spec/20_memory.md R61, R63, R71).
-/

namespace Sys2Proof.Proofs.Writes

open Sys2Proof Sys2Proof.Machine Sys2Proof.Laws Sys2Proof.Proofs.Memory Sys2Proof.Proofs.Reads

/-! ### What a store touches -/

section

variable (s : State) {r : Region} (off : Nat) (n : AccessSize) (v : Word)

/-- PLEN is the one CSR word that a store can change, and the only one at its offset (R61). -/
theorem store_csr : s.store .csr off n v = { s with plen := if off = 0x014 then v else s.plen } := by
  rw [State.store]
  split <;> rfl

@[simp] theorem store_cfg : (s.store r off n v).cfg = s.cfg :=
  (congrArg State.cfg (store_frame s r off n v)).trans rfl

@[simp] theorem store_ksblk : (s.store r off n v).ksblk = s.ksblk :=
  (congrArg State.ksblk (store_frame s r off n v)).trans rfl

@[simp] theorem store_node : (s.store r off n v).node = s.node :=
  (congrArg State.node (store_frame s r off n v)).trans rfl

@[simp] theorem store_cb : (s.store r off n v).cb = s.cb :=
  (congrArg State.cb (store_frame s r off n v)).trans rfl

theorem store_keyin_of_ne (h : r ≠ .keyin) : (s.store r off n v).keyin = s.keyin := by
  cases r with
  | csr => rw [store_csr]
  | keyin => exact absurd rfl h
  | _ => rfl

theorem store_noncein_of_ne (h : r ≠ .noncein) : (s.store r off n v).noncein = s.noncein := by
  cases r with
  | csr => rw [store_csr]
  | noncein => exact absurd rfl h
  | _ => rfl

theorem store_freq_of_ne (h : r ≠ .freq) : (s.store r off n v).freq = s.freq := by
  cases r with
  | csr => rw [store_csr]
  | freq => exact absurd rfl h
  | _ => rfl

theorem store_byteAt_of_ne (h : r ≠ .pmem) (x : Nat) : (s.store r off n v).byteAt x = s.byteAt x := by
  cases r with
  | csr => rw [store_csr]; rfl
  | pmem => exact absurd rfl h
  | _ => rfl

theorem length_writeBytes : (writeBytes n v).length = n.bytes := by
  cases n <;> rfl

end

/-! ### What a write leaves in a byte region -/

section

variable {s : State} {r r' : Region} {b k off j a : Nat} {n : AccessSize} {v : Word}

/-- A run stored in a byte region reads back, and the other bytes of the region stay. -/
theorem regionByte_store_same (hr : RegionAt s.cfg r b k) (hoff : off + n.bytes ≤ k)
    (hbyte : r.isWord = false) (hw : hostWritable r off = true) (j : Nat) :
    (s.store r off n v).regionByte r j =
      if off ≤ j ∧ j < off + n.bytes then (writeBytes n v).getD (j - off) 0 else s.regionByte r j := by
  rw [← length_writeBytes n v] at hoff ⊢
  cases r with
  | keyin =>
    obtain ⟨-, rfl⟩ := hr
    exact getD_storeBytes _ _ _ hoff j 0
  | noncein =>
    obtain ⟨-, rfl⟩ := hr
    exact getD_storeBytes _ _ _ hoff j 0
  | pmem =>
    have hrun : pmemBase + off ≤ pmemBase + j ∧ pmemBase + j < pmemBase + off + (writeBytes n v).length ↔
        off ≤ j ∧ j < off + (writeBytes n v).length := by omega
    have hindex : pmemBase + j - (pmemBase + off) = j - off := by omega
    refine (byteAt_writeRun s _ _ (pmemBase + j)).trans ?_
    simp only [hrun, hindex]
    rfl
  | ksblk => cases hw
  | tmem => cases hw
  | emem => cases hw
  | csr => cases hbyte
  | freq => cases hbyte
  | node => cases hbyte
  | cb => cases hbyte

/-- A write to one region leaves the bytes of every other: PMEM lies between TMEM and EMEM (R39 to R41). -/
theorem regionByte_store_other (hv : s.cfg.Valid) (hl : locate s.cfg a n = some (r, off))
    (hr' : RegionAt s.cfg r' b k) (hj : j < k) (hne : r ≠ r') :
    (s.store r off n v).regionByte r' j = s.regionByte r' j := by
  cases r' with
  | keyin => exact congrArg (Table.getD · j 0) (store_keyin_of_ne s off n v hne)
  | noncein => exact congrArg (Table.getD · j 0) (store_noncein_of_ne s off n v hne)
  | ksblk => exact congrArg (Table.getD · j 0) (store_ksblk s off n v)
  | pmem => exact store_byteAt_of_ne s off n v hne _
  | tmem =>
    obtain ⟨-, rfl⟩ := hr'
    exact byteAt_store hl (.inl (by unfold tmemBase pmemBase; omega))
  | emem =>
    obtain ⟨-, -, -, hpe, he⟩ := hv
    exact byteAt_store hl (.inr (by unfold ememBase pmemBase; omega))
  | _ => rfl

/-! ### What a write leaves in a word region -/

theorem csrWord_of_plen (s : State) (x : Word) (j : Nat) :
    ({ s with plen := x } : State).csrWord j = if j = 0x014 then x else s.csrWord j := by
  by_cases hj : j = 0x014
  · subst hj
    rfl
  · rw [if_neg hj]
    unfold State.csrWord
    split
    case h_6 => exact absurd rfl hj
    all_goals rfl

theorem csrWord_store_of_ne (h : r ≠ .csr) : (s.store r off n v).csrWord j = s.csrWord j := by
  cases r with
  | csr => exact absurd rfl h
  | _ => rfl

/-- A word stored in a word region reads back, and the other words of the region stay. -/
theorem regionWord_store_same (hr : RegionAt s.cfg r b k) (hoff : off < k) (hword : r.isWord = true)
    (hw : hostWritable r off = true) (hcmd : ¬ (r = .csr ∧ off = 0)) (halign : off % 4 = 0)
    (hj : j % 4 = 0) :
    (s.store r off n v).regionWord r j = if j = off then v else s.regionWord r j := by
  cases r with
  | csr =>
    obtain rfl : off = 0x014 := by simpa [hostWritable, show off ≠ 0 from fun h => hcmd ⟨rfl, h⟩] using hw
    rw [store_csr]
    exact csrWord_of_plen s _ j
  | freq =>
    obtain ⟨-, rfl⟩ := hr
    have hentry : j / 4 = off / 4 ↔ j = off := by omega
    refine (table_setNat_getD s.freq v 0 (j / 4) (by omega : off / 4 < 256)).trans ?_
    simp only [hentry]
    rfl
  | node => cases hw
  | cb => cases hw
  | _ => cases hword

theorem regionWord_store_other (hne : r ≠ r') :
    (s.store r off n v).regionWord r' j = s.regionWord r' j := by
  cases r' with
  | csr => exact csrWord_store_of_ne hne
  | freq => exact congrArg (Table.getD · (j / 4) 0) (store_freq_of_ne s off n v hne)
  | node => exact congrArg (fun t => (Table.getD t (j / 16) Node.zero).word (j % 16 / 4)) (store_node s off n v)
  | cb => exact congrArg (fun t => codeEntryWord (j % 64 / 4) (Table.getD t (j / 64) none)) (store_cb s off n v)
  | _ => rfl

end

/-! ### Reads after a write -/

/-- What the same access reads back after a write: the value, or its low byte (R63). -/
def readBack (n : AccessSize) (v : Word) : Word :=
  match n with
  | .byte => v &&& 0xFF
  | .word => v

theorem setWidth_wordByte_zero (v : Word) : (wordByte v 0).setWidth 32 = v &&& 0xFF := by
  refine BitVec.eq_of_toNat_eq ?_
  have hv := (wordByte v 0).isLt
  rw [BitVec.toNat_setWidth_of_le (by decide), wordByte_toNat, BitVec.toNat_and]
  simpa using (Nat.and_two_pow_sub_one_eq_mod v.toNat 8).symm

/-- A region stands at one place. -/
theorem regionAt_unique {p : Params} {r : Region} {b k b' k' : Nat} (h : RegionAt p r b k)
    (h' : RegionAt p r b' k') : b = b' ∧ k = k' := by
  cases r <;> exact ⟨h.1.trans h'.1.symm, h.2.trans h'.2.symm⟩

section

variable {s : State} {a c : Word} {n m : AccessSize} {r r' : Region} {off off' : Nat} {v : Word}

/-- The same access reads back what it wrote: the value, or its low byte. -/
theorem readData_store_self (hv : s.cfg.Valid) (hl : locate s.cfg a.toNat n = some (r, off))
    (hw : hostWritable r off = true) (hcmd : ¬ (r = .csr ∧ off = 0)) :
    (s.store r off n v).readData r off n = readBack n v := by
  obtain ⟨b, k, hr, ha, hoff, halign, hbyte⟩ := (locate_eq_some_iff hv ..).1 hl
  obtain ⟨hb, -, -⟩ := regionAt_bounds hv hr
  have hself (i : Nat) (hi : i < n.bytes) (hregion : r.isWord = false) :
      (s.store r off n v).regionByte r (off + i) = (writeBytes n v).getD i 0 := by
    rw [regionByte_store_same hr hoff hregion hw, if_pos (by omega), Nat.add_sub_cancel_left]
  cases hregion : r.isWord with
  | true =>
    rw [readData_of_word _ hregion]
    cases n with
    | byte => cases hregion.symm.trans (hbyte rfl)
    | word =>
      simp only [AccessSize.bytes] at hoff
      have haligned := halign rfl
      rw [regionWord_store_same hr (by omega) hregion hw hcmd (by omega) (by omega), if_pos rfl]
      rfl
  | false =>
    have h0 := hself 0 (by cases n <;> decide) hregion
    rw [Nat.add_zero] at h0
    cases n with
    | byte =>
      rw [readData_byte _ hregion, h0]
      exact setWidth_wordByte_zero v
    | word =>
      rw [readData_word _ hregion, h0, hself 1 (by decide) hregion, hself 2 (by decide) hregion,
        hself 3 (by decide) hregion]
      exact le32_wordByte v

/-- A read of a byte region depends on its bytes alone. -/
theorem readData_congr_bytes {t : State} (hbyte : r.isWord = false)
    (h : ∀ i < n.bytes, t.regionByte r (off + i) = s.regionByte r (off + i)) :
    t.readData r off n = s.readData r off n := by
  have h0 := h 0 (by cases n <;> decide)
  rw [Nat.add_zero] at h0
  cases n with
  | byte => rw [readData_byte _ hbyte, readData_byte _ hbyte, h0]
  | word =>
    rw [readData_word _ hbyte, readData_word _ hbyte, h0, h 1 (by decide), h 2 (by decide), h 3 (by decide)]

/-- An access that does not overlap the written one reads what it read before. -/
theorem readData_store_disjoint (hv : s.cfg.Valid) (hl : locate s.cfg a.toNat n = some (r, off))
    (hw : hostWritable r off = true) (hcmd : ¬ (r = .csr ∧ off = 0))
    (hl' : locate s.cfg c.toNat m = some (r', off'))
    (hdisjoint : c.toNat + m.bytes ≤ a.toNat ∨ a.toNat + n.bytes ≤ c.toNat) :
    (s.store r off n v).readData r' off' m = s.readData r' off' m := by
  obtain ⟨b, k, hr, ha, hoff, halign, hbyte⟩ := (locate_eq_some_iff hv ..).1 hl
  obtain ⟨b', k', hr', hc, hoff', halign', hbyte'⟩ := (locate_eq_some_iff hv ..).1 hl'
  have hn : 0 < n.bytes := by cases n <;> decide
  have hm : 0 < m.bytes := by cases m <;> decide
  by_cases hregion : r = r'
  · subst hregion
    obtain ⟨rfl, rfl⟩ := regionAt_unique hr hr'
    obtain ⟨hb, -, -⟩ := regionAt_bounds hv hr
    cases hword : r.isWord with
    | true =>
      have haligned : a.toNat % 4 = 0 := halign (by cases n; exact absurd (hbyte rfl) (by simp [hword]); rfl)
      have haligned' : c.toNat % 4 = 0 := halign' (by cases m; exact absurd (hbyte' rfl) (by simp [hword]); rfl)
      rw [readData_of_word _ hword, readData_of_word _ hword,
        regionWord_store_same hr (by omega) hword hw hcmd (by omega) (by omega), if_neg (by omega)]
    | false =>
      refine readData_congr_bytes hword fun i hi => ?_
      rw [regionByte_store_same hr hoff hword hw, if_neg (by omega)]
  · cases hword : r'.isWord with
    | true => rw [readData_of_word _ hword, readData_of_word _ hword, regionWord_store_other hregion]
    | false =>
      exact readData_congr_bytes hword fun i hi => regionByte_store_other hv hl hr' (by omega) hregion

theorem memRead_store_self (hv : s.cfg.Valid) (hl : locate s.cfg a.toNat n = some (r, off))
    (hw : hostWritable r off = true) (hcmd : ¬ (r = .csr ∧ off = 0)) :
    (s.store r off n v).memRead a n = ⟨true, readBack n v⟩ := by
  rw [memRead_of_locate (r := r) (off := off) (by rwa [store_cfg]), readData_store_self hv hl hw hcmd]

theorem memRead_store_disjoint (hv : s.cfg.Valid) (hl : locate s.cfg a.toNat n = some (r, off))
    (hw : hostWritable r off = true) (hcmd : ¬ (r = .csr ∧ off = 0))
    (hdisjoint : c.toNat + m.bytes ≤ a.toNat ∨ a.toNat + n.bytes ≤ c.toNat) :
    (s.store r off n v).memRead c m = s.memRead c m :=
  memRead_congr (store_cfg s off n v) fun _ _ hl' => readData_store_disjoint hv hl hw hcmd hl' hdisjoint

end

/-- A read does not see the pending events or the response (log 4, log 5). -/
theorem memRead_of_host_side (s : State) (rest : List HostEvent) (resp : Option BusResp) (c : Word)
    (m : AccessSize) : ({ s with pending := rest, resp := resp } : State).memRead c m = s.memRead c m :=
  memRead_congr rfl fun r _ _ => by cases r <;> rfl

/-- Settles O10: an accepted write away from CMD is one store; it is read back at its location, does not show at any
other, and touches the inputs of the host alone. -/
theorem hostWriteReadsBack : Obligations.HostWriteReadsBack := by
  intro s a n v rest hv hp ha hw h0
  obtain ⟨r, off, hl, hstore⟩ := memWrite_store (s := { s with pending := rest }) v hv ha hw h0
  have hwr : hostWritable r off = true := (locate_writable hv hl).1.2 hw
  have hcmd : ¬ (r = .csr ∧ off = 0) := fun h => h0 ((locate_writable hv hl).2.1 h)
  refine ⟨State.store { s with pending := rest, resp := some ⟨true, 0⟩ } r off n v,
    (step_write hp).trans hstore, ?readBack, fun c m hdisjoint => ?others, store_frame ..⟩
  case readBack =>
    refine (memRead_store_self (s := { s with pending := rest, resp := some ⟨true, 0⟩ }) hv hl hwr hcmd).trans ?_
    cases n with
    | byte => rfl
    | word => rfl
  case others =>
    rw [← memRead_of_host_side s rest (some ⟨true, 0⟩) c m]
    exact memRead_store_disjoint hv hl hwr hcmd hdisjoint

end Sys2Proof.Proofs.Writes

/-!
PROOFS of the family other, single commands and events: reset (spec/10_state.md R44, spec/70_reset_and_hazards.md
R240), the printed Salsa20 blocks (spec/44_stream_cipher.md R164), MASK twice (spec/45_mask.md R184) and KEYGEN
(spec/46_system.md R193).
-/

namespace Sys2Proof.Proofs.Commands

open Sys2Proof Sys2Proof.Machine Sys2Proof.Laws Sys2Proof.Proofs.Mask Sys2Proof.Proofs.System
  Sys2Proof.Proofs.Invariant

/-! ### Reset -/

/-- The columns "after reset" and "after CLR" of R44 agree: CLR leaves the state after reset as it is. -/
theorem resetWith_cleared (p : Params) : (State.resetWith p).Cleared := clear_cleared (State.resetWith p)

theorem hardReset_cleared (s : State) : s.hardReset.Cleared := clear_cleared s.hardReset

/-- Settles O16: every item at its reset value, with the parameters of the machine. -/
theorem resetStateIsCleared : Obligations.ResetStateIsCleared :=
  ⟨resetWith_cleared _, rfl, machine_valid, rfl, rfl, rfl⟩

theorem step_reset {s : State} {rest : List HostEvent} (h : s.pending = .reset :: rest) :
    step s = .next ({ s with pending := rest } : State).hardReset := by
  rw [step, State.serveNext, h]
  rfl

/-- Settles O17: the step at a reset event is `State.hardReset`. -/
theorem resetEventClearsBlock : Obligations.ResetEventClearsBlock :=
  fun _ _ hp => ⟨_, step_reset hp, hardReset_cleared _, rfl, rfl, rfl, rfl, rfl, rfl, rfl⟩

/-! ### The printed blocks -/

/-- Settles O39: both blocks by evaluation. -/
theorem salsaBlockMatchesExample : Obligations.SalsaBlockMatchesExample := by
  unfold Obligations.SalsaBlockMatchesExample
  decide +kernel

/-! ### MASK -/

/-- Settles O43: the reserved selector names no buffer, which is the first check of MASK. -/
theorem maskReservedRaises : Obligations.MaskReservedRaises := fun _ => rfl

/-- The state CINIT leaves (R165); `exec_cinit` says so. -/
def initialised (s : State) : State :=
  { s with
    key := s.keyin, nonce := s.noncein, ctr := 0, ksblk := Table.fill 64 0
    status := s.status.setCipher }

theorem exec_cinit (s : State) : exec .cinit s = .next (initialised s) := rfl

/-- After CINIT the counter has room for any buffer: a length is a 32-bit word (R167). -/
theorem initialised_room (s : State) (buf : BufSel) :
    (initialised s).ctr.toNat + ceil64 (s.maskLength buf) ≤ ctrLimit := by
  have hlen : s.maskLength buf < 2 ^ 32 := by
    cases buf with
    | pmem => exact s.plen.isLt
    | tmem => exact s.tlen.isLt
    | emem => exact s.elen.isLt
    | reserved => exact Nat.two_pow_pos 32
  have hctr : (initialised s).ctr.toNat = 0 := rfl
  unfold ceil64 ctrLimit
  omega

/-- CINIT and MASK of a buffer go on and leave it masked from block 0 on. -/
theorem exec_mask_initialised (s : State) {buf : BufSel} {base : Nat} (hb : maskBase buf = some base)
    (hfits : buf = .pmem → s.plen.toNat ≤ s.cfg.pmax) :
    exec (.mask buf) (initialised s) = .next ((initialised s).maskBuffer base (s.maskLength buf)) :=
  exec_mask_masks (s := initialised s) hb rfl hfits (initialised_room s buf)

/-- Masking twice with one key, nonce and counter is XOR with one keystream twice (R184). -/
theorem byteAt_mask_twice (s : State) (base len a : Nat) :
    ((initialised ((initialised s).maskBuffer base len)).maskBuffer base len).byteAt a = s.byteAt a := by
  have hfirst (x : Nat) : (initialised ((initialised s).maskBuffer base len)).byteAt x =
      ((initialised s).maskBuffer base len).byteAt x := rfl
  have hkey : (initialised ((initialised s).maskBuffer base len)).key = (initialised s).key := rfl
  have hnonce : (initialised ((initialised s).maskBuffer base len)).nonce = (initialised s).nonce := rfl
  have hctr : (initialised ((initialised s).maskBuffer base len)).ctr = (initialised s).ctr := rfl
  rw [byteAt_maskBuffer, hfirst, byteAt_maskBuffer, hkey, hnonce, hctr]
  split
  · rw [BitVec.xor_assoc, BitVec.xor_self, BitVec.xor_zero]
    rfl
  · rfl

/-- Settles O44: the second CINIT starts the same keystream again. -/
theorem maskTwiceRestoresBuffer : Obligations.MaskTwiceRestoresBuffer := by
  intro s buf hwf hfits
  obtain ⟨base, hb⟩ : ∃ base, maskBase buf = some base := by
    cases buf with
    | reserved => cases hwf
    | _ => exact ⟨_, rfl⟩
  have hlen : ((initialised s).maskBuffer base (s.maskLength buf)).maskLength buf = s.maskLength buf := by
    cases buf <;> rfl
  have hsecond := exec_mask_initialised ((initialised s).maskBuffer base (s.maskLength buf)) hb hfits
  rw [hlen] at hsecond
  exact ⟨_, _, _, _, exec_cinit s, exec_mask_initialised s hb hfits, exec_cinit _, hsecond, rfl,
    byteAt_mask_twice s base _⟩

/-! ### KEYGEN -/

theorem exec_keygen_stores {s : State} {r : Table Byte 40} (h : s.rngAnswer = .bytes r) :
    exec .keygen s = .next { s.drawn with keyin := answerKey r, noncein := answerNonce r } := by
  rw [exec, execKeygen, h]

theorem exec_keygen_raises {s : State} (h : s.rngAnswer = .fail) :
    exec .keygen s = .next { s.afterError 3 0x0000000A 0 with rng := s.rng.tail, draws := s.draws + 1 } := by
  rw [exec, execKeygen, h]
  rfl

/-- Settles O45: the two answers of the randomness service. -/
theorem keygenStoresAnswerOrRaises : Obligations.KeygenStoresAnswerOrRaises :=
  fun _ => ⟨fun _ hr => ⟨_, exec_keygen_stores hr, rfl, fun _ hj => table_ofFn_getD _ hj 0,
    fun _ hj => table_ofFn_getD _ hj 0⟩, exec_keygen_raises⟩

end Sys2Proof.Proofs.Commands

/-!
PROOFS of the family other, what no command or step may do: leave the FAULT state (spec/60_exceptions.md R214, R216),
rewind the counter (spec/44_stream_cipher.md R167), touch another command's flag (spec/10_state.md R23), or do
something new when it is repeated (spec/20_memory.md R69).
-/

namespace Sys2Proof.Proofs.Frames

open Sys2Proof Sys2Proof.Machine Sys2Proof.Laws Sys2Proof.Proofs.Memory Sys2Proof.Proofs.Huffman
  Sys2Proof.Proofs.Codebook Sys2Proof.Proofs.Encoder Sys2Proof.Proofs.Serializer Sys2Proof.Proofs.Cipher
  Sys2Proof.Proofs.Mask Sys2Proof.Proofs.System Sys2Proof.Proofs.DecoderReference Sys2Proof.Proofs.Commands
  Sys2Proof.Proofs.Reads

/-! ### The FAULT state -/

/-- A byte access never reaches CMD: the CSR words move 32 bits at once (R67, R68). -/
theorem word_of_locate_csr {p : Params} {a : Nat} {n : AccessSize} {off : Nat}
    (h : locate p a n = some (.csr, off)) : n = .word := by
  obtain ⟨b, k, ⟨rfl, rfl⟩, ha, hoff⟩ := locate_within h
  rw [locate_congr_of_lt p ⟨4, 4⟩ (by unfold pmemBase; omega)] at h
  obtain ⟨-, -, -, -, -, -, hbyte⟩ := (locate_eq_some_iff four_valid ..).1 h
  cases n with
  | word => rfl
  | byte => cases hbyte rfl

/-- An access at address 0 goes to CMD (R22). -/
theorem locate_zero {p : Params} {n : AccessSize} {r : Region} {off : Nat}
    (h : locate p 0 n = some (r, off)) : r = .csr ∧ off = 0 := by
  cases n with
  | byte => cases h
  | word =>
    cases h
    exact ⟨rfl, rfl⟩

/-- In the FAULT state a write to CMD of anything but exactly CLR does nothing (R214). -/
theorem command_of_fault {s t : State} {w : Word} (hf : s.err ≠ 0) (h : s.command w = .next t) :
    w = clrWord ∨ t = s := by
  obtain ⟨-, hclr, -⟩ | ⟨-, -, rfl⟩ | ⟨h0, -⟩ | ⟨h0, -⟩ := command_next h
  · exact .inl hclr
  · exact .inr rfl
  · exact absurd h0 hf
  · exact absurd h0 hf

/-- What a write can do in the FAULT state: clear it with exactly CLR, store an input outside CMD, or nothing. -/
theorem memWrite_of_fault {s t : State} {a : Word} {n : AccessSize} {v : Word} (hf : s.err ≠ 0)
    (h : s.memWrite a n v = .next t) :
    (a = 0 ∧ n = .word ∧ v = clrWord) ∨
      (t = { s with
          plen := t.plen, keyin := t.keyin, noncein := t.noncein, freq := t.freq, mem := t.mem
          resp := t.resp } ∧
        (∀ x, (x < pmemBase ∨ pmemBase + s.cfg.pmax ≤ x) → t.byteAt x = s.byteAt x) ∧
        (a = 0 → t = { s with resp := t.resp })) := by
  obtain ⟨-, rfl⟩ | ⟨r, off, hl, -, hcmd, rfl⟩ | ⟨hl, hc⟩ := memWrite_next h
  · exact .inr ⟨rfl, fun _ _ => rfl, fun _ => rfl⟩
  · refine .inr ⟨?frame, fun x hx => byteAt_store (s := s.respond ⟨true, 0⟩) hl hx, fun hzero => ?notZero⟩
    case frame =>
      rw [store_resp]
      exact store_frame ..
    case notZero =>
      subst hzero
      exact absurd (locate_zero hl) hcmd
  · obtain hv | rfl := command_of_fault (s := s.respond ⟨true, 0⟩) hf hc
    · exact .inl ⟨BitVec.eq_of_toNat_eq (locate_cmd hl), word_of_locate_csr hl, hv⟩
    · exact .inr ⟨rfl, fun _ _ => rfl, fun _ => rfl⟩

/-- Settles O47: an idle step and a read change nothing of the block, and a write is one of the cases above. -/
theorem onlyClrAndResetLeaveFault : Obligations.OnlyClrAndResetLeaveFault := by
  intro s t hf h
  obtain ⟨-, rfl⟩ | ⟨_, _, _, -, rfl⟩ | ⟨rest, hp, -⟩ | ⟨a, n, v, rest, hp, hw⟩ := step_next h
  · exact .inr (.inr ⟨rfl, fun _ _ => rfl, fun _ => rfl⟩)
  · exact .inr (.inr ⟨rfl, fun _ _ => rfl, fun _ => rfl⟩)
  · exact .inr (.inl (by rw [hp]; rfl))
  · obtain ⟨rfl, rfl, rfl⟩ | ⟨hframe, hbytes, hzero⟩ :=
      memWrite_of_fault (s := { s with pending := rest }) hf hw
    · exact .inl (by rw [hp]; rfl)
    · have hpending : t.pending = rest := congrArg State.pending hframe
      refine .inr (.inr ⟨?_, hbytes, fun hcmd => ?_⟩)
      · rw [hpending]
        exact hframe
      · rw [hpending]
        exact hzero (hcmd a n v (by rw [hp]; rfl))

/-! ### The counter -/

/-- Settles O48: below its last value NEXTBLK adds one and MASK adds its blocks, without wrapping; no other command
but CLR and CINIT writes CTR. -/
theorem counterIsNeverRewound : Obligations.CounterIsNeverRewound := by
  intro i s t h hclr hcinit
  have kept (hctr : t.ctr = s.ctr) :
      s.ctr.toNat ≤ t.ctr.toNat ∧ (i ≠ .nextblk → (∀ b, i ≠ .mask b) → t.ctr = s.ctr) :=
    ⟨Nat.le_of_eq (congrArg BitVec.toNat hctr).symm, fun _ _ => hctr⟩
  cases i with
  | clr => exact absurd rfl hclr
  | cinit => exact absurd rfl hcinit
  | count => exact kept (by obtain ⟨-, rfl⟩ | ⟨-, rfl⟩ := execCount_next h <;> rfl)
  | build => exact kept (by obtain ⟨-, rfl⟩ | ⟨-, rfl⟩ := execBuild_next h <;> rfl)
  | derive => exact kept (by obtain ⟨-, rfl⟩ | ⟨-, _, -, rfl⟩ := execDerive_next h <;> rfl)
  | encode =>
    exact kept (by
      obtain ⟨-, rfl⟩ | ⟨-, _, -, rfl⟩ | ⟨-, -, -, rfl⟩ | ⟨-, -, -, rfl⟩ := execEncode_next h <;> rfl)
  | serialize => exact kept (by obtain ⟨-, rfl⟩ | ⟨-, _, -, rfl⟩ := execSerialize_next h <;> rfl)
  | keygen => exact kept (by obtain ⟨-, rfl⟩ | ⟨_, -, rfl⟩ := execKeygen_next h <;> rfl)
  | nextblk =>
    obtain ⟨-, rfl⟩ | ⟨-, -, rfl⟩ | ⟨-, hlt, rfl⟩ := execNextblk_next h
    · exact kept rfl
    · exact kept rfl
    · refine ⟨?_, fun hne => absurd rfl hne⟩
      have hctr := generated_ctr_toNat hlt
      exact hctr.symm ▸ Nat.le_succ _
  | mask buf =>
    obtain ⟨-, rfl⟩ | ⟨base, -, ⟨-, rfl⟩ | ⟨-, -, -, rfl⟩ | ⟨-, -, -, rfl⟩ | ⟨-, -, hroom, rfl⟩⟩ := execMask_next h
    · exact kept rfl
    · exact kept rfl
    · exact kept rfl
    · exact kept rfl
    · refine ⟨?_, fun _ hne => absurd rfl (hne buf)⟩
      rw [maskBuffer_ctr_toNat base hroom]
      exact Nat.le_add_right _ _

/-! ### The flags -/

/-- The flags a command leaves that ends without an error (R23); for MASK, when its buffer is not empty. -/
def flagsAfter (i : Instr) (f : Status) : Status :=
  match i with
  | .clr => Status.zero
  | .build => f.setTree
  | .derive => f.setCodebook
  | .encode => f.setEncoded
  | .serialize => f.setSerialized
  | .cinit => f.setCipher
  | .nextblk | .mask _ => f.setKeystream
  | .count | .keygen => f

/-- What a command can do to STATUS: nothing, FAULT at error entry (R213), or its own flags. -/
theorem exec_status {i : Instr} {s t : State} (h : exec i s = .next t) :
    t.status = s.status ∨ t.status = s.status.setFault ∨ t.status = flagsAfter i s.status := by
  have raised {s' : State} {e : CommandError} {w : Word} (ht : t = s'.raise e w)
      (hs : s'.status = s.status) : t.status = s.status.setFault := by
    rw [ht, raise_status, hs]
  cases i with
  | clr =>
    obtain rfl := execClr_next h
    exact .inr (.inr rfl)
  | count =>
    obtain ⟨-, ht⟩ | ⟨-, rfl⟩ := execCount_next h
    · exact .inr (.inl (raised ht rfl))
    · exact .inl rfl
  | build =>
    obtain ⟨-, ht⟩ | ⟨-, rfl⟩ := execBuild_next h
    · exact .inr (.inl (raised ht rfl))
    · exact .inr (.inr rfl)
  | derive =>
    obtain ⟨-, ht⟩ | ⟨-, _, -, rfl⟩ := execDerive_next h
    · exact .inr (.inl (raised ht rfl))
    · exact .inr (.inr rfl)
  | encode =>
    obtain ⟨-, ht⟩ | ⟨-, _, -, ht⟩ | ⟨-, -, -, ht⟩ | ⟨-, -, -, rfl⟩ := execEncode_next h
    · exact .inr (.inl (raised ht rfl))
    · exact .inr (.inl (raised ht rfl))
    · exact .inr (.inl (raised ht rfl))
    · exact .inr (.inr rfl)
  | serialize =>
    obtain ⟨-, ht⟩ | ⟨-, _, -, rfl⟩ := execSerialize_next h
    · exact .inr (.inl (raised ht rfl))
    · exact .inr (.inr rfl)
  | cinit =>
    obtain rfl := execCinit_next h
    exact .inr (.inr rfl)
  | nextblk =>
    obtain ⟨-, ht⟩ | ⟨-, -, ht⟩ | ⟨-, -, rfl⟩ := execNextblk_next h
    · exact .inr (.inl (raised ht rfl))
    · exact .inr (.inl (raised ht rfl))
    · exact .inr (.inr rfl)
  | mask buf =>
    obtain ⟨-, ht⟩ | ⟨base, -, ⟨-, ht⟩ | ⟨-, -, -, ht⟩ | ⟨-, -, -, ht⟩ | ⟨-, -, -, rfl⟩⟩ := execMask_next h
    · exact .inr (.inl (raised ht rfl))
    · exact .inr (.inl (raised ht rfl))
    · exact .inr (.inl (raised ht rfl))
    · exact .inr (.inl (raised ht rfl))
    · rcases Nat.eq_zero_or_pos (s.maskLength buf) with hzero | hpos
      · exact .inl (maskBuffer_ksblk_status_of_zero s base hzero).2
      · exact .inr (.inr (maskBuffer_status_of_pos s base hpos))
  | keygen =>
    obtain ⟨-, ht⟩ | ⟨_, -, rfl⟩ := execKeygen_next h
    · exact .inr (.inl (raised ht rfl))
    · exact .inl rfl

/-- Settles O49: error entry touches FAULT alone, and the flags a command leaves are its own. -/
theorem flagsAreSetByTheirCommand : Obligations.FlagsAreSetByTheirCommand := by
  intro i s t h
  obtain hs | hs | hs := exec_status h
  · simp [hs]
  · simp [hs]
  · rw [hs]
    cases i <;> simp [flagsAfter]

end Sys2Proof.Proofs.Frames

/-!
PROOFS of the family other, repeated commands (spec/20_memory.md R69): with its inputs unchanged a command other than
NEXTBLK, MASK and KEYGEN leaves the state it has left before.
-/

namespace Sys2Proof.Proofs.Repeat

open Sys2Proof Sys2Proof.Machine Sys2Proof.Laws Sys2Proof.Proofs.Huffman Sys2Proof.Proofs.Codebook
  Sys2Proof.Proofs.Encoder Sys2Proof.Proofs.Serializer Sys2Proof.Proofs.DecoderReference

/-! ### One run of bytes written twice -/

theorem filter_cellsAt_of_neg {a : Nat} {bs : List Byte} {p : Host.Cell → Bool}
    (h : ∀ c : Host.Cell, a ≤ c.1 → c.1 < a + bs.length → p c = false) : (cellsAt a bs).filter p = [] := by
  rw [List.filter_eq_nil_iff]
  intro c hc
  obtain ⟨hlow, hhigh⟩ := mem_cellsAt hc
  simp [h c hlow hhigh]

/-- No cell lies both below a run and above it. -/
theorem filter_below_above (m : Memory) (a len : Nat) :
    (m.filter fun c => decide (c.1 < a) && decide (a + len ≤ c.1)) = [] := by
  rw [List.filter_eq_nil_iff]
  intro c _
  simp only [Bool.and_eq_true, decide_eq_true_eq]
  omega

/-- Writing a run of bytes again changes nothing: what is below it and what is above it stay. -/
theorem writeRun_writeRun (m : Memory) (a : Nat) (bs : List Byte) :
    (m.writeRun a bs).writeRun a bs = m.writeRun a bs := by
  have hbelow : (m.writeRun a bs).filter (fun c => decide (c.1 < a)) = m.filter fun c => decide (c.1 < a) := by
    rw [Memory.writeRun, List.filter_append, List.filter_append, List.filter_filter, List.filter_filter,
      filter_cellsAt_of_neg (fun c hlow _ => decide_eq_false (by omega)), filter_below_above]
    simp
  have habove : (m.writeRun a bs).filter (fun c => decide (a + bs.length ≤ c.1)) =
      m.filter fun c => decide (a + bs.length ≤ c.1) := by
    rw [Memory.writeRun, List.filter_append, List.filter_append, List.filter_filter, List.filter_filter,
      filter_cellsAt_of_neg (fun c _ hhigh => decide_eq_false (by omega))]
    simp only [Bool.and_comm (decide (a + bs.length ≤ _)), filter_below_above]
    simp
  rw [Memory.writeRun, hbelow, habove]
  rfl

/-! ### Each command again -/

section

variable {s t : State}

theorem exec_count_again (h : exec .count s = .next t) : exec .count t = .next t := by
  obtain ⟨hover, rfl⟩ | ⟨hfits, rfl⟩ := execCount_next h
  · exact exec_count_raises (s := s.raise _ _) hover
  · exact exec_count_counts (s := counted s) hfits

theorem exec_build_again (h : exec .build s = .next t) : exec .build t = .next t := by
  obtain ⟨hover, rfl⟩ | ⟨hfits, rfl⟩ := execBuild_next h
  · exact exec_build_raises (s := s.raise _ _) hover
  · exact exec_build_builds (s := built s) hfits

theorem exec_derive_again (h : exec .derive s = .next t) : exec .derive t = .next t := by
  obtain ⟨hv, rfl⟩ | ⟨hv, tree, htree, rfl⟩ := execDerive_next h
  · exact exec_derive_raises (s := s.raise _ _) hv
  · exact exec_derive_derives (s := { s with cb := codebookOf tree, status := s.status.setCodebook }) hv
      ((tree?_congr rfl rfl rfl).trans htree)

theorem exec_serialize_again (h : exec .serialize s = .next t) : exec .serialize t = .next t := by
  obtain ⟨hv, rfl⟩ | ⟨hv, tree, htree, rfl⟩ := execSerialize_next h
  · exact exec_serialize_raises (s := s.raise _ _) hv
  · have htree' : (serialized s tree).tree? = some tree := (tree?_congr rfl rfl rfl).trans htree
    have hsame : serialized (serialized s tree) tree = serialized s tree :=
      congrArg (fun m => { serialized s tree with mem := m }) (writeRun_writeRun s.mem tmemBase (pack tree.ser))
    have hagain := exec_serialize_serializes (s := serialized s tree) hv htree'
    rwa [hsame] at hagain

/-- EMEM lies above PMEM, so ENCODE leaves the payload as it was (R39, R40). -/
theorem encoded_payload (hcfg : s.cfg.Valid) (hfits : s.plen.toNat ≤ s.cfg.pmax) :
    (encoded s).payload = s.payload := by
  obtain ⟨-, -, -, hpe, he⟩ := hcfg
  refine bytesAt_congr _ _ fun i hi => encoded_byteAt_of_outside s (.inl ?_)
  have hi' : i < s.plen.toNat := hi
  unfold pmemBase ememBase
  omega

theorem exec_encode_again (hcfg : s.cfg.Valid) (h : exec .encode s = .next t) : exec .encode t = .next t := by
  obtain ⟨hover, rfl⟩ | ⟨hfits, i, hmissing, rfl⟩ | ⟨hfits, hcodes, hover, rfl⟩ | ⟨hfits, hcodes, hroom, rfl⟩ :=
    execEncode_next h
  · exact exec_encode_raises_payload (s := s.raise _ _) hover
  · exact exec_encode_raises_missing (s := s.raise _ _) hfits hmissing
  · exact exec_encode_raises_output (s := s.raise _ _) hfits hcodes hover
  · have hpayload := encoded_payload hcfg hfits
    have hsame : encoded (encoded s) = encoded s := by
      rw [encoded, hpayload]
      exact congrArg (fun m => { encoded s with mem := m })
        (writeRun_writeRun s.mem ememBase (pack (encodeBits s.cb s.payload)))
    have hagain := exec_encode_encodes (s := encoded s) hfits (by rw [hpayload]; exact hcodes)
      (by rw [hpayload]; exact hroom)
    rwa [hsame] at hagain

end

/-- Settles O50: the seven commands, each in every outcome. -/
theorem repeatedCommandChangesNothing : Obligations.RepeatedCommandChangesNothing := by
  intro i s t hi hmask hcfg h
  cases i with
  | clr =>
    obtain rfl := execClr_next h
    rfl
  | count => exact exec_count_again h
  | build => exact exec_build_again h
  | derive => exact exec_derive_again h
  | encode => exact exec_encode_again hcfg h
  | serialize => exact exec_serialize_again h
  | cinit =>
    obtain rfl := execCinit_next h
    rfl
  | nextblk => exact absurd (by simp) hi
  | keygen => exact absurd (by simp) hi
  | mask b => exact absurd rfl (hmask b)

end Sys2Proof.Proofs.Repeat

/-!
PROOFS of the family other, what the keystream can steer (spec/10_state.md R42): another key and nonce change KSBLK and
the bytes MASK writes, and nothing else.
-/

namespace Sys2Proof.Proofs.Keystream

open Sys2Proof Sys2Proof.Machine Sys2Proof.Laws Sys2Proof.Proofs.Huffman Sys2Proof.Proofs.Codebook
  Sys2Proof.Proofs.Encoder Sys2Proof.Proofs.Serializer Sys2Proof.Proofs.DecoderReference Sys2Proof.Proofs.Cipher
  Sys2Proof.Proofs.Mask Sys2Proof.Proofs.Commands

/-- The same state with another K and N. -/
def rekeyed (s : State) (k : Table Byte 32) (n : Table Byte 8) : State := { s with key := k, nonce := n }

section

variable {s t : State} {k : Table Byte 32} {n : Table Byte 8}

/-- A command other than MASK goes on alike with another K and N, but for KSBLK. -/
theorem exec_rekeyed {i : Instr} (hi : ∀ b, i ≠ .mask b) (h : exec i s = .next t) :
    ∃ t', exec i (rekeyed s k n) = .next t' ∧
      t' = { t with ksblk := t'.ksblk, key := t'.key, nonce := t'.nonce } := by
  cases i with
  | mask b => exact absurd rfl (hi b)
  | clr =>
    obtain rfl := execClr_next h
    exact ⟨_, rfl, rfl⟩
  | cinit =>
    obtain rfl := execCinit_next h
    exact ⟨_, rfl, rfl⟩
  | count =>
    obtain ⟨hover, rfl⟩ | ⟨hfits, rfl⟩ := execCount_next h
    · exact ⟨_, exec_count_raises (s := rekeyed s k n) hover, rfl⟩
    · exact ⟨_, exec_count_counts (s := rekeyed s k n) hfits, rfl⟩
  | build =>
    obtain ⟨hover, rfl⟩ | ⟨hfits, rfl⟩ := execBuild_next h
    · exact ⟨_, exec_build_raises (s := rekeyed s k n) hover, rfl⟩
    · exact ⟨_, exec_build_builds (s := rekeyed s k n) hfits, rfl⟩
  | derive =>
    obtain ⟨hv, rfl⟩ | ⟨hv, tree, htree, rfl⟩ := execDerive_next h
    · exact ⟨_, exec_derive_raises (s := rekeyed s k n) hv, rfl⟩
    · exact ⟨_, exec_derive_derives (s := rekeyed s k n) hv ((tree?_congr rfl rfl rfl).trans htree), rfl⟩
  | serialize =>
    obtain ⟨hv, rfl⟩ | ⟨hv, tree, htree, rfl⟩ := execSerialize_next h
    · exact ⟨_, exec_serialize_raises (s := rekeyed s k n) hv, rfl⟩
    · exact ⟨_, exec_serialize_serializes (s := rekeyed s k n) hv ((tree?_congr rfl rfl rfl).trans htree), rfl⟩
  | encode =>
    obtain ⟨hover, rfl⟩ | ⟨hfits, j, hmissing, rfl⟩ | ⟨hfits, hcodes, hover, rfl⟩ |
      ⟨hfits, hcodes, hroom, rfl⟩ := execEncode_next h
    · exact ⟨_, exec_encode_raises_payload (s := rekeyed s k n) hover, rfl⟩
    · exact ⟨_, exec_encode_raises_missing (s := rekeyed s k n) hfits hmissing, rfl⟩
    · exact ⟨_, exec_encode_raises_output (s := rekeyed s k n) hfits hcodes hover, rfl⟩
    · exact ⟨_, exec_encode_encodes (s := rekeyed s k n) hfits hcodes hroom, rfl⟩
  | nextblk =>
    obtain ⟨hv, rfl⟩ | ⟨hv, hlast, rfl⟩ | ⟨hv, hlt, rfl⟩ := execNextblk_next h
    · exact ⟨_, exec_nextblk_raises_notReady (s := rekeyed s k n) hv, rfl⟩
    · exact ⟨_, exec_nextblk_raises_counter (s := rekeyed s k n) hv hlast, rfl⟩
    · exact ⟨_, exec_nextblk_generates (s := rekeyed s k n) hv hlt, rfl⟩
  | keygen =>
    obtain ⟨hfail, rfl⟩ | ⟨r, hr, rfl⟩ := execKeygen_next h
    · exact ⟨_, exec_keygen_raises (s := rekeyed s k n) hfail, rfl⟩
    · exact ⟨_, exec_keygen_stores (s := rekeyed s k n) hr, rfl⟩

/-- MASK goes on alike with another K and N, but for KSBLK and the bytes of its buffer. -/
theorem exec_mask_rekeyed {buf : BufSel} (h : exec (.mask buf) s = .next t) :
    ∃ t', exec (.mask buf) (rekeyed s k n) = .next t' ∧
      t' = { t with mem := t'.mem, ksblk := t'.ksblk, key := t'.key, nonce := t'.nonce } ∧
      ∀ base, maskBase buf = some base →
        ∀ a, (a < base ∨ base + s.maskLength buf ≤ a) → t'.byteAt a = t.byteAt a := by
  have hlen : (rekeyed s k n).maskLength buf = s.maskLength buf := by cases buf <;> rfl
  obtain ⟨rfl, rfl⟩ | ⟨base, hb, ⟨hv, rfl⟩ | ⟨hv, hp, hover, rfl⟩ | ⟨hv, hfits, hover, rfl⟩ |
    ⟨hv, hfits, hroom, rfl⟩⟩ := execMask_next h
  · exact ⟨_, maskReservedRaises (rekeyed s k n), rfl, fun _ _ _ _ => rfl⟩
  · exact ⟨_, exec_mask_raises_notReady (s := rekeyed s k n) hb hv, rfl, fun _ _ _ _ => rfl⟩
  · exact ⟨_, exec_mask_raises_payload (s := rekeyed s k n) hb hv hp hover, rfl, fun _ _ _ _ => rfl⟩
  · exact ⟨_, exec_mask_raises_counter (s := rekeyed s k n) hb hv hfits (hlen.symm ▸ hover), rfl,
      fun _ _ _ _ => rfl⟩
  · refine ⟨_, exec_mask_masks (s := rekeyed s k n) hb hv hfits (hlen.symm ▸ hroom), ?frame,
      fun base' hb' a ha => ?outside⟩
    case frame => rw [hlen]; rfl
    case outside =>
      obtain rfl : base = base' := Option.some.inj (hb.symm.trans hb')
      rw [hlen, maskBuffer_byteAt_of_outside s ha]
      exact maskBuffer_byteAt_of_outside (rekeyed s k n) ha

end

/-- Settles O51: MASK by its own lemma, the other commands by theirs. -/
theorem keystreamDoesNotSteer : Obligations.KeystreamDoesNotSteer := by
  intro i s t k n h
  by_cases hmask : ∃ b, i = .mask b
  · obtain ⟨buf, rfl⟩ := hmask
    obtain ⟨t', ht', hframe, houtside⟩ := exec_mask_rekeyed (k := k) (n := n) h
    refine ⟨t', ht', hframe, fun hne => absurd rfl (hne buf), fun b base hbuf hb => ?_⟩
    cases hbuf
    exact houtside base hb
  · have hne : ∀ b, i ≠ .mask b := fun b hb => hmask ⟨b, hb⟩
    obtain ⟨t', ht', hframe⟩ := exec_rekeyed (k := k) (n := n) hne h
    have hmem : t'.mem = t.mem := (congrArg State.mem hframe).trans rfl
    refine ⟨t', ht', ?_, fun _ => hmem, fun b _ hb => absurd hb (hne b)⟩
    rw [hmem]
    exact hframe

end Sys2Proof.Proofs.Keystream

/-!
PROOFS of the family other, the whole pipeline (spec/47_decoder_reference.md R203, R205): the two masks of PIPELINE come
off with one keystream, and what is below them is the Huffman round trip.
-/

namespace Sys2Proof.Proofs.Pipeline

open Sys2Proof Sys2Proof.Machine Sys2Proof.Laws Sys2Proof.Proofs.Huffman Sys2Proof.Proofs.Codebook
  Sys2Proof.Proofs.Encoder Sys2Proof.Proofs.Serializer Sys2Proof.Proofs.DecoderReference
  Sys2Proof.Proofs.Mask Sys2Proof.Proofs.Commands

/-! ### XOR with the keystream -/

theorem length_xorKeystream (k : Table Byte 32) (n : Table Byte 8) (c : Nat) (bs : List Byte) :
    (xorKeystream k n c bs).length = bs.length := List.length_mapIdx

theorem xorKeystream_xorKeystream (k : Table Byte 32) (n : Table Byte 8) (c : Nat) (bs : List Byte) :
    xorKeystream k n c (xorKeystream k n c bs) = bs := by
  refine List.ext_getElem (by rw [length_xorKeystream, length_xorKeystream]) fun i _ _ => ?_
  simp [xorKeystream]

/-- A masked buffer is the buffer XORed with the keystream from block CTR on (R168, R182). -/
theorem bytesAt_maskBuffer (s : State) (base len : Nat) :
    (s.maskBuffer base len).bytesAt base len =
      xorKeystream s.key s.nonce s.ctr.toNat (s.bytesAt base len) := by
  refine List.ext_getElem (by simp [length_xorKeystream]) fun i hi _ => ?_
  rw [length_bytesAt] at hi
  have hblock : s.ctr + BitVec.ofNat 64 (i / 64) = BitVec.ofNat 64 (s.ctr.toNat + i / 64) := by
    rw [BitVec.ofNat_add, BitVec.ofNat_toNat, BitVec.setWidth_eq]
  simp [xorKeystream, State.bytesAt, maskBuffer_byteAt_of_lt s base hi, keystreamByte, hblock]

/-! ### The two masks of PIPELINE -/

/-- The state CINIT and MASK TMEM leave; `exec_mask_tmem` says so. -/
def treeMasked (s : State) : State := (initialised s).maskBuffer tmemBase s.tlen.toNat

/-- The state CINIT, MASK TMEM and MASK EMEM leave; `exec_mask_emem` says so. -/
def bothMasked (s : State) : State := (treeMasked s).maskBuffer ememBase s.elen.toNat

theorem bothMasked_err (s : State) : (bothMasked s).err = s.err := rfl
theorem bothMasked_tlen (s : State) : (bothMasked s).tlen = s.tlen := rfl
theorem bothMasked_elen (s : State) : (bothMasked s).elen = s.elen := rfl
theorem bothMasked_ebits (s : State) : (bothMasked s).ebits = s.ebits := rfl
theorem bothMasked_olen (s : State) : (bothMasked s).olen = s.olen := rfl

theorem exec_mask_tmem (s : State) : exec (.mask .tmem) (initialised s) = .next (treeMasked s) :=
  exec_mask_initialised s rfl fun h => by cases h

theorem treeMasked_ctr (s : State) : (treeMasked s).ctr.toNat = ceil64 s.tlen.toNat := by
  have hctr : (initialised s).ctr.toNat = 0 := rfl
  have hroom : (initialised s).ctr.toNat + ceil64 s.tlen.toNat ≤ ctrLimit := initialised_room s .tmem
  rw [treeMasked, maskBuffer_ctr_toNat _ hroom, hctr, Nat.zero_add]

theorem treeMasked_ciphV (s : State) : (treeMasked s).status.ciphV = true := by
  rcases Nat.eq_zero_or_pos s.tlen.toNat with hzero | hpos
  · rw [treeMasked, (maskBuffer_ksblk_status_of_zero _ _ hzero).2]
    rfl
  · rw [treeMasked, maskBuffer_status_of_pos _ _ hpos]
    rfl

theorem exec_mask_emem (s : State) : exec (.mask .emem) (treeMasked s) = .next (bothMasked s) := by
  refine exec_mask_masks (s := treeMasked s) (buf := .emem) rfl (treeMasked_ciphV s) (fun h => by cases h) ?room
  case room =>
    have htlen := s.tlen.isLt
    have helen : (treeMasked s).maskLength .emem < 2 ^ 32 := s.elen.isLt
    rw [treeMasked_ctr]
    unfold ceil64 ctrLimit
    omega

/-- TMEM and EMEM do not overlap, so each mask falls on the bytes the commands before left there, and the decoding
collaborator takes both off (R203). -/
theorem unmask_bothMasked (s : State) (h : s.tlen.toNat ≤ tmemSize) :
    unmask s.keyin s.noncein ((bothMasked s).bytesAt tmemBase s.tlen.toNat)
        ((bothMasked s).bytesAt ememBase s.elen.toNat) =
      (s.bytesAt tmemBase s.tlen.toNat, s.bytesAt ememBase s.elen.toNat) := by
  have htree : (bothMasked s).bytesAt tmemBase s.tlen.toNat =
      xorKeystream s.keyin s.noncein 0 (s.bytesAt tmemBase s.tlen.toNat) := by
    have hkept : (bothMasked s).bytesAt tmemBase s.tlen.toNat = (treeMasked s).bytesAt tmemBase s.tlen.toNat :=
      bytesAt_congr _ _ fun i hi => maskBuffer_byteAt_of_outside _
        (.inl (by unfold tmemSize at h; unfold tmemBase ememBase; omega))
    exact hkept.trans (bytesAt_maskBuffer (initialised s) tmemBase s.tlen.toNat)
  have hpayload : (bothMasked s).bytesAt ememBase s.elen.toNat =
      xorKeystream s.keyin s.noncein (ceil64 s.tlen.toNat) (s.bytesAt ememBase s.elen.toNat) := by
    have hkept : (treeMasked s).bytesAt ememBase s.elen.toNat = s.bytesAt ememBase s.elen.toNat :=
      bytesAt_congr _ _ fun i hi => maskBuffer_byteAt_of_outside (initialised s)
        (.inr (by unfold tmemSize at h; unfold tmemBase ememBase; omega))
    rw [← treeMasked_ctr, ← hkept]
    exact bytesAt_maskBuffer (treeMasked s) ememBase s.elen.toNat
  rw [unmask, htree, hpayload, length_xorKeystream, length_bytesAt, xorKeystream_xorKeystream,
    xorKeystream_xorKeystream]

/-- What the collaborator reads and decodes below the two masks is what it gives for the bundle (R200). -/
theorem decodeBundle_bothMasked {s : State} {tree : CodeTree} {used : Nat} {p : List Byte}
    (h : s.tlen.toNat ≤ tmemSize)
    (hread : deserialize (s.bytesAt tmemBase s.tlen.toNat) = some (tree, used))
    (hdecode : decodeBits tree (s.bytesAt ememBase s.elen.toNat) s.ebits.toNat s.olen.toNat = some p) :
    decodeBundle s.keyin s.noncein ((bothMasked s).bytesAt tmemBase s.tlen.toNat)
      ((bothMasked s).bytesAt ememBase s.elen.toNat) s.ebits.toNat s.olen.toNat = some p := by
  rw [decodeBundle, unmask_bothMasked s h, hread]
  exact hdecode

/-! ### The Huffman commands, SERIALIZE before DERIVE -/

/-- The state COUNT, BUILD, SERIALIZE and DERIVE of the tree `tree` leave (R101). -/
def prepared (s : State) (tree : CodeTree) : State :=
  { serialized (built (counted s)) tree with
    cb := codebookOf tree
    status := (serialized (built (counted s)) tree).status.setCodebook }

/-- The Huffman commands without error leave ERR, KEYIN and NONCEIN alone; CINIT takes its key from the last two. -/
structure KeepsKey (s t : State) : Prop where
  err : t.err = s.err
  keyin : t.keyin = s.keyin
  noncein : t.noncein = s.noncein

theorem KeepsKey.trans {s t u : State} (h : KeepsKey s t) (h' : KeepsKey t u) : KeepsKey s u :=
  ⟨h'.err.trans h.err, h'.keyin.trans h.keyin, h'.noncein.trans h.noncein⟩

theorem counted_keepsKey (s : State) : KeepsKey s (counted s) := ⟨rfl, rfl, rfl⟩

theorem built_keepsKey (s : State) : KeepsKey s (built s) := ⟨rfl, rfl, rfl⟩

theorem serialized_keepsKey (s : State) (tree : CodeTree) : KeepsKey s (serialized s tree) := ⟨rfl, rfl, rfl⟩

theorem encoded_keepsKey (s : State) : KeepsKey s (encoded s) := ⟨rfl, rfl, rfl⟩

theorem prepared_keepsKey (s : State) (tree : CodeTree) : KeepsKey s (prepared s tree) :=
  have hderive : KeepsKey (serialized (built (counted s)) tree) (prepared s tree) := ⟨rfl, rfl, rfl⟩
  (((counted_keepsKey s).trans (built_keepsKey _)).trans (serialized_keepsKey _ tree)).trans hderive

/-- COUNT, BUILD and DERIVE write no buffer, so the bytes are those SERIALIZE leaves. -/
theorem prepared_byteAt (s : State) (tree : CodeTree) (a : Nat) :
    (prepared s tree).byteAt a = (serialized (built (counted s)) tree).byteAt a := byteAt_congr rfl rfl a

/-- TMEM lies below PMEM, so SERIALIZE leaves the payload as it was (R39, R41). -/
theorem prepared_payload (s : State) {tree : CodeTree} (h : tree.buildable = true) :
    (prepared s tree).payload = s.payload := by
  obtain ⟨-, -, hfits⟩ := serialized_lengths (built (counted s)) h
  refine bytesAt_congr _ _ fun i _ => ?_
  rw [prepared_byteAt, serialized_byteAt_of_outside]
  · exact byteAt_congr rfl rfl _
  · unfold tmemSize at hfits
    unfold tmemBase pmemBase
    omega

/-- TMEM lies below EMEM, so ENCODE leaves the serialized tree as it was (R40, R41). -/
theorem encoded_bytesAt_tmem (s : State) {len : Nat} (h : len ≤ tmemSize) :
    (encoded s).bytesAt tmemBase len = s.bytesAt tmemBase len := by
  refine bytesAt_congr _ _ fun i hi => encoded_byteAt_of_outside s (.inl ?_)
  unfold tmemSize at h
  unfold tmemBase ememBase
  omega

/-- DERIVE leaves the serialized tree and its lengths as SERIALIZE wrote them (R201). -/
theorem deserialize_prepared (s : State) {tree : CodeTree} (h : tree.buildable = true) :
    deserialize ((prepared s tree).bytesAt tmemBase (prepared s tree).tlen.toNat) =
      some (tree, (prepared s tree).tbits.toNat) :=
  deserialize_serialized (built (counted s)) h

/-- Settles O55: the tree and the bits of ENCODE stand in TMEM and EMEM below the two masks; with these off, reading
the tree and decoding the bits give the payload. -/
theorem pipelineRoundTrip : Obligations.PipelineRoundTrip := by
  intro s p hcfg herr hlen hp hfits
  obtain rfl := payload_eq hlen hp
  rw [length_payload] at hfits
  obtain ⟨tree, htree, hdistinct, hmem, hbits⟩ := exists_payload_tree s
  obtain ⟨-, hbuildable⟩ := (tree?_eq_some_iff _ _).1 htree
  obtain ⟨-, -, hinternal⟩ := buildable_leaves hbuildable
  obtain ⟨-, htlen, htfits⟩ := serialized_lengths (built (counted s)) hbuildable
  have hpayload := prepared_payload s hbuildable
  have hsame : (serialized (built (counted s)) tree).tree? = (built (counted s)).tree? :=
    tree?_congr rfl rfl rfl
  have hkept := hsame.trans htree
  have hcodes : firstMissing (prepared s tree).cb (prepared s tree).payload = none := by
    rw [hpayload]
    exact firstMissing_codebookOf hdistinct hmem
  have hroom : ceil8 (encodeBits (prepared s tree).cb (prepared s tree).payload).length ≤ s.cfg.emax := by
    rw [hpayload]
    exact ceil8_le_emax hcfg hfits hbits
  have htlen' : (encoded (prepared s tree)).tlen.toNat ≤ tmemSize := Nat.le_trans (Nat.le_of_eq htlen) htfits
  have hkey := (prepared_keepsKey s tree).trans (encoded_keepsKey _)
  refine ⟨counted s, built (counted s), serialized (built (counted s)) tree, prepared s tree,
    encoded (prepared s tree), initialised (encoded (prepared s tree)),
    treeMasked (encoded (prepared s tree)), bothMasked (encoded (prepared s tree)),
    exec_count_counts hfits, exec_build_builds (counted_total_le s), exec_serialize_serializes rfl htree,
    exec_derive_derives rfl hkept, exec_encode_encodes (s := prepared s tree) hfits hcodes hroom, exec_cinit _,
    exec_mask_tmem _, exec_mask_emem _, ?noError, ?decoded⟩
  case noError =>
    rw [bothMasked_err, hkey.err, herr]
  case decoded =>
    have hread : deserialize ((encoded (prepared s tree)).bytesAt tmemBase
        (encoded (prepared s tree)).tlen.toNat) = some (tree, (prepared s tree).tbits.toNat) := by
      rw [encoded_bytesAt_tmem _ htlen']
      exact deserialize_prepared s hbuildable
    have hdecode := decodeBits_encoded (s := prepared s tree) hcfg rfl hinternal hdistinct
      (by rwa [hpayload]) hroom
    rw [hpayload] at hdecode
    rw [bothMasked_tlen, bothMasked_elen, bothMasked_ebits, bothMasked_olen,
      ← hkey.keyin, ← hkey.noncein]
    exact decodeBundle_bothMasked htlen' hread hdecode

end Sys2Proof.Proofs.Pipeline
